-- ==== Sys2Proof/Word.lean ====
section
/-! DEFINITION. The value types of spec/00_scope.md R10 and R12: bytes, nibbles, 16-bit values and byte strings. -/

namespace Sys2Proof

/-- "A byte is an unsigned integer 0..255" (R10). -/
abbrev Byte := BitVec 8

/-- "A nibble is an unsigned integer 0..15" (R10). -/
abbrev Nib := BitVec 4

/-- "A 16-bit value is an unsigned integer 0..65535" (R10). -/
abbrev Half := BitVec 16

/-- A byte string; index 0 is the first byte written to or read from the transport (R12). -/
abbrev Bytes := List Byte

/-- A bus address 1..32 (R9 `NADDR`, R27): the address `a` is the index `a - 1`. -/
abbrev BusAddr := Fin 32

end Sys2Proof
end

