-- ==== Sys2Proof/Config.lean ====
section
/-! DEFINITION. What an instance fixes (spec/00_scope.md R9), the default lookup tables (R122), and the free values
of the model: what the transport answers and which agent moves where the spec fixes neither. -/

namespace Sys2Proof

/-- `ARB_POLICY` (R9, R211): which pending request is granted. -/
inductive ArbPolicy where
  | any
  | fifo
  deriving DecidableEq, Repr

/-- `MASTER_ADDR` (R9, R230) is one of the two master codes 129 and 160. -/
inductive MasterAddr where
  | code129
  | code160
  deriving DecidableEq, Repr

/-- The code a master puts in its frames (R230). -/
def MasterAddr.toByte : MasterAddr → Byte
  | .code129 => 129
  | .code160 => 160

/-- The `OPEN` parameters of R9, constant from construction to the end of a run (R32). They are held in the state,
so that a statement about every state holds for every value of them (log entry 3). -/
structure Params where
  /-- `MAX_FRAME`, 11 to 65535. -/
  maxFrame : {n : Nat // 11 ≤ n ∧ n ≤ 65535}
  /-- `TIMEOUT`: no rule depends on its value (R303, log entry 18). -/
  timeout : Nat
  arbPolicy : ArbPolicy
  masterAddr : MasterAddr
  frostMin : Byte
  frostMax : Byte
  waddrTarget : Half
  waddrFrost : Half
  waddrRunmode : Half
  retryMax : Nat
  deriving DecidableEq, Repr

/-- The two 16-entry tables of the Checksum Engine, `LUT_H` and `LUT_L` (R23), held as data (R122). -/
structure Lut where
  high : Vector Byte 16
  low : Vector Byte 16
  deriving DecidableEq, Repr

namespace Config

/-- The tables of R122. -/
def ccittLut : Lut where
  high := #v[0x00, 0x10, 0x20, 0x30, 0x40, 0x50, 0x60, 0x70, 0x81, 0x91, 0xA1, 0xB1, 0xC1, 0xD1, 0xE1, 0xF1]
  low := #v[0x00, 0x21, 0x42, 0x63, 0x84, 0xA5, 0xC6, 0xE7, 0x08, 0x29, 0x4A, 0x6B, 0x8C, 0xAD, 0xCE, 0xEF]

/-- `CRC_SEED` is 0xFFFF, "each accumulator 0xFF" (R9, R124). -/
def crcSeed : Byte := 0xFF

/-- `MASTER_CODES` (R9): the legal destinations of a reply. -/
def masterCodes : List Byte := [129, 160]

/-- `ACK_LEN` (R9): the length of a WRITE reply. -/
def ackLen : Nat := 7

/-- `TARGET_MIN` (R9, R235). -/
def targetMin : Byte := 5

/-- `TARGET_MAX` (R9, R235). -/
def targetMax : Byte := 35

/-- Free value: whether a write succeeds (R203) where `env.tx` does not say; nothing constrains it (log entry 2). -/
opaque freeTx : Nat → Bool

/-- Free value: what a read returns (R204) where `env.rx` does not say; nothing constrains it but the cut at
`MAX_FRAME` bytes that `rxRead` makes (log entry 2). -/
opaque freeRx : Nat → Bytes

/-- Free value: which of several enabled agents moves (R201, R211) where neither `env.turns` nor `env.cycle` says (log
entry 1). -/
opaque freeTurn : Nat → Nat

/-- DESIGN CHOICE (unsafe, log entry 3): the values of the `OPEN` parameters in the reset state. The spec gives
none, except the default of `ARB_POLICY`. -/
def resetParams : Params where
  maxFrame := ⟨65535, by decide⟩
  timeout := 1000
  arbPolicy := .any
  masterAddr := .code129
  frostMin := 0
  frostMax := 255
  waddrTarget := 0
  waddrFrost := 0
  waddrRunmode := 0
  retryMax := 0

end Config

end Sys2Proof
end

