-- ==== Sys2Proof/Syntax.lean ====
section
/-! DEFINITION. The commands of spec/30_encoding.md R91 and the four wire frames of R83 (one constructor per row of
spec/opcode_table.json), and the descriptor block `DESC` (R93, R170). -/

namespace Sys2Proof

/-- A function code of a frame (R81): "0 = READ, 1 = WRITE; no other value is defined". -/
inductive Func where
  | read
  | write
  deriving DecidableEq, Repr

/-- The descriptor `DESC` (R93, R170): nine field positions and the label table, offset to label. -/
structure Desc where
  offTfmt : Half
  offTarget : Half
  offFrost : Half
  offSensel : Half
  offRunmode : Half
  offHeat : Half
  pairBuiltin : Half
  pairRemote : Half
  pairFloor : Half
  labels : List (Half × Half)
  deriving DecidableEq, Repr

/-- One constructor per row of the opcode table: the fifteen commands of R91, then the four frame kinds of R83. -/
inductive Instr where
  /-- CRC.COMPUTE (R125). -/
  | crcCompute (data : Bytes)
  /-- ENC.READ (R141). -/
  | encRead (dest source : Byte) (start : Half)
  /-- ENC.WRITE (R142). -/
  | encWrite (dest source : Byte) (start : Half) (payload : Bytes)
  /-- DEC.VERIFY (R150). -/
  | decVerify (expDest expSource : Byte) (expFunction : Func) (raw : Bytes)
  /-- RM.DECODE (R172). -/
  | rmDecode (desc : Desc) (dcb : Bytes)
  /-- RM.RAW (R173). -/
  | rmRaw (offset : Half) (dcb : Bytes)
  /-- RM.TFMT (R174). -/
  | rmTfmt (desc : Desc) (dcb : Bytes)
  /-- RM.TARGET (R175). -/
  | rmTarget (desc : Desc) (dcb : Bytes)
  /-- RM.FROST (R176). -/
  | rmFrost (desc : Desc) (dcb : Bytes)
  /-- RM.SENSEL (R177). -/
  | rmSensel (desc : Desc) (dcb : Bytes)
  /-- RM.CURTEMP (R178). -/
  | rmCurtemp (desc : Desc) (dcb : Bytes)
  /-- RM.RUNMODE (R179). -/
  | rmRunmode (desc : Desc) (dcb : Bytes)
  /-- RM.HEAT (R180). -/
  | rmHeat (desc : Desc) (dcb : Bytes)
  /-- LA.REGISTER (R205). -/
  | laRegister (address : Byte)
  /-- LA.EXCHANGE (R207). -/
  | laExchange (address : Byte) (frame : Bytes)
  /-- RQ.READ (R83, R141): a READ request frame, host to thermostat. -/
  | rqRead (dest source : Byte) (start : Half)
  /-- RQ.WRITE (R83, R142): a WRITE request frame, host to thermostat. -/
  | rqWrite (dest source : Byte) (start : Half) (payload : Bytes)
  /-- RP.READ (R83, R150): a READ reply frame, thermostat to host; bytes 5 to 8 are not examined (R159). -/
  | rpRead (dest source b5 b6 b7 b8 : Byte) (payload : Bytes)
  /-- RP.WRITE (R83, R161): the write acknowledgment, thermostat to host. -/
  | rpWrite (dest source : Byte)
  deriving DecidableEq, Repr

/-- Where the bytes of an instruction stand: a command descriptor at the command interface (R90), a request frame
going out or a reply frame coming in on the link (R83: "the direction" tells a request from a reply). -/
inductive Port where
  | command
  | request
  | reply
  deriving DecidableEq, Repr

/-- The port of an instruction: the "direction" column of R83 for the frames. -/
def Instr.port : Instr → Port
  | .crcCompute _ => .command
  | .encRead _ _ _ => .command
  | .encWrite _ _ _ _ => .command
  | .decVerify _ _ _ _ => .command
  | .rmDecode _ _ => .command
  | .rmRaw _ _ => .command
  | .rmTfmt _ _ => .command
  | .rmTarget _ _ => .command
  | .rmFrost _ _ => .command
  | .rmSensel _ _ => .command
  | .rmCurtemp _ _ => .command
  | .rmRunmode _ _ => .command
  | .rmHeat _ _ => .command
  | .laRegister _ => .command
  | .laExchange _ _ => .command
  | .rqRead _ _ _ => .request
  | .rqWrite _ _ _ _ => .request
  | .rpRead _ _ _ _ _ _ _ => .reply
  | .rpWrite _ _ => .reply

end Sys2Proof
end

