-- ==== Sys2Proof/WellFormed.lean ====
section
/-! DEFINITION. What an instruction must satisfy to have an encoding (spec/30_encoding.md R83, R90, R92, R93): the
lengths that a 16-bit length field can hold, a strictly increasing label table, and the addresses of a reply. -/

namespace Sys2Proof

/-- A byte-string operand has a 16-bit length (R90). -/
def strOk (s : Bytes) : Bool := decide (s.length < 65536)

/-- "The entries must be in strictly increasing order of `offset_i`" (R93). -/
def labelsIncreasing : List (Half × Half) → Bool
  | [] => true
  | [_] => true
  | a :: b :: rest => decide (a.1.toNat < b.1.toNat) && labelsIncreasing (b :: rest)

/-- The shape of a descriptor: its label table increases and has at most 65535 entries, what `K` can hold (R93). -/
def Desc.wf (d : Desc) : Bool := labelsIncreasing d.labels && decide (d.labels.length < 65536)

/-- The payload of a frame whose 16-bit length field holds `11 + n` (R82). -/
def framePayloadOk (p : Bytes) : Bool := decide (11 + p.length < 65536)

/-- The destination of a reply is a master code (R53, R84). -/
def replyDestOk (d : Byte) : Bool := Config.masterCodes.contains d

/-- The source of a reply is a bus address 1..32 (R53, R84). -/
def replySourceOk (s : Byte) : Bool := decide (1 ≤ s.toNat) && decide (s.toNat ≤ 32)

/-- The instructions that have an encoding. -/
def Instr.wf : Instr → Bool
  | .crcCompute data => strOk data
  | .encRead _ _ _ => true
  | .encWrite _ _ _ payload => strOk payload
  | .decVerify _ _ _ raw => strOk raw
  | .rmDecode desc dcb => desc.wf && strOk dcb
  | .rmRaw _ dcb => strOk dcb
  | .rmTfmt desc dcb => desc.wf && strOk dcb
  | .rmTarget desc dcb => desc.wf && strOk dcb
  | .rmFrost desc dcb => desc.wf && strOk dcb
  | .rmSensel desc dcb => desc.wf && strOk dcb
  | .rmCurtemp desc dcb => desc.wf && strOk dcb
  | .rmRunmode desc dcb => desc.wf && strOk dcb
  | .rmHeat desc dcb => desc.wf && strOk dcb
  | .laRegister _ => true
  | .laExchange _ frame => strOk frame
  | .rqRead _ _ _ => true
  | .rqWrite _ _ _ payload => framePayloadOk payload
  | .rpRead dest source _ _ _ _ payload => replyDestOk dest && replySourceOk source && framePayloadOk payload
  | .rpWrite dest source => replyDestOk dest && replySourceOk source

end Sys2Proof
end

