-- ==== Sys2Proof/Machine/Operands.lean ====
section
/-! DEFINITION. The operand forms: byte order of the 16-bit fields (spec/00_scope.md R10, spec/20_memory.md R55, R56),
bus addresses (R27, R54), and reading one byte or one pair of a snapshot (R51, R171). -/

namespace Sys2Proof

/-- `lo8(v) = v mod 256` (R10). -/
def lo8 (v : Nat) : Byte := BitVec.ofNat 8 v

/-- `hi8(v) = (v div 256) mod 256` (R10). -/
def hi8 (v : Nat) : Byte := BitVec.ofNat 8 (v / 256)

/-- `u16(l, h) = l + 256*h` (R10). -/
def u16 (l h : Byte) : Nat := l.toNat + 256 * h.toNat

/-- A 16-bit value as its two bytes, low byte first (R55, R85, R90). -/
def le16 (v : Nat) : Bytes := [lo8 v, hi8 v]

/-- A 16-bit operand read from its two bytes, low byte first (R85, R90). -/
def half (l h : Byte) : Half := BitVec.ofNat 16 (u16 l h)

/-- The bus address a byte names: 1..32 and nothing else (R27, R54, R205). -/
def busAddr? (b : Byte) : Option BusAddr :=
  if h : 1 ≤ b.toNat ∧ b.toNat ≤ 32 then some ⟨b.toNat - 1, by omega⟩ else none

/-- The byte that names a bus address. -/
def busByte (a : BusAddr) : Byte := BitVec.ofNat 8 (a.val + 1)

/-- `MemRead(DCB, o, 1)` (R13, R51): the byte at an offset, none where the snapshot does not reach it (R171). -/
def dcbByte? (dcb : Bytes) (o : Half) : Option Byte := dcb[o.toNat]?

/-- The pair at offset `p`: the byte at the lower offset is the high byte (R56); "present when `p + 1 < len(dcb)`,
computed on naturals (no wrap)" (R171). -/
def dcbPair? (dcb : Bytes) (p : Half) : Option Nat :=
  match dcb[p.toNat]?, dcb[p.toNat + 1]? with
  | some h, some l => some (256 * h.toNat + l.toNat)
  | _, _ => none

end Sys2Proof
end

