-- ==== Sys2Proof/Machine/Crc.lean ====
section
/-! DEFINITION. The functions of the Checksum Engine, spec/40_checksum_engine.md R121 to R128. -/

namespace Sys2Proof

/-- The working registers of the Checksum Engine (spec/10_state.md R21): the accumulators `HI` and `LO` and the
temporary `T`. -/
structure Ce where
  hi : Byte
  lo : Byte
  t : Nib
  deriving DecidableEq, Repr

/-- `crc_nibble` (R121): `T` from the accumulators before the shift, both accumulators shifted left by 4 with the top
nibble of `LO` carried into `HI`, then the two tables at `T` XORed in. -/
def crcNibble (lut : Lut) (ce : Ce) (nib : Nib) : Ce :=
  let t : Nib := (ce.hi >>> 4).setWidth 4 ^^^ nib
  { hi := ((ce.hi <<< 4) ||| (ce.lo >>> 4)) ^^^ lut.high[t.toNat]
    lo := (ce.lo <<< 4) ^^^ lut.low[t.toNat]
    t := t }

/-- `crc_byte` (R123): "process the high nibble then the low nibble". -/
def crcByte (lut : Lut) (ce : Ce) (b : Byte) : Ce :=
  crcNibble lut (crcNibble lut ce ((b >>> 4).setWidth 4)) (b.setWidth 4)

/-- The loop of R124 over a byte string, from the accumulators as they stand. -/
def crcLoop (lut : Lut) (ce : Ce) (s : Bytes) : Ce := s.foldl (crcByte lut) ce

/-- The registers after `crc16(s)` (R124): both accumulators are seeded, then the bytes are consumed in order. -/
def crcRun (lut : Lut) (ce : Ce) (s : Bytes) : Ce :=
  crcLoop lut { ce with hi := Config.crcSeed, lo := Config.crcSeed } s

/-- `crc16(s)` as the pair `(low, high)` (R124). The seed makes the registers before the call irrelevant. -/
def crc16 (lut : Lut) (s : Bytes) : Byte × Byte :=
  let ce := crcRun lut { hi := Config.crcSeed, lo := Config.crcSeed, t := 0 } s
  (ce.lo, ce.hi)

/-- The trailer of a frame: low byte first (R126). -/
def crcTrailer (lut : Lut) (s : Bytes) : Bytes := [(crc16 lut s).1, (crc16 lut s).2]

/-- `crc_append(s) = s ++ [low, high]` (R126). -/
def crcAppend (lut : Lut) (s : Bytes) : Bytes := s ++ crcTrailer lut s

/-- `raw[0 .. len(raw)-3]`, the bytes the checksum of a frame covers (R127). -/
def crcCovered (raw : Bytes) : Bytes := raw.take (raw.length - 2)

/-- `crc_check(raw)` (R127): the covered bytes' checksum equals the last two bytes, low then high. -/
def crcCheck (lut : Lut) (raw : Bytes) : Bool := raw.drop (raw.length - 2) == crcTrailer lut (crcCovered raw)

/-- One bit step of the bit-serial form (R128). -/
def crcBitStep (r : Half) : Half := if r.msb then (r <<< 1) ^^^ 0x1021 else r <<< 1

/-- One byte of the bit-serial form (R128): `r xor (b << 8)`, then eight bit steps. -/
def crcBitByte (r : Half) (b : Byte) : Half := crcBitStep^[8] (r ^^^ (b.setWidth 16 <<< 8))

/-- `crc16_bitwise(s)` (R128) as `(low, high)`: the machine does not use it, statements compare `crc16` with it. -/
def crc16Bitwise (s : Bytes) : Byte × Byte :=
  let r := s.foldl crcBitByte 0xFFFF
  (lo8 r.toNat, hi8 r.toNat)

end Sys2Proof
end

