-- ==== Sys2Proof/Machine/Frames.lean ====
section
/-! DEFINITION. The bytes of the four wire frames, spec/30_encoding.md R80 to R85. -/

namespace Sys2Proof

/-- Function code of a frame: 0 READ, 1 WRITE (R81). -/
def Func.code : Func → Byte
  | .read => 0
  | .write => 1

/-- The function a code names, none for 2..255 (R81, R86). -/
def func? (b : Byte) : Option Func := if b = 0 then some .read else if b = 1 then some .write else none

/-- The nine header bytes of a request: destination, total length, source, function, start, count (R80, R83). -/
def requestHeader (dest source : Byte) (fn : Func) (total start count : Nat) : Bytes :=
  [dest, lo8 total, hi8 total, source, fn.code, lo8 start, hi8 start, lo8 count, hi8 count]

/-- RQ.READ (R83, R141): length 11, count the sentinel 0xFFFF. -/
def readRequest (lut : Lut) (dest source : Byte) (start : Half) : Bytes :=
  crcAppend lut (requestHeader dest source .read 11 start.toNat 0xFFFF)

/-- RQ.WRITE (R83, R142): length `11 + n`, count `n`. -/
def writeRequest (lut : Lut) (dest source : Byte) (start : Half) (payload : Bytes) : Bytes :=
  crcAppend lut (requestHeader dest source .write (11 + payload.length) start.toNat payload.length ++ payload)

/-- RP.READ (R83): length `11 + n`, bytes 5 to 8 as they come. -/
def readReply (lut : Lut) (dest source b5 b6 b7 b8 : Byte) (payload : Bytes) : Bytes :=
  crcAppend lut
    ([dest, lo8 (11 + payload.length), hi8 (11 + payload.length), source, Func.read.code, b5, b6, b7, b8] ++ payload)

/-- RP.WRITE (R83, R161): `[dest, 7, 0, source, 1, crc_lo, crc_hi]`. -/
def writeReply (lut : Lut) (dest source : Byte) : Bytes :=
  crcAppend lut [dest, lo8 Config.ackLen, hi8 Config.ackLen, source, Func.write.code]

end Sys2Proof
end

