-- ==== Sys2Proof/Decode.lean ====
section
/-! DEFINITION. Decoding, total on any bytes: command descriptors (spec/30_encoding.md R90 to R96) and the wire frames
of R83; then the encoder written from the same tables, and the opcode table's numbering of an instruction's bits. -/

namespace Sys2Proof

/-- Why bytes are no instruction. For a descriptor every reason is "reserved or malformed" (R96) and ends in the
one response `IllegalCommand`. -/
inductive Reject where
  /-- no byte at all (R96: "malformed when it is empty") -/
  | empty
  /-- an opcode byte not in R91 -/
  | reservedOpcode (opcode : Byte)
  /-- shorter than the opcode and the length fields require -/
  | truncated
  /-- longer than the opcode and the length fields require -/
  | surplus
  /-- `exp_function` is not 0 or 1 (R92) -/
  | badFunction
  /-- the label table is not strictly increasing (R93) -/
  | labelsNotIncreasing
  /-- the bytes are no frame of R83 in this direction -/
  | notAFrame
  deriving DecidableEq, Repr

/-! ### Operands, taken from the front (R90: "no padding and no alignment") -/

/-- A byte operand. -/
def takeByte : Bytes → Except Reject (Byte × Bytes)
  | b :: rest => .ok (b, rest)
  | [] => .error .truncated

/-- A 16-bit operand, low byte first. -/
def takeHalf : Bytes → Except Reject (Half × Bytes)
  | l :: h :: rest => .ok (half l h, rest)
  | _ => .error .truncated

/-- Exactly `n` bytes. -/
def takeN : Nat → Bytes → Except Reject (Bytes × Bytes)
  | 0, bs => .ok ([], bs)
  | _ + 1, [] => .error .truncated
  | n + 1, b :: bs =>
    match takeN n bs with
    | .ok (s, rest) => .ok (b :: s, rest)
    | .error e => .error e

/-- A byte-string operand: "a 16-bit length `n` followed by exactly `n` bytes" (R90). -/
def takeStr (bs : Bytes) : Except Reject (Bytes × Bytes) := do
  let (n, bs) ← takeHalf bs
  takeN n.toNat bs

/-- `n` entries of a label table: offset and label, each 16-bit (R93). -/
def takeLabels : Nat → Bytes → Except Reject (List (Half × Half) × Bytes)
  | 0, bs => .ok ([], bs)
  | n + 1, bs =>
    match takeHalf bs with
    | .error e => .error e
    | .ok (o, bs) =>
      match takeHalf bs with
      | .error e => .error e
      | .ok (l, bs) =>
        match takeLabels n bs with
        | .error e => .error e
        | .ok (ls, rest) => .ok ((o, l) :: ls, rest)

/-- The descriptor block: nine offsets in the order of R93, `K`, then `K` entries in strictly increasing order. -/
def takeDesc (bs : Bytes) : Except Reject (Desc × Bytes) := do
  let (offTfmt, bs) ← takeHalf bs
  let (offTarget, bs) ← takeHalf bs
  let (offFrost, bs) ← takeHalf bs
  let (offSensel, bs) ← takeHalf bs
  let (offRunmode, bs) ← takeHalf bs
  let (offHeat, bs) ← takeHalf bs
  let (pairBuiltin, bs) ← takeHalf bs
  let (pairRemote, bs) ← takeHalf bs
  let (pairFloor, bs) ← takeHalf bs
  let (k, bs) ← takeHalf bs
  let (labels, bs) ← takeLabels k.toNat bs
  if labelsIncreasing labels then
    pure ({ offTfmt, offTarget, offFrost, offSensel, offRunmode, offHeat, pairBuiltin, pairRemote, pairFloor,
            labels }, bs)
  else throw .labelsNotIncreasing

/-- The `exp_function` byte (R92). -/
def takeFunc (bs : Bytes) : Except Reject (Func × Bytes) := do
  let (b, bs) ← takeByte bs
  match func? b with
  | some f => pure (f, bs)
  | none => throw .badFunction

/-- The operands `DESC`, `dcb` that eight RM commands share (R91). -/
def takeDescDcb (mk : Desc → Bytes → Instr) (bs : Bytes) : Except Reject (Instr × Bytes) := do
  let (d, bs) ← takeDesc bs
  let (s, bs) ← takeStr bs
  pure (mk d s, bs)

/-! ### Command descriptors -/

/-- The operands of the opcode `op`, by the opcode map of R91; the bytes after the descriptor are handed back. -/
def decodeOperands (op : Byte) (bs : Bytes) : Except Reject (Instr × Bytes) :=
  match op.toNat with
  | 0x01 => do let (data, bs) ← takeStr bs; pure (.crcCompute data, bs)
  | 0x10 => do
    let (dest, bs) ← takeByte bs
    let (source, bs) ← takeByte bs
    let (start, bs) ← takeHalf bs
    pure (.encRead dest source start, bs)
  | 0x11 => do
    let (dest, bs) ← takeByte bs
    let (source, bs) ← takeByte bs
    let (start, bs) ← takeHalf bs
    let (payload, bs) ← takeStr bs
    pure (.encWrite dest source start payload, bs)
  | 0x18 => do
    let (expDest, bs) ← takeByte bs
    let (expSource, bs) ← takeByte bs
    let (fn, bs) ← takeFunc bs
    let (raw, bs) ← takeStr bs
    pure (.decVerify expDest expSource fn raw, bs)
  | 0x20 => takeDescDcb .rmDecode bs
  | 0x21 => do
    let (offset, bs) ← takeHalf bs
    let (dcb, bs) ← takeStr bs
    pure (.rmRaw offset dcb, bs)
  | 0x22 => takeDescDcb .rmTfmt bs
  | 0x23 => takeDescDcb .rmTarget bs
  | 0x24 => takeDescDcb .rmFrost bs
  | 0x25 => takeDescDcb .rmSensel bs
  | 0x26 => takeDescDcb .rmCurtemp bs
  | 0x27 => takeDescDcb .rmRunmode bs
  | 0x28 => takeDescDcb .rmHeat bs
  | 0x30 => do let (address, bs) ← takeByte bs; pure (.laRegister address, bs)
  | 0x31 => do
    let (address, bs) ← takeByte bs
    let (frame, bs) ← takeStr bs
    pure (.laExchange address frame, bs)
  | _ => .error (.reservedOpcode op)

/-- A descriptor at the front of the bytes (R95: "byte 0, then the fixed operands, then each length field in turn"). -/
def decodePrefix : Bytes → Except Reject (Instr × Bytes)
  | [] => .error .empty
  | op :: bs => decodeOperands op bs

/-- A descriptor: "the bytes presented must be exactly that many" (R90). -/
def decode (bs : Bytes) : Except Reject Instr :=
  match decodePrefix bs with
  | .ok (i, []) => .ok i
  | .ok (_, _ :: _) => .error .surplus
  | .error e => .error e

/-! ### Wire frames (R83) -/

/-- The payload of a frame with the nine-byte header: what stands between the header and the trailer. -/
def framePayload (raw : Bytes) : Bytes := (raw.drop 9).take (raw.length - 11)

/-- A request frame: RQ.READ has length 11 and the count sentinel, RQ.WRITE has length `11 + n` and count `n`; the
trailer is right in both. `dest` and `source` may be any byte (R84, R143). -/
def decodeRequest (lut : Lut) (raw : Bytes) : Except Reject Instr :=
  match raw with
  | d :: l0 :: l1 :: src :: fn :: s0 :: s1 :: c0 :: c1 :: _ :: _ :: _ =>
    if crcCheck lut raw && u16 l0 l1 == raw.length then
      match func? fn with
      | some .read => if raw.length == 11 && u16 c0 c1 == 0xFFFF then .ok (.rqRead d src (half s0 s1)) else .error .notAFrame
      | some .write =>
        if u16 c0 c1 == raw.length - 11 then .ok (.rqWrite d src (half s0 s1) (framePayload raw)) else .error .notAFrame
      | none => .error .notAFrame
    else .error .notAFrame
  | _ => .error .notAFrame

/-- A reply frame: legal destination and source (R53), the trailer right, the declared length the real one; RP.WRITE
is the seven-byte acknowledgment, RP.READ has the nine-byte header. -/
def decodeReply (lut : Lut) (raw : Bytes) : Except Reject Instr :=
  match raw with
  | d :: l0 :: l1 :: src :: fn :: b5 :: b6 :: rest =>
    if crcCheck lut raw && u16 l0 l1 == raw.length && replyDestOk d && replySourceOk src then
      match func? fn, rest with
      | some .write, [] => .ok (.rpWrite d src)
      | some .read, b7 :: b8 :: _ :: _ :: _ => .ok (.rpRead d src b5 b6 b7 b8 (framePayload raw))
      | _, _ => .error .notAFrame
    else .error .notAFrame
  | _ => .error .notAFrame

/-- The instruction that bytes at a port are. -/
def decodeAt (lut : Lut) (p : Port) (bs : Bytes) : Except Reject Instr :=
  match p with
  | .command => decode bs
  | .request => decodeRequest lut bs
  | .reply => decodeReply lut bs

/-! ### The encoder -/

/-- A byte-string operand (R90). -/
def encStr (s : Bytes) : Bytes := le16 s.length ++ s

/-- A 16-bit operand, low byte first (R90). -/
def encHalf (v : Half) : Bytes := le16 v.toNat

/-- The label table (R93). -/
def encLabels : List (Half × Half) → Bytes
  | [] => []
  | (o, l) :: rest => encHalf o ++ encHalf l ++ encLabels rest

/-- The descriptor block (R93). -/
def encDesc (d : Desc) : Bytes :=
  encHalf d.offTfmt ++ encHalf d.offTarget ++ encHalf d.offFrost ++ encHalf d.offSensel ++ encHalf d.offRunmode ++
    encHalf d.offHeat ++ encHalf d.pairBuiltin ++ encHalf d.pairRemote ++ encHalf d.pairFloor ++
    le16 d.labels.length ++ encLabels d.labels

/-- The bytes of an instruction at its port; the trailers of the frames are made with the tables `lut`. -/
def encodeAt (lut : Lut) : Instr → Bytes
  | .crcCompute data => 0x01 :: encStr data
  | .encRead dest source start => 0x10 :: dest :: source :: encHalf start
  | .encWrite dest source start payload => 0x11 :: dest :: source :: (encHalf start ++ encStr payload)
  | .decVerify expDest expSource fn raw => 0x18 :: expDest :: expSource :: fn.code :: encStr raw
  | .rmDecode desc dcb => 0x20 :: (encDesc desc ++ encStr dcb)
  | .rmRaw offset dcb => 0x21 :: (encHalf offset ++ encStr dcb)
  | .rmTfmt desc dcb => 0x22 :: (encDesc desc ++ encStr dcb)
  | .rmTarget desc dcb => 0x23 :: (encDesc desc ++ encStr dcb)
  | .rmFrost desc dcb => 0x24 :: (encDesc desc ++ encStr dcb)
  | .rmSensel desc dcb => 0x25 :: (encDesc desc ++ encStr dcb)
  | .rmCurtemp desc dcb => 0x26 :: (encDesc desc ++ encStr dcb)
  | .rmRunmode desc dcb => 0x27 :: (encDesc desc ++ encStr dcb)
  | .rmHeat desc dcb => 0x28 :: (encDesc desc ++ encStr dcb)
  | .laRegister address => [0x30, address]
  | .laExchange address frame => 0x31 :: address :: encStr frame
  | .rqRead dest source start => readRequest lut dest source start
  | .rqWrite dest source start payload => writeRequest lut dest source start payload
  | .rpRead dest source b5 b6 b7 b8 payload => readReply lut dest source b5 b6 b7 b8 payload
  | .rpWrite dest source => writeReply lut dest source

/-- The bytes of an instruction with the tables of R122. -/
def encode (i : Instr) : Bytes := encodeAt Config.ccittLut i

/-! ### The opcode table's numbering of bits -/

/-- The bytes of a number, the least significant byte first. -/
def wordBytes : Nat → Nat → Bytes
  | 0, _ => []
  | n + 1, w => lo8 w :: wordBytes n (w / 256)

/-- The length of the longest descriptor: opcode, `DESC` with 65535 labels, a byte string of 65535 bytes. -/
def maxDescriptor : Nat := 1 + (20 + 4 * 65535) + (2 + 65535)

/-- The instruction whose bits are `w`, `nbits` of them (in whole bytes), every later bit zero. A number that holds a
whole wire frame, right trailer included, is that frame (log entry 10); else the number is a command descriptor. -/
def decodeTableWord (nbits w : Nat) : Option Instr :=
  let given := wordBytes ((nbits + 7) / 8) w
  match decodeReply Config.ccittLut given with
  | .ok i => some i
  | .error _ =>
    match decodeRequest Config.ccittLut given with
    | .ok i => some i
    | .error _ =>
      match decodePrefix (given ++ List.replicate maxDescriptor 0) with
      | .ok (i, _) => if given.length ≤ (encode i).length then some i else none
      | .error _ => none

end Sys2Proof
end

