-- ==== Sys2Proof/Machine/State.lean ====
section
/-! DEFINITION. The state of one HMPE instance (spec/10_state.md R20), the host state its rules mention (R34 to R36),
the error kinds (spec/60_exceptions.md R250), the results of commands (spec/30_encoding.md R94), and the reset state
(R38). Every structure is plain data. -/

namespace Sys2Proof.Machine

/-- The error kinds of R250; the codes and classes are in Machine/Flags.lean. -/
inductive ErrKind where
  | ioTimeout
  | tooShort
  | badChecksum
  | illegalDestination
  | destinationMismatch
  | sourceOutOfRange
  | sourceMismatch
  | unknownFunction
  | unexpectedFunction
  | writeLengthMismatch
  | lengthMismatch
  /-- raised by the host only (R235, R237) -/
  | outOfRange
  | duplicateAddressError
  /-- raised by the host only (R236) -/
  | invalidMode
  | ioError
  | illegalCommand
  | addrOutOfRange
  | notRegistered
  | fieldAbsent
  | payloadTooLong
  | busy
  deriving DecidableEq, Repr

/-- The retry classes of R253. -/
inductive ErrClass where
  | transient
  | fatal
  | callerInput
  | configuration
  deriving DecidableEq, Repr

/-- Which sensor pair the selection code names (R177). -/
inductive Sensor where
  | builtin
  | remote
  | floor
  deriving DecidableEq, Repr

/-- The decoded run mode (R179); `undefined` is "neither of the two". -/
inductive RunState where
  | normal
  | frost
  | undefined
  deriving DecidableEq, Repr

/-- What a command returns with `OK` (R94). -/
inductive Result where
  /-- LA.REGISTER: nothing -/
  | nothing
  /-- CRC.COMPUTE -/
  | crc (low high : Byte)
  /-- ENC.READ, ENC.WRITE, DEC.VERIFY, LA.EXCHANGE: a byte string -/
  | bytes (s : Bytes)
  /-- RM.DECODE: offset, label, raw value -/
  | entries (es : List (Half × Half × Byte))
  /-- RM.RAW, RM.TFMT, RM.TARGET, RM.FROST -/
  | value (v : Byte)
  /-- RM.SENSEL -/
  | sensel (code : Byte) (which : Sensor) (pair : Half)
  /-- RM.CURTEMP -/
  | curtemp (t10 whole : Half) (tenth : Byte)
  /-- RM.RUNMODE -/
  | runmode (value : Byte) (state : RunState)
  /-- RM.HEAT -/
  | heat (value : Byte) (heating : Bool)
  deriving DecidableEq, Repr

/-- The request slot `REQ[a]` (R30). -/
inductive Slot where
  | idle
  | pending (frame : Bytes)
  | active (frame : Bytes)
  deriving DecidableEq, Repr

/-- The transport events of `HIST` (R35). -/
inductive Event where
  /-- `W(a, bytes)`: address a's frame handed to `TxWrite` -/
  | wrote (a : BusAddr) (frame : Bytes)
  /-- `R(a, bytes)`: the string `RxRead` returned to address a's exchange -/
  | read (a : BusAddr) (bytes : Bytes)
  deriving DecidableEq, Repr

/-- What `TxWrite` returns (R203). -/
inductive TxResult where
  | ok
  | ioError
  deriving DecidableEq, Repr

/-! ### Host state (R36, R230 to R240) -/

/-- The operations of the thermostat client, the pseudo-instructions of R98. -/
inductive HostCall where
  /-- R231 -/
  | construct (addr : Byte) (desc : Desc)
  /-- R232 -/
  | readAll
  /-- R234 -/
  | refresh
  /-- the getters of R233 -/
  | getTemperatureFormat
  | getTargetTemperature
  | getFrostTemperature
  | getSensorSelection
  | getCurrentTemperature
  | getRunMode
  | getHeatState
  | getRaw (offset : Half)
  /-- R235 -/
  | setTargetTemperature (value : Byte)
  /-- R236 -/
  | setRunMode (mode : Byte)
  /-- R237 -/
  | setFrostProtectTemperature (value : Byte)
  deriving DecidableEq, Repr

/-- What a host call does with the response it waits for (the lines of the expansions of R231 to R238). -/
inductive Stage where
  /-- the response of LA.REGISTER; on `OK` the client has this identity (R231) -/
  | registered (addr : Byte) (desc : Desc)
  /-- the response of the encoder; on `OK` its frame goes into LA.EXCHANGE -/
  | encoded (fn : Func)
  /-- the response of LA.EXCHANGE; on `OK` the raw reply goes into DEC.VERIFY -/
  | exchanged (fn : Func)
  /-- the response of DEC.VERIFY; on `OK` a read stores the snapshot, a write is done (R232, R238) -/
  | verified (fn : Func)
  /-- the response that ends the call -/
  | last
  deriving DecidableEq, Repr

/-- A host call in progress: the call, its stage, and how often it may still be repeated (R239). -/
structure Running where
  call : HostCall
  stage : Stage
  budget : Nat
  deriving DecidableEq, Repr

/-- What a client issues next (R25): a command descriptor, a request frame, or a host call with the number of
retries the host is willing to make (R239, log entry 15). -/
inductive Request where
  | command (descriptor : Bytes)
  | frame (raw : Bytes)
  | call (c : HostCall) (retries : Nat)
  deriving DecidableEq, Repr

/-- Whether a client may step (R218); `lost`: a reset dropped its request and no response will come (R291). -/
inductive ClientStatus where
  | ready
  | blocked (a : BusAddr)
  | lost
  deriving DecidableEq, Repr

/-- "bus address (1..32) plus a device-configuration descriptor" (R16, R36). -/
structure Identity where
  addr : Byte
  desc : Desc
  deriving DecidableEq, Repr

/-- A client and the host state it owns (R25, R36). -/
structure Client where
  status : ClientStatus
  /-- what it will issue, in order (R25) -/
  prog : List Request
  /-- what it issues over and over once `prog` is used up: a client that posts "without end" (R219, log entry 7) -/
  again : List Request
  /-- the responses it has received, oldest first (R94) -/
  mail : List Bytes
  /-- its bus address and descriptor, none before `construct` succeeded (R231) -/
  ident : Option Identity
  /-- its snapshot, none before the first successful full read (R36) -/
  snap : Option Bytes
  running : Option Running
  /-- the outcomes of finished host calls, oldest first, in the form of R94 -/
  done : List Bytes
  deriving DecidableEq, Repr

/-- What a client still issues: the rest of its program, or the next round of what it repeats. -/
def Client.upcoming (c : Client) : List Request :=
  match c.prog with
  | [] => c.again
  | q :: rest => q :: rest

/-! ### The environment (the model's own, log entries 1 and 2) -/

/-- Who moves (R201), or what happens from outside. -/
inductive Turn where
  /-- client `k` takes its next step -/
  | client (k : Nat)
  /-- the arbiter grants the link to `a` (R210) -/
  | grant (a : BusAddr)
  /-- the arbiter completes the exchange in flight (R212) -/
  | complete
  /-- a reset (R290) -/
  | reset
  /-- bytes arrive on the transport (R34) -/
  | arrive (raw : Bytes)
  /-- the host drains the transport (R296) -/
  | drain
  /-- the host uses the transport outside LA.EXCHANGE (R295) -/
  | hostTransport
  deriving DecidableEq, Repr

/-- Who moves next and what the transport answers, as far as it is settled; `seq` numbers the free values. -/
structure Env where
  turns : List Turn
  /-- the turns taken over and over once `turns` is used up: a settled schedule without end (log entry 1) -/
  cycle : List Turn
  /-- how many steps in a row, after a first one, the arbiter may leave an enabled step of its own untaken; constant, any
  number (R70, R219, log entry 22) -/
  patience : Nat
  /-- how many steps in a row it has done so -/
  idle : Nat
  tx : List TxResult
  rx : List Bytes
  seq : Nat
  deriving DecidableEq, Repr

/-- The settled turns: those listed, or the next round of those repeated; none where who moves is open. -/
def Env.upcoming (e : Env) : List Turn :=
  match e.turns with
  | [] => e.cycle
  | t :: rest => t :: rest

/-! ### The state -/

/-- The state of R20 (`ce` to `params`), with `HIST` (R35); then the host's clients and the model's own fields. -/
structure State where
  /-- `HI`, `LO`, `T` (R21) -/
  ce : Ce
  /-- `LUT_H`, `LUT_L` (R23) -/
  lut : Lut
  /-- `REGV` (R27) -/
  regv : Vector Bool 32
  /-- `LOCK` (R28) -/
  lock : Bool
  /-- `OWNER` (R29) -/
  owner : BusAddr
  /-- `REQ` (R30) -/
  req : Vector Slot 32
  /-- the parameters (R9, R32) -/
  params : Params
  /-- `HIST` (R35), oldest first -/
  hist : List Event
  /-- the pending addresses in post order, for `fifo` (R211, log entry 13) -/
  order : List BusAddr
  /-- whose command occupies a slot, so that "the response goes to the client that issued the command" (R259) -/
  issuer : Vector (Option Nat) 32
  clients : List Client
  /-- the client whose command runs now (log entry 7) -/
  cur : Nat
  env : Env
  deriving DecidableEq, Repr

/-- The machine has no fault: "Nothing else signals an error" than the response of a command (R251), and every step
ends in a next state or in one of the refusals below. -/
inductive Fault where
  deriving DecidableEq, Repr

/-- Why a step has no meaning. -/
inductive Refusal where
  /-- Raised by an arm of `exec` for an instruction that has no meaning yet. Safe. -/
  | notModelled (mnemonic : String)
  /-- Raised by the turns `hostTransport` and `drain` (with an exchange outstanding): the host uses the transport by
  another path than LA.EXCHANGE, "and no rule of this spec then holds for any exchange" (R295, U17). Safe. -/
  | transportOutsideExchange
  /-- Raised by a getter call of a client that has no snapshot: "the host sequence has no meaning" (R240, U15). Safe. -/
  | getterBeforeFirstRead
  /-- Raised by a host call other than `construct` of a client that has no identity: such a client "must not be used"
  (R231, R293). Safe. -/
  | clientNotConstructed
  deriving DecidableEq, Repr

/-- The outcome of a step. -/
abbrev Out := Host.Outcome State Fault Refusal

/-- The values of R38. `HI`, `LO`, `T`, `OWNER` and the parameters have no reset value in the spec: DESIGN CHOICE
(log entries 3, 4, 5). No client exists yet (log entry 7). -/
def State.reset : State where
  ce := { hi := Config.crcSeed, lo := Config.crcSeed, t := 0 }
  lut := Config.ccittLut
  regv := .replicate 32 false
  lock := false
  owner := 0
  req := .replicate 32 .idle
  params := Config.resetParams
  hist := []
  order := []
  issuer := .replicate 32 none
  clients := []
  cur := 0
  env := { turns := [], cycle := [], patience := 1000, idle := 0, tx := [], rx := [], seq := 0 }

end Sys2Proof.Machine
end

