-- ==== Sys2Proof/Machine/Flags.lean ====
section
/-! DEFINITION. There is no flag register (spec/10_state.md R26): "The only condition a command produces is the status
of its own response". Here are the status codes and retry classes (spec/60_exceptions.md R250, R253) and the bytes of
a response (spec/30_encoding.md R94). -/

namespace Sys2Proof.Machine

/-- The status code of an error kind (R250). -/
def ErrKind.code : ErrKind → Byte
  | .ioTimeout => 0x01
  | .tooShort => 0x02
  | .badChecksum => 0x03
  | .illegalDestination => 0x04
  | .destinationMismatch => 0x05
  | .sourceOutOfRange => 0x06
  | .sourceMismatch => 0x07
  | .unknownFunction => 0x08
  | .unexpectedFunction => 0x09
  | .writeLengthMismatch => 0x0A
  | .lengthMismatch => 0x0B
  | .outOfRange => 0x0C
  | .duplicateAddressError => 0x0D
  | .invalidMode => 0x0E
  | .ioError => 0x0F
  | .illegalCommand => 0x80
  | .addrOutOfRange => 0x81
  | .notRegistered => 0x82
  | .fieldAbsent => 0x83
  | .payloadTooLong => 0x84
  | .busy => 0x85

/-- The status code of success (R250). -/
def okCode : Byte := 0x00

/-- The retry class of an error kind (R250, R253). -/
def ErrKind.cls : ErrKind → ErrClass
  | .ioTimeout => .transient
  | .tooShort => .transient
  | .badChecksum => .transient
  | .illegalDestination => .fatal
  | .destinationMismatch => .fatal
  | .sourceOutOfRange => .fatal
  | .sourceMismatch => .fatal
  | .unknownFunction => .fatal
  | .unexpectedFunction => .fatal
  | .writeLengthMismatch => .transient
  | .lengthMismatch => .transient
  | .outOfRange => .callerInput
  | .duplicateAddressError => .configuration
  | .invalidMode => .callerInput
  | .ioError => .transient
  | .illegalCommand => .callerInput
  | .addrOutOfRange => .configuration
  | .notRegistered => .configuration
  | .fieldAbsent => .fatal
  | .payloadTooLong => .callerInput
  | .busy => .configuration

/-- Every error kind, in the order of R250's table. -/
def ErrKind.all : List ErrKind :=
  [.ioTimeout, .tooShort, .badChecksum, .illegalDestination, .destinationMismatch, .sourceOutOfRange, .sourceMismatch,
    .unknownFunction, .unexpectedFunction, .writeLengthMismatch, .lengthMismatch, .outOfRange, .duplicateAddressError,
    .invalidMode, .ioError, .illegalCommand, .addrOutOfRange, .notRegistered, .fieldAbsent, .payloadTooLong, .busy]

/-- The codes of the transient kinds, which a host may retry (R253): what the host reads in a response. -/
def transientCodes : List Byte := (ErrKind.all.filter fun k => k.cls == .transient).map ErrKind.code

/-- `which` of RM.SENSEL as a byte (R94). -/
def Sensor.code : Sensor → Byte
  | .builtin => 0
  | .remote => 1
  | .floor => 2

/-- `state` of RM.RUNMODE as a byte (R94). -/
def RunState.code : RunState → Byte
  | .normal => 0
  | .frost => 1
  | .undefined => 0xFF

/-- An entry of RM.DECODE's result (R94): offset and label 16-bit, raw value byte. -/
def entryBytes (e : Half × Half × Byte) : Bytes := encHalf e.1 ++ encHalf e.2.1 ++ [e.2.2]

/-- The result bytes after the status byte (R94). -/
def Result.encode : Result → Bytes
  | .nothing => []
  | .crc low high => [low, high]
  | .bytes s => encStr s
  | .entries es => le16 es.length ++ es.flatMap entryBytes
  | .value v => [v]
  | .sensel code which pair => code :: which.code :: encHalf pair
  | .curtemp t10 whole tenth => encHalf t10 ++ encHalf whole ++ [tenth]
  | .runmode v st => [v, st.code]
  | .heat v heating => [v, if heating then 1 else 0]

/-- A response with `OK` (R94). -/
def okBytes (r : Result) : Bytes := okCode :: r.encode

/-- A response with an error kind: "the response is that one byte" (R94). -/
def errBytes (k : ErrKind) : Bytes := [k.code]

end Sys2Proof.Machine
end

