-- ==== Sys2Proof/Machine/Ops.lean ====
section
/-! DEFINITION. The named operations over the state: one update per field, delivering a response, raising an error
kind (spec/60_exceptions.md R250 to R256), the transport primitives (spec/43_link_arbiter.md R203, R204), and the three
steps of LA.EXCHANGE (R208, R210, R212). -/

namespace Sys2Proof.Machine

namespace State

/-! ### Field updates -/

def setCe (s : State) (c : Ce) : State := { s with ce := c }
def setSlot (s : State) (a : BusAddr) (v : Slot) : State := { s with req := s.req.set a v }
def setReg (s : State) (a : BusAddr) : State := { s with regv := s.regv.set a true }
def setLock (s : State) (b : Bool) : State := { s with lock := b }
def setOwner (s : State) (a : BusAddr) : State := { s with owner := a }
def setOrder (s : State) (o : List BusAddr) : State := { s with order := o }
def setIssuer (s : State) (a : BusAddr) (o : Option Nat) : State := { s with issuer := s.issuer.set a o }
def setCur (s : State) (k : Nat) : State := { s with cur := k }
def setEnv (s : State) (e : Env) : State := { s with env := e }

/-- `HIST <- HIST ++ [e]` (R210, R212). -/
def pushHist (s : State) (e : Event) : State := { s with hist := s.hist ++ [e] }

/-- Changes client `k`, if there is one. -/
def onClient (s : State) (k : Nat) (f : Client → Client) : State := { s with clients := s.clients.modify k f }

/-! ### Responses -/

/-- Hands a response to client `k` (R259: "the response goes to the client that issued the command, always"). -/
def mailTo (s : State) (k : Nat) (r : Bytes) : State := s.onClient k fun c => { c with mail := c.mail ++ [r] }

/-- The running command ends with a response to its client (R251: "exactly one outcome"). -/
def respond (s : State) (r : Bytes) : State := s.mailTo s.cur r

/-- The running command ends with `OK` and a result (R94). -/
def finish (s : State) (r : Result) : State := s.respond (okBytes r)

/-- Raising an error kind, the one way a command fails: its response is the one status byte, and nothing else of the
state changes; "No mode changes, nothing is masked, nothing is pushed, control goes nowhere" (R250, R255). There is no
return from it (R256). -/
def raise (s : State) (k : ErrKind) : State := s.respond (errBytes k)

/-- The end of a command whose unit computed a result or an error kind. -/
def answer (s : State) : Except ErrKind Result → State
  | .ok r => s.finish r
  | .error k => s.raise k

/-! ### The transport (R203, R204; log entry 2) -/

/-- `TxWrite`: the next settled answer, or the free value. -/
def txWrite (s : State) : TxResult × State :=
  match s.env.tx with
  | r :: rest => (r, s.setEnv { s.env with tx := rest })
  | [] => (if Config.freeTx s.env.seq then .ok else .ioError, s.setEnv { s.env with seq := s.env.seq + 1 })

/-- What stays for later reads when a read has returned the first `n` bytes of `r` (R296: the bytes not returned "stay in
the transport and are returned by the *next* exchange's read, in front of or instead of its own reply"). DESIGN CHOICE
(log entry 2): they are an entry of their own, so the next read returns them alone, never joined to what stands behind. -/
def residue (n : Nat) (r : Bytes) (rest : List Bytes) : List Bytes :=
  if r.length ≤ n then rest else r.drop n :: rest

/-- `RxRead(MAX_FRAME)`: a byte string of at most `MAX_FRAME` bytes, the next settled answer or the free value. -/
def rxRead (s : State) : Bytes × State :=
  match s.env.rx with
  | r :: rest =>
    (r.take s.params.maxFrame.val, s.setEnv { s.env with rx := residue s.params.maxFrame.val r rest })
  | [] => ((Config.freeRx s.env.seq).take s.params.maxFrame.val, s.setEnv { s.env with seq := s.env.seq + 1 })

/-- Bytes reach the transport; a later read returns them (R34, R296). DESIGN CHOICE (log entries 2 and 9): they are an
entry of their own behind what is there, returned by a read of their own, never joined to bytes already there. -/
def arrived (s : State) (raw : Bytes) : State := s.setEnv { s.env with rx := s.env.rx ++ [raw] }

/-! ### The steps of LA.EXCHANGE -/

/-- A successful post (R208): `REQ[address] <- PENDING(frame)`, and the client is blocked until the response. -/
def placed (s : State) (a : BusAddr) (frame : Bytes) : State :=
  (((s.setSlot a (.pending frame)).setOrder (s.order ++ [a])).setIssuer a (some s.cur)).onClient s.cur
    fun c => { c with status := .blocked a }

/-- The post step (R208): the three refusals in their order, else the slot is taken. -/
def post (s : State) (address : Byte) (frame : Bytes) : State :=
  match busAddr? address with
  | none => s.raise .addrOutOfRange
  | some a =>
    if s.regv[a] then
      match s.req[a] with
      | .idle => s.placed a frame
      | .pending _ => s.raise .busy
      | .active _ => s.raise .busy
    else s.raise .notRegistered

/-- The end of address a's exchange: its slot is idle, the link is free (R210, R212). -/
def freed (s : State) (a : BusAddr) : State := (s.setSlot a .idle).setLock false

/-- Hands the response of a's command to the client that waits for it, which may then step again (R218, R259). -/
def release (s : State) (a : BusAddr) (r : Bytes) : State :=
  match s.issuer[a] with
  | none => s
  | some k => (s.setIssuer a none).onClient k fun c => { c with status := .ready, mail := c.mail ++ [r] }

/-- The frame a slot holds. -/
def slotFrame : Slot → Option Bytes
  | .idle => none
  | .pending f => some f
  | .active f => some f

/-- A slot that waits for the link (R30). -/
def isPending : Slot → Bool
  | .pending _ => true
  | .idle => false
  | .active _ => false

/-- A slot whose exchange is in flight (R30). -/
def isActive : Slot → Bool
  | .active _ => true
  | .idle => false
  | .pending _ => false

/-- May the arbiter grant the link to `a` now? `LOCK = 0` and `REQ[a]` pending (R210), and under `fifo` `a` is the one
that has been pending longest (R211). -/
def grantable (s : State) (a : BusAddr) : Bool :=
  !s.lock && isPending s.req[a] &&
    match s.params.arbPolicy with
    | .any => true
    | .fifo => s.order.head? == some a

/-- The grant step for the pending `a` with its frame (R210, R214). -/
def grantFrame (s : State) (a : BusAddr) (frame : Bytes) : State :=
  let s := (((s.setLock true).setOwner a).setOrder (s.order.erase a)).pushHist (.wrote a frame)
  match s.txWrite with
  | (.ok, s) => s.setSlot a (.active frame)
  | (.ioError, s) => (s.freed a).release a (errBytes .ioError)

/-- The grant step (R210); where it is not enabled nothing happens. -/
def grant (s : State) (a : BusAddr) : State :=
  if s.grantable a then
    match slotFrame s.req[a] with
    | some frame => s.grantFrame a frame
    | none => s
  else s

/-- The response of the complete step (R212, R213): `IoTimeout` exactly when the one read returned no bytes. -/
def exchangeResponse (r : Bytes) : Bytes :=
  match r with
  | [] => errBytes .ioTimeout
  | _ :: _ => okBytes (.bytes r)

/-- The complete step (R212), one read whatever it returns; where it is not enabled nothing happens. -/
def complete (s : State) : State :=
  if s.lock then
    let a := s.owner
    let (r, s) := s.rxRead
    ((s.pushHist (.read a r)).freed a).release a (exchangeResponse r)
  else s

/-! ### Reset and the other acts from outside -/

/-- What a reset does to a client: a pending or active request is dropped without a response (R291), the rest is host
state and stays (R292). -/
def dropRequest (c : Client) : Client :=
  match c.status with
  | .ready => c
  | .blocked _ => { c with status := .lost }
  | .lost => c

/-- The reset event (R290 to R292): the values of R38; tables, parameters and host state are not affected, and the
transport is not drained. -/
def resetEvent (s : State) : State :=
  { State.reset with
    lut := s.lut, params := s.params, clients := s.clients.map dropRequest, cur := s.cur, env := s.env }

/-- No LA.EXCHANGE is outstanding for any address (R30). -/
def quiet (s : State) : Bool := s.req.toList.all fun v => v == .idle

end State

end Sys2Proof.Machine
end

