-- ==== Sys2Proof/Machine/ChecksumEngine.lean ====
section
/-! DEFINITION. CRC.COMPUTE, spec/40_checksum_engine.md R125. -/

namespace Sys2Proof.Machine

/-- CRC.COMPUTE (R125): `return crc16(data)`; it writes the working registers only. -/
def execCrcCompute (data : Bytes) (s : State) : Out :=
  let ce := crcRun s.lut s.ce data
  .next ((s.setCe ce).finish (.crc ce.lo ce.hi))

end Sys2Proof.Machine
end

