-- ==== Sys2Proof/Machine/FrameCodec.lean ====
section
/-! DEFINITION. The Frame Codec: ENC.READ, ENC.WRITE, DEC.VERIFY (spec/41_frame_codec.md R141 to R164), and what the
four wire frames do when they are met on the link (spec/30_encoding.md R83, log entry 9). -/

namespace Sys2Proof.Machine

/-- `crc_append` as a command runs it: the working registers hold the checksum of `body`, and the trailer is read
from them (R126, spec/10_state.md R20: "every command that calls `crc16`"). -/
def sealFrame (s : State) (body : Bytes) : State :=
  let ce := crcRun s.lut s.ce body
  (s.setCe ce).finish (.bytes (body ++ [ce.lo, ce.hi]))

/-- ENC.READ (R141). -/
def execEncRead (dest source : Byte) (start : Half) (s : State) : Out :=
  .next (sealFrame s (requestHeader dest source .read 11 start.toNat 0xFFFF))

/-- ENC.WRITE (R142): `PayloadTooLong` before anything is built, else the frame of `11 + n` bytes. -/
def execEncWrite (dest source : Byte) (start : Half) (payload : Bytes) (s : State) : Out :=
  if payload.length > s.params.maxFrame.val - 11 then .next (s.raise .payloadTooLong)
  else
    .next (sealFrame s (requestHeader dest source .write (11 + payload.length) start.toNat payload.length ++ payload))

/-- Step 5 onward (R155 to R160), for the function byte `fn`, the declared length and the received length. -/
def verifyFunction (fn : Byte) (expFunction : Func) (declared : Nat) (raw : Bytes) : Except ErrKind Result :=
  match func? fn with
  | none => .error .unknownFunction
  | some f =>
    if f ≠ expFunction then .error .unexpectedFunction
    else if f = .write ∧ declared ≠ Config.ackLen then .error .writeLengthMismatch
    else if declared ≠ raw.length then .error .lengthMismatch
    else .ok (.bytes (framePayload raw))

/-- Step 4 onward (R154, R162), for the bytes from index 3 on. -/
def verifySource (afterLength : Bytes) (expSource : Byte) (expFunction : Func) (declared : Nat) (raw : Bytes) :
    Except ErrKind Result :=
  match afterLength with
  | [] => .error .tooShort
  | src :: rest =>
    if src.toNat < 1 ∨ 32 < src.toNat then .error .sourceOutOfRange
    else if src ≠ expSource then .error .sourceMismatch
    else
      match rest with
      | [] => .error .tooShort
      | fn :: _ => verifyFunction fn expFunction declared raw

/-- DEC.VERIFY's checks in the order of R150 and R158; `sumOk` is step 2's answer. -/
def verifyFrame (sumOk : Bool) (expDest expSource : Byte) (expFunction : Func) (raw : Bytes) : Except ErrKind Result :=
  match raw with
  | d :: l0 :: l1 :: afterLength =>
    if !sumOk then .error .badChecksum
    else if d ∉ Config.masterCodes then .error .illegalDestination
    else if d ≠ expDest then .error .destinationMismatch
    else verifySource afterLength expSource expFunction (u16 l0 l1) raw
  | _ => .error .tooShort

/-- DEC.VERIFY (R150). Step 1 fails before the checksum is computed; else the working registers hold the checksum of
the covered bytes, and step 2 compares them with the trailer (R127, R152). -/
def execDecVerify (expDest expSource : Byte) (expFunction : Func) (raw : Bytes) (s : State) : Out :=
  if raw.length < 3 then .next (s.raise .tooShort)
  else
    let ce := crcRun s.lut s.ce (crcCovered raw)
    let sumOk := raw.drop (raw.length - 2) == [ce.lo, ce.hi]
    .next ((s.setCe ce).answer (verifyFrame sumOk expDest expSource expFunction raw))

/-- RQ.READ as a frame its host sends: it goes to the thermostat it is addressed to, through LA.EXCHANGE, "the sole
path to the transport" (R84, R200). DESIGN CHOICE (log entry 9). -/
def execRqRead (dest source : Byte) (start : Half) (s : State) : Out :=
  .next (s.post dest (readRequest s.lut dest source start))

/-- RQ.WRITE as a frame its host sends (R84, R200). DESIGN CHOICE (log entry 9). -/
def execRqWrite (dest source : Byte) (start : Half) (payload : Bytes) (s : State) : Out :=
  .next (s.post dest (writeRequest s.lut dest source start payload))

/-- RP.READ as a frame a thermostat sends: its bytes reach the transport and a later `RxRead` returns them (R34, R83).
DESIGN CHOICE (log entry 9). -/
def execRpRead (dest source b5 b6 b7 b8 : Byte) (payload : Bytes) (s : State) : Out :=
  .next (s.arrived (readReply s.lut dest source b5 b6 b7 b8 payload))

/-- RP.WRITE as a frame a thermostat sends (R34, R83, R161). DESIGN CHOICE (log entry 9). -/
def execRpWrite (dest source : Byte) (s : State) : Out :=
  .next (s.arrived (writeReply s.lut dest source))

end Sys2Proof.Machine
end

