-- ==== Sys2Proof/Machine/LinkArbiter.lean ====
section
/-! DEFINITION. The Link Arbiter's commands, spec/43_link_arbiter.md R205 and R207. The grant and complete steps of
LA.EXCHANGE are the arbiter's own (Machine/Ops.lean, Machine/Schedule.lean). -/

namespace Sys2Proof.Machine

/-- LA.REGISTER (R205): one atomic test and set of `REGV[address]`. -/
def execLaRegister (address : Byte) (s : State) : Out :=
  match busAddr? address with
  | none => .next (s.raise .addrOutOfRange)
  | some a =>
    if s.regv[a] then .next (s.raise .duplicateAddressError)
    else .next ((s.setReg a).finish .nothing)

/-- LA.EXCHANGE (R207), when its client issues it: the post step (R208). The response comes with the grant step
(`IoError`) or the complete step; the frame is not inspected (R216). -/
def execLaExchange (address : Byte) (frame : Bytes) (s : State) : Out := .next (s.post address frame)

end Sys2Proof.Machine
end

