-- ==== Sys2Proof/Machine/RegisterMap.lean ====
section
/-! DEFINITION. The Register Map decoder, spec/42_register_map.md R170 to R182. Every command is a pure function of its
operands; the state is touched by the response only. -/

namespace Sys2Proof.Machine

/-- A single-byte field: the byte at the offset, or `FieldAbsent` (R171). -/
def field (dcb : Bytes) (o : Half) : Except ErrKind Byte :=
  match dcbByte? dcb o with
  | some v => .ok v
  | none => .error .fieldAbsent

/-- The value commands' result (R173 to R176). -/
def fieldValue (dcb : Bytes) (o : Half) : Except ErrKind Result := (field dcb o).map .value

/-- The entries of RM.DECODE (R172): the labelled offsets that the snapshot reaches, in the table's order. -/
def decodeEntries (dcb : Bytes) : List (Half × Half) → List (Half × Half × Byte)
  | [] => []
  | (o, l) :: rest =>
    match dcbByte? dcb o with
    | some v => (o, l, v) :: decodeEntries dcb rest
    | none => decodeEntries dcb rest

/-- "value 0 or 3 ⇒ built-in air sensor pair; 1 or 4 ⇒ remote air sensor pair; anything else ⇒ floor sensor pair"
(R177). -/
def sensorOf (code : Byte) : Sensor :=
  if code = 0 ∨ code = 3 then .builtin
  else if code = 1 ∨ code = 4 then .remote
  else .floor

/-- The pair offset of a sensor (R177). -/
def pairOf (d : Desc) : Sensor → Half
  | .builtin => d.pairBuiltin
  | .remote => d.pairRemote
  | .floor => d.pairFloor

/-- RM.SENSEL's resolution (R177), which RM.CURTEMP makes fresh on every read (R181). -/
def resolveSensor (d : Desc) (dcb : Bytes) : Except ErrKind (Byte × Sensor × Half) :=
  (field dcb d.offSensel).map fun code => (code, sensorOf code, pairOf d (sensorOf code))

/-- `T10` and its decimal split (R178). -/
def temperature (t10 : Nat) : Result :=
  .curtemp (BitVec.ofNat 16 t10) (BitVec.ofNat 16 (t10 / 10)) (BitVec.ofNat 8 (t10 % 10))

/-- RM.CURTEMP's result (R178). -/
def currentTemperature (d : Desc) (dcb : Bytes) : Except ErrKind Result :=
  match resolveSensor d dcb with
  | .error k => .error k
  | .ok (_, _, p) =>
    match dcbPair? dcb p with
    | some t10 => .ok (temperature t10)
    | none => .error .fieldAbsent

/-- "1 = frost-protect ..., 0 = normal"; any other value is `UNDEFINED` (R179). -/
def runStateOf (v : Byte) : RunState := if v = 0 then .normal else if v = 1 then .frost else .undefined

/-- RM.DECODE (R172). -/
def execRmDecode (desc : Desc) (dcb : Bytes) (s : State) : Out :=
  .next (s.finish (.entries (decodeEntries dcb desc.labels)))

/-- RM.RAW (R173). -/
def execRmRaw (offset : Half) (dcb : Bytes) (s : State) : Out := .next (s.answer (fieldValue dcb offset))

/-- RM.TFMT (R174): the raw byte. -/
def execRmTfmt (desc : Desc) (dcb : Bytes) (s : State) : Out := .next (s.answer (fieldValue dcb desc.offTfmt))

/-- RM.TARGET (R175). -/
def execRmTarget (desc : Desc) (dcb : Bytes) (s : State) : Out := .next (s.answer (fieldValue dcb desc.offTarget))

/-- RM.FROST (R176). -/
def execRmFrost (desc : Desc) (dcb : Bytes) (s : State) : Out := .next (s.answer (fieldValue dcb desc.offFrost))

/-- RM.SENSEL (R177): it does not check that the pair is present. -/
def execRmSensel (desc : Desc) (dcb : Bytes) (s : State) : Out :=
  .next (s.answer ((resolveSensor desc dcb).map fun r => .sensel r.1 r.2.1 r.2.2))

/-- RM.CURTEMP (R178). -/
def execRmCurtemp (desc : Desc) (dcb : Bytes) (s : State) : Out := .next (s.answer (currentTemperature desc dcb))

/-- RM.RUNMODE (R179). -/
def execRmRunmode (desc : Desc) (dcb : Bytes) (s : State) : Out :=
  .next (s.answer ((field dcb desc.offRunmode).map fun v => .runmode v (runStateOf v)))

/-- RM.HEAT (R180): "nonzero = actively heating". -/
def execRmHeat (desc : Desc) (dcb : Bytes) (s : State) : Out :=
  .next (s.answer ((field dcb desc.offHeat).map fun v => .heat v (v != 0)))

end Sys2Proof.Machine
end

