-- ==== Sys2Proof/Machine/Dispatch.lean ====
section
/-! DEFINITION. One arm per row of spec/opcode_table.json: the meaning of each instruction. -/

namespace Sys2Proof.Machine

def exec (i : Instr) (s : State) : Host.Outcome State Fault Refusal :=
  match i with
  | .crcCompute data => Sys2Proof.Machine.execCrcCompute data s
  | .encRead dest source start => Sys2Proof.Machine.execEncRead dest source start s
  | .encWrite dest source start payload => Sys2Proof.Machine.execEncWrite dest source start payload s
  | .decVerify expDest expSource expFunction raw => Sys2Proof.Machine.execDecVerify expDest expSource expFunction raw s
  | .rmDecode desc dcb => Sys2Proof.Machine.execRmDecode desc dcb s
  | .rmRaw offset dcb => Sys2Proof.Machine.execRmRaw offset dcb s
  | .rmTfmt desc dcb => Sys2Proof.Machine.execRmTfmt desc dcb s
  | .rmTarget desc dcb => Sys2Proof.Machine.execRmTarget desc dcb s
  | .rmFrost desc dcb => Sys2Proof.Machine.execRmFrost desc dcb s
  | .rmSensel desc dcb => Sys2Proof.Machine.execRmSensel desc dcb s
  | .rmCurtemp desc dcb => Sys2Proof.Machine.execRmCurtemp desc dcb s
  | .rmRunmode desc dcb => Sys2Proof.Machine.execRmRunmode desc dcb s
  | .rmHeat desc dcb => Sys2Proof.Machine.execRmHeat desc dcb s
  | .laRegister address => Sys2Proof.Machine.execLaRegister address s
  | .laExchange address frame => Sys2Proof.Machine.execLaExchange address frame s
  | .rqRead dest source start => Sys2Proof.Machine.execRqRead dest source start s
  | .rqWrite dest source start payload => Sys2Proof.Machine.execRqWrite dest source start payload s
  | .rpRead dest source b5 b6 b7 b8 payload => Sys2Proof.Machine.execRpRead dest source b5 b6 b7 b8 payload s
  | .rpWrite dest source => Sys2Proof.Machine.execRpWrite dest source s

end Sys2Proof.Machine
end

