-- ==== Sys2Proof/Machine/ThermostatClient.lean ====
section
/-! DEFINITION. The host side: issuing a command (spec/30_encoding.md R90, R96) and the client sequences of
spec/44_client_sequences.md, each expanded into commands stage by stage (log entry 14). -/

namespace Sys2Proof.Machine

/-- Client `k` hands bytes to HMPE: what they decode to runs; a reserved or malformed descriptor is refused with the
one status byte `IllegalCommand`, "no unit acts and no state changes" (R96). -/
def issueAt (p : Port) (k : Nat) (bs : Bytes) (s : State) : Out :=
  match decodeAt s.lut p bs with
  | .ok i => exec i (s.setCur k)
  | .error _ => .next ((s.setCur k).raise .illegalCommand)

/-- A host call issues the command of its next line. -/
def issueCommand (k : Nat) (i : Instr) (s : State) : Out := issueAt .command k (encodeAt s.lut i) s

namespace State

/-- The call of client `k` is at this stage now. -/
def atStage (s : State) (k : Nat) (r : Running) : State := s.onClient k fun c => { c with running := some r }

/-- The call of client `k` ends with this outcome. -/
def endCall (s : State) (k : Nat) (outcome : Bytes) : State :=
  s.onClient k fun c => { c with running := none, done := c.done ++ [outcome] }

/-- "snap <- p", replaced wholesale (R232). -/
def storeSnap (s : State) (k : Nat) (p : Bytes) : State := s.onClient k fun c => { c with snap := some p }

/-- The client is made: it has this identity and "the client's `snap <- none`" (R231), whatever it held before (log
entry 20). -/
def constructed (s : State) (k : Nat) (id : Identity) : State :=
  s.onClient k fun c => { c with ident := some id, snap := none }

end State

/-- The single-register WRITE of a setter: its guard, then the register address and the value (R235 to R237). None for
a call that is no setter. -/
def setterPlan (p : Params) : HostCall → Option (Except ErrKind (Half × Byte))
  | .setTargetTemperature v =>
    some (if v < Config.targetMin ∨ Config.targetMax < v then .error .outOfRange else .ok (p.waddrTarget, v))
  | .setRunMode v => some (if v ≠ 0 ∧ v ≠ 1 then .error .invalidMode else .ok (p.waddrRunmode, v))
  | .setFrostProtectTemperature v =>
    some (if v < p.frostMin ∨ p.frostMax < v then .error .outOfRange else .ok (p.waddrFrost, v))
  | .construct _ _ => none
  | .readAll => none
  | .refresh => none
  | .getTemperatureFormat => none
  | .getTargetTemperature => none
  | .getFrostTemperature => none
  | .getSensorSelection => none
  | .getCurrentTemperature => none
  | .getRunMode => none
  | .getHeatState => none
  | .getRaw _ => none

/-- The one RM command of a getter on the current snapshot (R233). None for a call that is no getter. R233 has getters
for "any labelled raw offset"; DESIGN CHOICE (log entry 21): `getRaw` issues RM.RAW for every offset, labelled or not. -/
def getterCommand (d : Desc) (snap : Bytes) : HostCall → Option Instr
  | .getTemperatureFormat => some (.rmTfmt d snap)
  | .getTargetTemperature => some (.rmTarget d snap)
  | .getFrostTemperature => some (.rmFrost d snap)
  | .getSensorSelection => some (.rmSensel d snap)
  | .getCurrentTemperature => some (.rmCurtemp d snap)
  | .getRunMode => some (.rmRunmode d snap)
  | .getHeatState => some (.rmHeat d snap)
  | .getRaw o => some (.rmRaw o snap)
  | .construct _ _ => none
  | .readAll => none
  | .refresh => none
  | .setTargetTemperature _ => none
  | .setRunMode _ => none
  | .setFrostProtectTemperature _ => none

/-- The first line of `read_all` and `refresh` (R232, R234): `start = 0`. -/
def beginRead (k : Nat) (id : Identity) (call : HostCall) (budget : Nat) (s : State) : Out :=
  issueCommand k (.encRead id.addr s.params.masterAddr.toByte 0) (s.atStage k ⟨call, .encoded .read, budget⟩)

/-- The first lines of a setter (R235): the guard "before anything is encoded or sent", then the encoder. -/
def beginWrite (k : Nat) (id : Identity) (call : HostCall) (budget : Nat) (plan : Except ErrKind (Half × Byte))
    (s : State) : Out :=
  match plan with
  | .error e => .next (s.endCall k (errBytes e))
  | .ok (start, v) =>
    issueCommand k (.encWrite id.addr s.params.masterAddr.toByte start [v])
      (s.atStage k ⟨call, .encoded .write, budget⟩)

/-- A getter (R233): one RM command on the snapshot, no bus traffic; without a snapshot it has no meaning (R240). -/
def beginGet (k : Nat) (id : Identity) (snap : Option Bytes) (call : HostCall) (s : State) : Out :=
  match snap with
  | none => .refused .getterBeforeFirstRead
  | some p =>
    match getterCommand id.desc p call with
    | some i => issueCommand k i (s.atStage k ⟨call, .last, 0⟩)
    | none => .next s

/-- `construct` (R231): LA.REGISTER for the address, whether or not the client was made before (log entry 20). -/
def beginConstruct (k : Nat) (addr : Byte) (desc : Desc) (s : State) : Out :=
  issueCommand k (.laRegister addr) (s.atStage k ⟨.construct addr desc, .registered addr desc, 0⟩)

/-- The first line of every other call, for a client that has its identity. R240 and R293 put setters after the first
successful `read_all` and say nothing of an earlier one; DESIGN CHOICE (log entry 23): a setter needs no snapshot and runs
as it does later. -/
def beginOwned (k : Nat) (c : Client) (id : Identity) (call : HostCall) (budget : Nat) (s : State) : Out :=
  match call with
  | .readAll => beginRead k id call budget s
  | .refresh => beginRead k id call budget s
  | _ =>
    match setterPlan s.params call with
    | some plan => beginWrite k id call budget plan s
    | none => beginGet k id c.snap call s

/-- Client `k` starts a host call; without an identity only `construct` has a meaning: any other use of such a client
is what R231 and R293 forbid. -/
def beginCall (k : Nat) (c : Client) (call : HostCall) (budget : Nat) (s : State) : Out :=
  match call, c.ident with
  | .construct addr desc, _ => beginConstruct k addr desc s
  | _, some id => beginOwned k c id call budget s
  | _, none => .refused .clientNotConstructed

/-- The byte string a response with `OK` carries (R94): after the 16-bit length. -/
def resultString (body : Bytes) : Bytes := body.drop 2

/-- The next line of a call after a response with `OK`: `construct` makes the client (R231), every other call goes on
for a client that has its identity. -/
def onOk (k : Nat) (c : Client) (r : Running) (resp body : Bytes) (s : State) : Out :=
  match r.stage, c.ident with
  | .registered addr desc, _ => .next ((s.constructed k ⟨addr, desc⟩).endCall k resp)
  | .encoded fn, some id =>
    issueCommand k (.laExchange id.addr (resultString body)) (s.atStage k { r with stage := .exchanged fn })
  | .exchanged fn, some id =>
    issueCommand k (.decVerify s.params.masterAddr.toByte id.addr fn (resultString body))
      (s.atStage k { r with stage := .verified fn })
  | .verified .read, some id =>
    issueCommand k (.rmDecode id.desc (resultString body))
      ((s.storeSnap k (resultString body)).atStage k { r with stage := .last })
  | .verified .write, some _ => .next (s.endCall k (okBytes .nothing))
  | .last, some _ => .next (s.endCall k resp)
  | _, none => .refused .clientNotConstructed

/-- A call goes on after an error kind: a transient one may be retried from the encoder on while the budget lasts,
every other ends the call as its failure; the snapshot is left alone (R232, R238, R239). -/
def onError (k : Nat) (c : Client) (r : Running) (resp : Bytes) (code : Byte) (s : State) : Out :=
  if transientCodes.contains code && decide (0 < r.budget) then beginCall k c r.call (r.budget - 1) s
  else .next (s.endCall k resp)

/-- A call goes on after the response its client received last. -/
def continueCall (k : Nat) (c : Client) (r : Running) (s : State) : Out :=
  match c.mail.getLast? with
  | none => .next s
  | some [] => .next s
  | some (code :: body) =>
    if code = okCode then onOk k c r (code :: body) body s
    else onError k c r (code :: body) code s

/-- Client `k` takes the next item of its program: a descriptor, a request frame (log entry 9), or a host call, whose
retries are bounded by `RETRY_MAX` (R239). -/
def takeRequest (k : Nat) (c : Client) (q : Request) (s : State) : Out :=
  match q with
  | .command bs => issueAt .command k bs s
  | .frame raw => issueAt .request k raw s
  | .call call retries => beginCall k c call (min retries s.params.retryMax) s

/-- A client's step (R25, R218): none while it is blocked, and none ever after a reset dropped its request (R291). -/
def clientTurn (k : Nat) (s : State) : Out :=
  match s.clients[k]? with
  | none => .next s
  | some c =>
    match c.status with
    | .blocked _ => .next s
    | .lost => .next s
    | .ready =>
      match c.running, c.upcoming with
      | some r, _ => continueCall k c r s
      | none, [] => .next s
      | none, q :: rest => takeRequest k c q (s.onClient k fun c => { c with prog := rest })

end Sys2Proof.Machine
end

