-- ==== Sys2Proof/Machine/Schedule.lean ====
section
/-! DEFINITION. Which agent moves (spec/43_link_arbiter.md R201, R211) and what one turn does; then what places one
instruction where the next step takes it. -/

namespace Sys2Proof.Machine

/-- Has the client an enabled step (R218)? -/
def canMove (c : Client) : Bool :=
  match c.status with
  | .ready => c.running.isSome || !c.upcoming.isEmpty
  | .blocked _ => false
  | .lost => false

/-- The turns of the clients, the first of which has number `k`. -/
def clientTurns (k : Nat) : List Client → List Turn
  | [] => []
  | c :: cs => if canMove c then .client k :: clientTurns (k + 1) cs else clientTurns (k + 1) cs

/-- The turns of the arbiter: the complete step when the link is held (R212), else a grant step for every request that
may be granted (R210, R211). -/
def arbiterTurns (s : State) : List Turn :=
  if s.lock then [.complete] else ((List.finRange 32).filter s.grantable).map .grant

/-- The agents that have an enabled step (R201). -/
def enabledTurns (s : State) : List Turn := clientTurns 0 s.clients ++ arbiterTurns s

/-- The turn is an enabled step of the arbiter. -/
def arbiterMoves (s : State) : Turn → Bool
  | .client _ => false
  | .grant a => s.grantable a
  | .complete => s.lock
  | .reset => false
  | .arrive _ => false
  | .drain => false
  | .hostTransport => false

/-- The arbiter has an enabled step: an exchange is in flight, or a request may be granted. -/
def arbiterReady (s : State) : Bool := !(arbiterTurns s).isEmpty

/-- The arbiter has left an enabled step untaken as long as it may: it moves now, so that "an exchange that holds the lock
always releases it" (R70, R219) and a waiting request is not passed over for nothing (R211; log entry 22). -/
def overdue (s : State) : Bool := arbiterReady s && decide (s.env.patience < s.env.idle)

/-- May the settled turn be taken where the arbiter is overdue? Its own enabled steps may, and what the host does from
outside at any time: a reset (R290), and the use of the transport that is refused then (R295, R296). -/
def mayPass (s : State) : Turn → Bool
  | .client _ => false
  | .grant a => s.grantable a
  | .complete => s.lock
  | .reset => true
  | .arrive _ => false
  | .drain => true
  | .hostTransport => true

/-- The settled turn, with the turns after it; none where no turn is settled or an overdue arbiter goes first. -/
def settledTurn (s : State) : Option (Turn × List Turn) :=
  match s.env.upcoming with
  | [] => none
  | u :: rest => if overdue s && !mayPass s u then none else some (u, rest)

/-- The turns among which an open one is chosen: the arbiter's where it is overdue, else every enabled one. -/
def openTurns (s : State) : List Turn := if overdue s then arbiterTurns s else enabledTurns s

/-- Where no turn is settled: the one turn there is, or a free choice among several (log entry 1). -/
def openTurn (s : State) : Option Turn :=
  match openTurns s with
  | [] => none
  | [t] => some t
  | t :: u :: rest => (t :: u :: rest)[Config.freeTurn s.env.seq % (rest.length + 2)]?

/-- Bytes arrive on the transport; where they are a reply frame of R83, that frame's meaning says what happens. -/
def arriveTurn (raw : Bytes) (s : State) : Out :=
  match decodeAt s.lut .reply raw with
  | .ok i => exec i s
  | .error _ => .next (s.arrived raw)

/-- Draining is the host's to do "while no exchange is outstanding" (R296); at any other time it is use of the
transport outside LA.EXCHANGE (R295). -/
def drainTurn (s : State) : Out :=
  if s.quiet then .next (s.setEnv { s.env with rx := [] }) else .refused .transportOutsideExchange

/-- One turn; a turn that is not enabled leaves the state as it is. -/
def takeTurn (t : Turn) (s : State) : Out :=
  match t with
  | .client k => clientTurn k s
  | .grant a => .next (s.grant a)
  | .complete => .next s.complete
  | .reset => .next s.resetEvent
  | .arrive raw => arriveTurn raw s
  | .drain => drainTurn s
  | .hostTransport => .refused .transportOutsideExchange

/-- How long the arbiter has left an enabled step untaken once turn `u` is taken. -/
def idleAfter (s : State) (u : Turn) : Nat :=
  if arbiterMoves s u then 0 else if arbiterReady s then s.env.idle + 1 else 0

/-- The state in which turn `u` does what it does: the environment is `e` with the arbiter's waiting counted. -/
def State.before (s : State) (u : Turn) (e : Env) : State := s.setEnv { e with idle := idleAfter s u }

/-- One step: the settled turn, or an open one (which leaves the settled turns for later); where no agent has an enabled
step and no turn is settled the machine waits (log entry 11). -/
def runTurn (s : State) : Out :=
  match settledTurn s with
  | some (u, rest) => takeTurn u (s.before u { s.env with turns := rest })
  | none =>
    match openTurn s with
    | some u => takeTurn u (s.before u { s.env with turns := s.env.upcoming, seq := s.env.seq + 1 })
    | none => .next s

/-! ### Placing an instruction (log entry 8) -/

/-- A client that holds nothing. -/
def freshClient : Client :=
  { status := .ready, prog := [], again := [], mail := [], ident := none, snap := none, running := none, done := [] }

/-- Client 0 made ready to take `q` first. -/
def withRequest (q : Request) : List Client → List Client
  | [] => [{ freshClient with prog := [q] }]
  | c :: cs => { c with status := .ready, running := none, prog := q :: c.prog } :: cs

/-- The state whose next step has client 0 issue `q`; the arbiter is not overdue in it. -/
def State.placeRequest (s : State) (q : Request) : State :=
  { s with clients := withRequest q s.clients, env := { s.env with turns := .client 0 :: s.env.turns, idle := 0 } }

/-- The state whose next step has the bytes arrive on the transport; the arbiter is not overdue in it. -/
def State.placeArrival (s : State) (raw : Bytes) : State :=
  { s with env := { s.env with turns := .arrive raw :: s.env.turns, idle := 0 } }

/-- An instruction, by its port, where the next step takes it. -/
def State.placeInstr (s : State) (i : Instr) : State :=
  match i.port with
  | .command => s.placeRequest (.command (encode i))
  | .request => s.placeRequest (.frame (encode i))
  | .reply => s.placeArrival (encode i)

end Sys2Proof.Machine
end

