-- ==== Sys2Proof/Machine/Step.lean ====
section
/-! DEFINITION. One step of the machine, and the state whose next step runs a given instruction. -/

namespace Sys2Proof.Machine

/-- One step: one turn of one agent (spec/43_link_arbiter.md R201). -/
def step (s : State) : Host.Outcome State Fault Refusal := runTurn s

/-- The instruction whose bits are `w` (numbered as spec/opcode_table.json numbers them, every later bit zero) is what
the next step runs; a number that is no instruction is presented as the descriptor it is (log entry 8). -/
def State.withFetchWord (s : State) (nbits w : Nat) : State :=
  match decodeTableWord nbits w with
  | some i => s.placeInstr i
  | none => s.placeRequest (.command (wordBytes ((nbits + 7) / 8) w))

end Sys2Proof.Machine
end

