-- ==== Sys2Proof/Safety.lean ====
section
/-! DEFINITION. The terms claims are stated in: what a command leaves unchanged, the invariants of the Link Arbiter
(spec/10_state.md R31), the pairing of the history (spec/20_memory.md R66), and the state in which an instruction
runs. -/

namespace Sys2Proof.Machine

/-! ### Frames -/

/-- The arbiter's state is unchanged: `REGV`, `LOCK`, `OWNER`, `REQ`, `HIST` and the model's bookkeeping of them. -/
def SameArbiter (s t : State) : Prop :=
  t.regv = s.regv ∧ t.lock = s.lock ∧ t.owner = s.owner ∧ t.req = s.req ∧ t.hist = s.hist ∧ t.order = s.order ∧
    t.issuer = s.issuer

/-- The constants of the instance are unchanged: `LUT_H`, `LUT_L` and the parameters (R20, R32). -/
def SameConfig (s t : State) : Prop := t.lut = s.lut ∧ t.params = s.params

/-- The clients of `s` after the running command's client received the response `r`, and nothing else of them. -/
def mailed (s : State) (r : Bytes) : List Client := s.clients.modify s.cur fun c => { c with mail := c.mail ++ [r] }

/-- From `s` to `t` the response `r` went to the running command's client and, the working registers `HI`, `LO`, `T`
apart, nothing else changed: no arbiter state, no constant, no other client, no host state, no transport answer. -/
def Answers (s t : State) (r : Bytes) : Prop :=
  t.clients = mailed s r ∧ t.cur = s.cur ∧ t.env = s.env ∧ SameArbiter s t ∧ SameConfig s t

/-- As `Answers`, and the working registers are unchanged too. -/
def OnlyAnswers (s t : State) (r : Bytes) : Prop := Answers s t r ∧ t.ce = s.ce

/-- The opcode byte of a command's descriptor (R90, R91). -/
def opcode? (i : Instr) : Option Byte := (encode i).head?

/-- The commands of CE, FC and RM (R65): "pure and share no state". -/
def isPure : Instr → Bool
  | .crcCompute _ => true
  | .encRead _ _ _ => true
  | .encWrite _ _ _ _ => true
  | .decVerify _ _ _ _ => true
  | .rmDecode _ _ => true
  | .rmRaw _ _ => true
  | .rmTfmt _ _ => true
  | .rmTarget _ _ => true
  | .rmFrost _ _ => true
  | .rmSensel _ _ => true
  | .rmCurtemp _ _ => true
  | .rmRunmode _ _ => true
  | .rmHeat _ _ => true
  | .laRegister _ => false
  | .laExchange _ _ => false
  | .rqRead _ _ _ => false
  | .rqWrite _ _ _ _ => false
  | .rpRead _ _ _ _ _ _ _ => false
  | .rpWrite _ _ => false

/-! ### Fetching -/

/-- The settled turn that is taken next is `u`: it heads the settled turns, and no overdue arbiter goes before it (log
entries 1 and 22). -/
def Settled (s : State) (u : Turn) (turns : List Turn) : Prop :=
  s.env.upcoming = u :: turns ∧ (overdue s = true → mayPass s u = true)

/-- The settled next turn is that of client `k`, which is `c` and ready. -/
def TurnOf (s : State) (k : Nat) (c : Client) (turns : List Turn) : Prop :=
  Settled s (.client k) turns ∧ s.clients[k]? = some c ∧ c.status = .ready

/-- Client `k` is to move and its next item is `q`: what `step` sees before it runs `q`. -/
def IssuesNext (s : State) (k : Nat) (c : Client) (q : Request) (prog : List Request) (turns : List Turn) : Prop :=
  TurnOf s k c turns ∧ c.running = none ∧ c.upcoming = q :: prog

/-- The state after a turn was taken from the settled ones that is no enabled step of the arbiter; where the arbiter has
one it has now waited one step longer (log entry 22). -/
def afterTurn (s : State) (turns : List Turn) : State :=
  { s with env := { s.env with turns := turns, idle := if arbiterReady s then s.env.idle + 1 else 0 } }

/-- The state after an enabled step of the arbiter was taken from the settled turns. -/
def afterArbiter (s : State) (turns : List Turn) : State :=
  { s with env := { s.env with turns := turns, idle := 0 } }

/-- The state in which a command of client `k` runs: the turn is used up, and `edit` is what the client's own
bookkeeping (its program, its call in progress, its snapshot) does first. -/
def issuing (s : State) (k : Nat) (turns : List Turn) (edit : Client → Client) : State :=
  { afterTurn s turns with clients := s.clients.modify k edit, cur := k }

/-- The state in which the next item of the program runs: the item is taken from the program of client `k`. -/
def fetched (s : State) (k : Nat) (prog : List Request) (turns : List Turn) : State :=
  issuing s k turns fun c => { c with prog := prog }

/-- From `s` to `t` the turn was used up and client `k` changed by `edit`; HMPE did nothing. -/
def OnlyHost (s t : State) (k : Nat) (turns : List Turn) (edit : Client → Client) : Prop :=
  t = { afterTurn s turns with clients := s.clients.modify k edit }

/-! ### Enabled steps -/

/-- The turn is that of an agent that has an enabled step (R201): a client that is not blocked and has something to do
(R218), the grant of a pending slot with `LOCK = 0` that is, under `fifo`, the one pending longest (R210, R211), the
complete step with `LOCK = 1` (R212). What happens from outside is no agent's step. -/
def Enabled (s : State) : Turn → Prop
  | .client k => ∃ c, s.clients[k]? = some c ∧ c.status = .ready ∧ (c.running ≠ none ∨ c.upcoming ≠ [])
  | .grant a => s.lock = false ∧ (∃ frame, s.req[a] = .pending frame) ∧
      (s.params.arbPolicy = .fifo → s.order.head? = some a)
  | .complete => s.lock = true
  | .reset => False
  | .arrive _ => False
  | .drain => False
  | .hostTransport => False

/-- The turn is that of an agent: a client or the arbiter (R201). -/
def ofAgent : Turn → Bool
  | .client _ => true
  | .grant _ => true
  | .complete => true
  | .reset => false
  | .arrive _ => false
  | .drain => false
  | .hostTransport => false

/-! ### DEC.VERIFY as a table -/

/-- The checks of R158's priority list in its order, each as (it fails, the kind it raises). A byte that does not
exist is read as 0 here; the two `TooShort` rows before it make that value irrelevant. -/
def verifyChecks (lut : Lut) (expDest expSource : Byte) (expFunction : Func) (raw : Bytes) : List (Bool × ErrKind) :=
  let dest := raw.getD 0 0
  let declared := u16 (raw.getD 1 0) (raw.getD 2 0)
  let source := raw.getD 3 0
  let fn := raw.getD 4 0
  [(decide (raw.length < 3), .tooShort),
    (!crcCheck lut raw, .badChecksum),
    (decide (dest ≠ 129 ∧ dest ≠ 160), .illegalDestination),
    (decide (dest ≠ expDest), .destinationMismatch),
    (decide (raw.length < 4), .tooShort),
    (decide (source.toNat < 1 ∨ source.toNat > 32), .sourceOutOfRange),
    (decide (source ≠ expSource), .sourceMismatch),
    (decide (raw.length < 5), .tooShort),
    (decide (fn ≠ 0 ∧ fn ≠ 1), .unknownFunction),
    (decide (fn ≠ expFunction.code), .unexpectedFunction),
    (decide (fn = 1 ∧ declared ≠ 7), .writeLengthMismatch),
    (decide (declared ≠ raw.length), .lengthMismatch)]

/-- The kind of the first check that fails, none where all pass. -/
def firstFailure (checks : List (Bool × ErrKind)) : Option ErrKind := (checks.find? fun c => c.1).map fun c => c.2

/-! ### Invariants -/

/-- R31 (a) to (c). -/
structure State.LinkInv (s : State) : Prop where
  /-- (a) "At most one slot is `ACTIVE`." -/
  oneActive : ∀ a b : BusAddr, State.isActive s.req[a] = true → State.isActive s.req[b] = true → a = b
  /-- (b) "`LOCK = 1` if and only if some slot is `ACTIVE`" -/
  lockIff : s.lock = true ↔ ∃ a : BusAddr, State.isActive s.req[a] = true
  /-- (b) "and then `OWNER` is that slot's address" -/
  ownerActive : ∀ a : BusAddr, State.isActive s.req[a] = true → s.owner = a
  /-- (c) "`REQ[a] ≠ IDLE` implies `REGV[a] = 1`" -/
  registered : ∀ a : BusAddr, s.req[a] ≠ .idle → s.regv[a] = true

/-- The model's bookkeeping agrees with the slots: `order` lists the pending addresses once each, a slot has an issuer
exactly when it is not idle, and that issuer is the client that is blocked on it. -/
structure State.QueueInv (s : State) : Prop where
  nodup : s.order.Nodup
  pendingIff : ∀ a : BusAddr, a ∈ s.order ↔ State.isPending s.req[a] = true
  issuerIff : ∀ a : BusAddr, s.issuer[a] = none ↔ s.req[a] = .idle
  blockedIff : ∀ (a : BusAddr) (k : Nat),
    s.issuer[a] = some k ↔ ∃ c, s.clients[k]? = some c ∧ c.status = .blocked a

/-- The arbiter's invariant. -/
def State.Inv (s : State) : Prop := s.LinkInv ∧ s.QueueInv

/-- Every read event stands directly after a write event of the same address; `prev` is the address of the write event
just before. -/
def readsPaired : Option BusAddr → List Event → Bool
  | _, [] => true
  | _, .wrote a _ :: rest => readsPaired (some a) rest
  | prev, .read a _ :: rest => prev == some a && readsPaired none rest

/-- R66 as an invariant: every read follows the write of its own exchange with no event between them, and while the
link is held the last event is the write of the exchange in flight. -/
structure State.HistInv (s : State) : Prop where
  paired : readsPaired none s.hist = true
  inFlight : s.lock = true → ∃ frame, s.req[s.owner] = .active frame ∧ s.hist.getLast? = some (.wrote s.owner frame)

end Sys2Proof.Machine
end

