-- ==== Sys2Proof/Certificates/Slice0/Obligations.lean ====
section
/-! DEFINITION. The statements for the provers. Each docstring names the rules of spec/ it formalises, or says that it
rests on a choice of the model and names the log entry. -/

open Sys2Proof Sys2Proof.Machine

/-! ### Encodings and the step -/

/-- Byte strings written out in spec/95_test_vectors.md sections 4 and 7 (with the snapshot `X12` of section 5 and the
request `f1` in full) decode to the commands and frames they stand for. -/
def Obligations.SpecWordsDecode : Prop :=
  decode [0x01, 0x02, 0x00, 0x12, 0x34] = .ok (.crcCompute [0x12, 0x34]) ∧
  decode [0x10, 0x01, 0x81, 0x00, 0x00] = .ok (.encRead 1 129 0) ∧
  decode [0x11, 0x01, 0x81, 0x12, 0x00, 0x01, 0x00, 0x15] = .ok (.encWrite 1 129 18 [0x15]) ∧
  decode [0x18, 0x81, 0x01, 0x01, 0x07, 0x00, 0x81, 0x07, 0x00, 0x01, 0x01, 0xB0, 0xEB] =
    .ok (.decVerify 129 1 .write [0x81, 0x07, 0x00, 0x01, 0x01, 0xB0, 0xEB]) ∧
  decode [0x21, 0x0B, 0x00, 0x0C, 0x00, 0x00, 0x00, 0x0C, 0x15, 0x00, 0x01, 0x00, 0xC6, 0x00, 0xE6, 0x00, 0xD7] =
    .ok (.rmRaw 11 [0x00, 0x00, 0x0C, 0x15, 0x00, 0x01, 0x00, 0xC6, 0x00, 0xE6, 0x00, 0xD7]) ∧
  decode [0x30, 0x01] = .ok (.laRegister 1) ∧
  decode [0x31, 0x01, 0x0B, 0x00, 0x01, 0x0B, 0x00, 0x81, 0x00, 0x00, 0x00, 0xFF, 0xFF, 0x71, 0xA9] =
    .ok (.laExchange 1 [0x01, 0x0B, 0x00, 0x81, 0x00, 0x00, 0x00, 0xFF, 0xFF, 0x71, 0xA9]) ∧
  decodeRequest Config.ccittLut [0x01, 0x0B, 0x00, 0x81, 0x00, 0x00, 0x00, 0xFF, 0xFF, 0x71, 0xA9] =
    .ok (.rqRead 1 129 0) ∧
  decodeReply Config.ccittLut [0x81, 0x07, 0x00, 0x01, 0x01, 0xB0, 0xEB] = .ok (.rpWrite 129 1)

/-- Decode and encode agree: for every instruction that has an encoding (R83, R90 to R93), with every operand value,
the bytes the encoder writes decode to it at its port. -/
def Obligations.DecodeOfEncodeIsIdentity : Prop :=
  ∀ (lut : Lut) (i : Instr), i.wf = true → decodeAt lut i.port (encodeAt lut i) = .ok i

/-- Each word has one meaning: bytes that decode are the encoding of what they decode to, which is well formed and
belongs to that port (R83, R90 to R93). -/
def Obligations.EncodeOfDecodeIsIdentity : Prop :=
  ∀ (lut : Lut) (p : Port) (bs : Bytes) (i : Instr),
    decodeAt lut p bs = .ok i → i.wf = true ∧ i.port = p ∧ encodeAt lut i = bs

/-- R91 to R93: the descriptor of each command is its opcode and then its operands in the order of the table, 16-bit
values low byte first, byte strings behind their 16-bit length, `exp_function` as 0 or 1, `DESC` as nine offsets, `K` and
`K` entries. -/
def Obligations.DescriptorsFollowTheOpcodeMap : Prop :=
  ∀ (b c : Byte) (h : Half) (fn : Func) (d : Desc) (str block : Bytes),
    block = ([d.offTfmt, d.offTarget, d.offFrost, d.offSensel, d.offRunmode, d.offHeat, d.pairBuiltin, d.pairRemote,
      d.pairFloor, BitVec.ofNat 16 d.labels.length].flatMap fun v => le16 v.toNat) ++
      d.labels.flatMap (fun e => le16 e.1.toNat ++ le16 e.2.toNat) →
    encode (.crcCompute str) = [0x01] ++ le16 str.length ++ str ∧
    encode (.encRead b c h) = [0x10, b, c] ++ le16 h.toNat ∧
    encode (.encWrite b c h str) = [0x11, b, c] ++ le16 h.toNat ++ le16 str.length ++ str ∧
    encode (.decVerify b c fn str) = [0x18, b, c, if fn = .read then 0 else 1] ++ le16 str.length ++ str ∧
    encode (.rmDecode d str) = [0x20] ++ block ++ le16 str.length ++ str ∧
    encode (.rmRaw h str) = [0x21] ++ le16 h.toNat ++ le16 str.length ++ str ∧
    encode (.rmTfmt d str) = [0x22] ++ block ++ le16 str.length ++ str ∧
    encode (.rmTarget d str) = [0x23] ++ block ++ le16 str.length ++ str ∧
    encode (.rmFrost d str) = [0x24] ++ block ++ le16 str.length ++ str ∧
    encode (.rmSensel d str) = [0x25] ++ block ++ le16 str.length ++ str ∧
    encode (.rmCurtemp d str) = [0x26] ++ block ++ le16 str.length ++ str ∧
    encode (.rmRunmode d str) = [0x27] ++ block ++ le16 str.length ++ str ∧
    encode (.rmHeat d str) = [0x28] ++ block ++ le16 str.length ++ str ∧
    encode (.laRegister b) = [0x30, b] ∧
    encode (.laExchange b str) = [0x31, b] ++ le16 str.length ++ str

/-- R96: a descriptor that is the encoding of no well-formed command, in particular any that begins with a reserved
opcode, is answered with the one status byte 0x80, no unit acts and no state changes. -/
def Obligations.MalformedDescriptorAnswersIllegalCommand : Prop :=
  (∀ (s : State) (k : Nat) (c : Client) (bs : Bytes) (prog : List Request) (turns : List Turn),
    IssuesNext s k c (.command bs) prog turns →
    (∀ i : Instr, i.port = .command → i.wf = true → encode i ≠ bs) →
    ∃ t, step s = .next t ∧ OnlyAnswers (fetched s k prog turns) t [0x80]) ∧
  (∀ (op : Byte) (rest : Bytes),
    (op.toNat = 0 ∨ (0x02 ≤ op.toNat ∧ op.toNat ≤ 0x0F) ∨ (0x12 ≤ op.toNat ∧ op.toNat ≤ 0x17) ∨
      (0x19 ≤ op.toNat ∧ op.toNat ≤ 0x1F) ∨ (0x29 ≤ op.toNat ∧ op.toNat ≤ 0x2F) ∨ 0x32 ≤ op.toNat) →
    ∀ i : Instr, i.port = .command → encode i ≠ op :: rest)

/-- A step runs the decoded instruction: the descriptor a client issues decodes to `i`, and the step is `exec i` in the
state where the turn is used up, the descriptor is taken from the client's program, and the client is the current one. -/
def Obligations.StepRunsDecodedCommand : Prop :=
  ∀ (s : State) (k : Nat) (c : Client) (bs : Bytes) (prog : List Request) (turns : List Turn) (i : Instr),
    IssuesNext s k c (.command bs) prog turns → decode bs = .ok i → step s = exec i (fetched s k prog turns)

/-- The same for wire frames, the model's choice (log entry 9): a request frame a client sends and a reply frame that
arrives run as the frames they are; bytes a client sends as a request frame that are none are answered with `IllegalCommand`
(0x80) and change nothing else; bytes that arrive and are no reply frame reach the transport as they are. -/
def Obligations.StepRunsDecodedFrame : Prop :=
  (∀ (s : State) (k : Nat) (c : Client) (raw : Bytes) (prog : List Request) (turns : List Turn) (i : Instr),
    IssuesNext s k c (.frame raw) prog turns → decodeRequest s.lut raw = .ok i →
    step s = exec i (fetched s k prog turns)) ∧
  (∀ (s : State) (k : Nat) (c : Client) (raw : Bytes) (prog : List Request) (turns : List Turn) (e : Reject),
    IssuesNext s k c (.frame raw) prog turns → decodeRequest s.lut raw = .error e →
    ∃ t, step s = .next t ∧ OnlyAnswers (fetched s k prog turns) t [0x80]) ∧
  (∀ (s : State) (raw : Bytes) (turns : List Turn) (i : Instr),
    Settled s (.arrive raw) turns → decodeReply s.lut raw = .ok i → step s = exec i (afterTurn s turns)) ∧
  (∀ (s : State) (raw : Bytes) (turns : List Turn) (e : Reject),
    Settled s (.arrive raw) turns → decodeReply s.lut raw = .error e →
    step s = .next { afterTurn s turns with env := { (afterTurn s turns).env with rx := s.env.rx ++ [raw] } })

/-! ### Checksum Engine -/

/-- R125: CRC.COMPUTE answers `OK(low, high)`, writes the accumulators and nothing else; with the tables of R122 the
rule's three examples, and for any tables the empty string's `(0xFF, 0xFF)`. Its opcode is 0x01. -/
def Obligations.CrcComputeAnswersChecksum : Prop :=
  (∀ data : Bytes, opcode? (.crcCompute data) = some 0x01) ∧
  (∀ (data : Bytes) (s : State), ∃ t, exec (.crcCompute data) s = .next t ∧
    Answers s t [0x00, (crc16 s.lut data).1, (crc16 s.lut data).2] ∧
    t.ce.lo = (crc16 s.lut data).1 ∧ t.ce.hi = (crc16 s.lut data).2) ∧
  (∀ lut : Lut, crc16 lut [] = (0xFF, 0xFF)) ∧
  crc16 Config.ccittLut [0x12, 0x34] = (0xC9, 0x0E) ∧ crc16 Config.ccittLut [0x34, 0x12] = (0x2D, 0xE6) ∧
  crc16 Config.ccittLut [0x31, 0x32, 0x33, 0x34, 0x35, 0x36, 0x37, 0x38, 0x39] = (0xB1, 0x29)

/-- With the tables of R122 the nibble-table checksum is the bit-serial CRC, for every byte string: what R128 derives. -/
def Obligations.ChecksumIsBitSerialCcitt : Prop :=
  ∀ data : Bytes, crc16 Config.ccittLut data = crc16Bitwise data

/-- R129: the checksum of `u ++ v` is reached by going on over `v` from the accumulators after `u`; and it depends on
the order of the bytes. -/
def Obligations.ChecksumIsIncremental : Prop :=
  (∀ (lut : Lut) (c : Ce) (u v : Bytes),
    ((crcLoop lut (crcRun lut c u) v).lo, (crcLoop lut (crcRun lut c u) v).hi) = crc16 lut (u ++ v)) ∧
  (∃ u v : Bytes, crc16 Config.ccittLut (u ++ v) ≠ crc16 Config.ccittLut (v ++ u))

/-- R122: entry `t` of the tables is `(t[0]*0x1021) xor (t[1]*0x2042) xor (t[2]*0x4084) xor (t[3]*0x8108)`, high byte in
`LUT_H`, low byte in `LUT_L`; the machine holds these tables after reset. -/
def Obligations.LookupTablesHoldCcittMultiples : Prop :=
  State.reset.lut = Config.ccittLut ∧
  ∀ t : Fin 16,
    (Config.ccittLut.high[t] ++ Config.ccittLut.low[t] : BitVec 16) =
      (if t.val.testBit 0 then 0x1021 else 0) ^^^ (if t.val.testBit 1 then 0x2042 else 0) ^^^
        (if t.val.testBit 2 then 0x4084 else 0) ^^^ (if t.val.testBit 3 then 0x8108 else 0)

/-- R24: the working registers before an instruction never influence what it does: from a state that differs only in
`HI`, `LO`, `T` it leads to a state that differs only in `HI`, `LO`, `T`. -/
def Obligations.WorkingRegistersNeverReachAResult : Prop :=
  ∀ (i : Instr) (s t : State) (ce : Ce), exec i s = .next t →
    ∃ u, exec i { s with ce := ce } = .next u ∧ { u with ce := t.ce } = t

/-! ### Frame Codec -/

/-- R141: ENC.READ (opcode 0x10) answers `OK` with the 11 bytes of the READ request, for every operand. -/
def Obligations.EncReadAnswersReadRequest : Prop :=
  ∀ (dest source : Byte) (start : Half) (s : State), opcode? (.encRead dest source start) = some 0x10 ∧
    ∃ t, exec (.encRead dest source start) s = .next t ∧ Answers s t (0x00 :: 11 :: 0 ::
      crcAppend s.lut [dest, 11, 0, source, 0, lo8 start.toNat, hi8 start.toNat, 0xFF, 0xFF])

/-- R142: ENC.WRITE (opcode 0x11) answers `PayloadTooLong` and does nothing else when `n > MAX_FRAME - 11`; otherwise
it answers `OK` with the `11 + n` bytes of the WRITE request. -/
def Obligations.EncWriteAnswersWriteRequest : Prop :=
  ∀ (dest source : Byte) (start : Half) (payload : Bytes) (s : State),
    opcode? (.encWrite dest source start payload) = some 0x11 ∧
    (payload.length > s.params.maxFrame.val - 11 →
      ∃ t, exec (.encWrite dest source start payload) s = .next t ∧ OnlyAnswers s t [0x84]) ∧
    (payload.length ≤ s.params.maxFrame.val - 11 →
      ∃ t, exec (.encWrite dest source start payload) s = .next t ∧
        Answers s t (0x00 :: lo8 (11 + payload.length) :: hi8 (11 + payload.length) ::
          crcAppend s.lut ([dest, lo8 (11 + payload.length), hi8 (11 + payload.length), source, 1, lo8 start.toNat,
            hi8 start.toNat, lo8 payload.length, hi8 payload.length] ++ payload)))

/-- R150 and R158: DEC.VERIFY (opcode 0x18) answers the kind of the first failing check of the priority list, and `raw[9 .. m-3]` when
all pass, for every received string and every expectation. -/
def Obligations.DecVerifyFollowsTheCheckList : Prop :=
  ∀ (expDest expSource : Byte) (expFunction : Func) (raw : Bytes) (s : State),
    opcode? (.decVerify expDest expSource expFunction raw) = some 0x18 ∧
    ∃ t, exec (.decVerify expDest expSource expFunction raw) s = .next t ∧
      (∀ k, firstFailure (verifyChecks s.lut expDest expSource expFunction raw) = some k → Answers s t [k.code]) ∧
      (firstFailure (verifyChecks s.lut expDest expSource expFunction raw) = none →
        Answers s t (0x00 :: le16 (raw.length - 11) ++ (raw.drop 9).take (raw.length - 11)))

/-- R159 and R160: a READ reply with legal and expected addresses is accepted whatever its bytes 5 to 8 are, and the
answer is its payload. -/
def Obligations.ReadReplyPayloadIsReturned : Prop :=
  ∀ (dest source b5 b6 b7 b8 : Byte) (payload : Bytes) (s : State),
    (dest = 129 ∨ dest = 160) → 1 ≤ source.toNat → source.toNat ≤ 32 → 11 + payload.length < 65536 →
    ∃ t, exec (.decVerify dest source .read (readReply s.lut dest source b5 b6 b7 b8 payload)) s = .next t ∧
      Answers s t (0x00 :: le16 payload.length ++ payload)

/-- R161: with `exp_function = 1` the seven-byte acknowledgment `[dest, 7, 0, source, 1, crc_lo, crc_hi]` from the
expected addresses is answered with the empty string, and nothing else is accepted. -/
def Obligations.OnlyTheAcknowledgmentAnswersAWrite : Prop :=
  (∀ (expDest expSource : Byte) (s : State),
    (expDest = 129 ∨ expDest = 160) → 1 ≤ expSource.toNat → expSource.toNat ≤ 32 →
    ∃ t, exec (.decVerify expDest expSource .write (crcAppend s.lut [expDest, 7, 0, expSource, 1])) s = .next t ∧
      Answers s t [0x00, 0x00, 0x00]) ∧
  (∀ (expDest expSource : Byte) (raw body : Bytes) (s t : State), s.cur < s.clients.length →
    exec (.decVerify expDest expSource .write raw) s = .next t → Answers s t (0x00 :: body) →
    raw = crcAppend s.lut [expDest, 7, 0, expSource, 1] ∧ (expDest = 129 ∨ expDest = 160) ∧
      1 ≤ expSource.toNat ∧ expSource.toNat ≤ 32 ∧ body = [0x00, 0x00])

/-- R165: a request frame fed to DEC.VERIFY fails with `IllegalDestination`, whatever is expected, because its byte 0 is
no master code. -/
def Obligations.RequestsFailAtTheDestination : Prop :=
  ∀ (dest source expDest expSource : Byte) (start : Half) (payload : Bytes) (expFunction : Func) (s : State),
    dest ≠ 129 → dest ≠ 160 →
    (∃ t, exec (.decVerify expDest expSource expFunction (readRequest s.lut dest source start)) s = .next t ∧
      Answers s t [0x04]) ∧
    (∃ t, exec (.decVerify expDest expSource expFunction (writeRequest s.lut dest source start payload)) s = .next t ∧
      Answers s t [0x04])

/-! ### Register Map -/

/-- R173 to R176: RM.RAW, RM.TFMT, RM.TARGET and RM.FROST answer the byte at the offset, unchanged, and `FieldAbsent`
where the snapshot does not reach it; nothing else changes. Their opcodes are 0x21 to 0x24. -/
def Obligations.ValueFieldsAnswerTheByte : Prop :=
  (∀ (o : Half) (d : Desc) (dcb : Bytes), opcode? (.rmRaw o dcb) = some 0x21 ∧ opcode? (.rmTfmt d dcb) = some 0x22 ∧
    opcode? (.rmTarget d dcb) = some 0x23 ∧ opcode? (.rmFrost d dcb) = some 0x24) ∧
  ∀ (i : Instr) (o : Half) (dcb : Bytes) (s : State),
    (i = .rmRaw o dcb ∨ ∃ d : Desc, (i = .rmTfmt d dcb ∧ d.offTfmt = o) ∨ (i = .rmTarget d dcb ∧ d.offTarget = o) ∨
      (i = .rmFrost d dcb ∧ d.offFrost = o)) →
    (∀ v, dcb[o.toNat]? = some v → ∃ t, exec i s = .next t ∧ OnlyAnswers s t [0x00, v]) ∧
    (dcb.length ≤ o.toNat → ∃ t, exec i s = .next t ∧ OnlyAnswers s t [0x83])

/-- R179 and R180: RM.RUNMODE (opcode 0x27) answers the byte with state 0 for 0, 1 for 1, 0xFF otherwise; RM.HEAT (opcode
0x28) answers the byte with 1 exactly when it is not 0; both answer `FieldAbsent` where the snapshot does not reach the field. -/
def Obligations.RunModeAndHeatAnswer : Prop :=
  ∀ (d : Desc) (dcb : Bytes) (s : State),
    opcode? (.rmRunmode d dcb) = some 0x27 ∧ opcode? (.rmHeat d dcb) = some 0x28 ∧
    (∀ v, dcb[d.offRunmode.toNat]? = some v → ∃ t, exec (.rmRunmode d dcb) s = .next t ∧
      OnlyAnswers s t [0x00, v, if v = 0 then 0x00 else if v = 1 then 0x01 else 0xFF]) ∧
    (dcb.length ≤ d.offRunmode.toNat → ∃ t, exec (.rmRunmode d dcb) s = .next t ∧ OnlyAnswers s t [0x83]) ∧
    (∀ v, dcb[d.offHeat.toNat]? = some v → ∃ t, exec (.rmHeat d dcb) s = .next t ∧
      OnlyAnswers s t [0x00, v, if v = 0 then 0x00 else 0x01]) ∧
    (dcb.length ≤ d.offHeat.toNat → ∃ t, exec (.rmHeat d dcb) s = .next t ∧ OnlyAnswers s t [0x83])

/-- R177, RM.SENSEL (opcode 0x25): codes 0 and 3 name the built-in pair, 1 and 4 the remote pair, all others the floor pair; the pair itself need
not be present. -/
def Obligations.SensorSelectionResolves : Prop :=
  ∀ (d : Desc) (dcb : Bytes) (s : State), opcode? (.rmSensel d dcb) = some 0x25 ∧
    (∀ code, dcb[d.offSensel.toNat]? = some code →
      ((code = 0 ∨ code = 3) → ∃ t, exec (.rmSensel d dcb) s = .next t ∧
        OnlyAnswers s t (0x00 :: code :: 0x00 :: le16 d.pairBuiltin.toNat)) ∧
      ((code = 1 ∨ code = 4) → ∃ t, exec (.rmSensel d dcb) s = .next t ∧
        OnlyAnswers s t (0x00 :: code :: 0x01 :: le16 d.pairRemote.toNat)) ∧
      ((code = 2 ∨ 5 ≤ code.toNat) → ∃ t, exec (.rmSensel d dcb) s = .next t ∧
        OnlyAnswers s t (0x00 :: code :: 0x02 :: le16 d.pairFloor.toNat))) ∧
    (dcb.length ≤ d.offSensel.toNat → ∃ t, exec (.rmSensel d dcb) s = .next t ∧ OnlyAnswers s t [0x83])

/-- R178: with the selection byte and the pair it names present, RM.CURTEMP (opcode 0x26) answers `T10 = 256*dcb[p] + dcb[p+1]` and its
quotient and remainder by 10; with either absent it answers `FieldAbsent`. -/
def Obligations.CurrentTemperatureIsTheResolvedPair : Prop :=
  ∀ (d : Desc) (dcb : Bytes) (s : State), opcode? (.rmCurtemp d dcb) = some 0x26 ∧
    (∀ (code high low : Byte) (p : Nat), dcb[d.offSensel.toNat]? = some code →
      p = (if code = 0 ∨ code = 3 then d.pairBuiltin else if code = 1 ∨ code = 4 then d.pairRemote
        else d.pairFloor).toNat →
      dcb[p]? = some high → dcb[p + 1]? = some low →
      ∃ t, exec (.rmCurtemp d dcb) s = .next t ∧
        OnlyAnswers s t (0x00 :: (le16 (256 * high.toNat + low.toNat) ++ le16 ((256 * high.toNat + low.toNat) / 10) ++
          [lo8 ((256 * high.toNat + low.toNat) % 10)]))) ∧
    (∀ (code : Byte) (p : Nat), dcb[d.offSensel.toNat]? = some code →
      p = (if code = 0 ∨ code = 3 then d.pairBuiltin else if code = 1 ∨ code = 4 then d.pairRemote
        else d.pairFloor).toNat →
      dcb.length ≤ p + 1 → ∃ t, exec (.rmCurtemp d dcb) s = .next t ∧ OnlyAnswers s t [0x83]) ∧
    (dcb.length ≤ d.offSensel.toNat → ∃ t, exec (.rmCurtemp d dcb) s = .next t ∧ OnlyAnswers s t [0x83])

/-- R172: RM.DECODE (opcode 0x20) answers the labelled offsets that the snapshot reaches, in the table's order, each with its label
and its byte unchanged, counted in front; it has no error. -/
def Obligations.DecodeMapsLabelledPresentOffsets : Prop :=
  ∀ (d : Desc) (dcb : Bytes) (s : State), opcode? (.rmDecode d dcb) = some 0x20 ∧
    ∃ (t : State) (es : List (Half × Half × Byte)), exec (.rmDecode d dcb) s = .next t ∧
    OnlyAnswers s t (0x00 :: (le16 es.length ++
      es.flatMap fun e => le16 e.1.toNat ++ le16 e.2.1.toNat ++ [e.2.2])) ∧
    es = d.labels.filterMap fun e => (dcb[e.1.toNat]?).map fun v => (e.1, e.2, v)

/-- R60 and R65: the commands of CE, FC and RM are pure functions of their operands (and of the constants of the
instance): every one of them completes, touches no arbiter state, and answers the same in any two states. -/
def Obligations.PureCommandsDependOnOperandsOnly : Prop :=
  ∀ (i : Instr) (s u : State), isPure i = true → SameConfig s u →
    ∃ (r : Bytes) (t v : State), exec i s = .next t ∧ Answers s t r ∧ exec i u = .next v ∧ Answers u v r

/-! ### Link Arbiter -/

/-- R205: LA.REGISTER (opcode 0x30) refuses an address outside 1..32 with `AddrOutOfRange` and a registered one with
`DuplicateAddressError`, changing nothing; a free one it registers, changing nothing else, and answers `OK`. -/
def Obligations.RegisterIsTestAndSet : Prop :=
  (∀ address : Byte, opcode? (.laRegister address) = some 0x30) ∧
  (∀ (address : Byte) (s : State), (address.toNat < 1 ∨ 32 < address.toNat) →
    ∃ t, exec (.laRegister address) s = .next t ∧ OnlyAnswers s t [0x81]) ∧
  (∀ (a : BusAddr) (s : State), s.regv[a] = true →
    ∃ t, exec (.laRegister (busByte a)) s = .next t ∧ OnlyAnswers s t [0x0D]) ∧
  (∀ (a : BusAddr) (s : State), s.regv[a] = false →
    ∃ t, exec (.laRegister (busByte a)) s = .next t ∧ t.regv[a] = true ∧
      OnlyAnswers { s with regv := s.regv.set a true } t [0x00])

/-- R208: LA.EXCHANGE posts any frame for a registered address whose slot is idle: the slot is pending and the client is
blocked; no other slot, register, response, constant or transport answer changes. Outside 1..32 it answers
`AddrOutOfRange`, unregistered `NotRegistered`, with an exchange outstanding `Busy`, and changes nothing. -/
def Obligations.ExchangePostsItsFrame : Prop :=
  (∀ (address : Byte) (frame : Bytes) (s : State), (address.toNat < 1 ∨ 32 < address.toNat) →
    ∃ t, exec (.laExchange address frame) s = .next t ∧ OnlyAnswers s t [0x81]) ∧
  (∀ (a : BusAddr) (frame : Bytes) (s : State), s.regv[a] = false →
    ∃ t, exec (.laExchange (busByte a) frame) s = .next t ∧ OnlyAnswers s t [0x82]) ∧
  (∀ (a : BusAddr) (frame : Bytes) (s : State), s.regv[a] = true → s.req[a] ≠ .idle →
    ∃ t, exec (.laExchange (busByte a) frame) s = .next t ∧ OnlyAnswers s t [0x85]) ∧
  (∀ (a : BusAddr) (frame : Bytes) (s : State), s.regv[a] = true → s.req[a] = .idle →
    ∃ t, exec (.laExchange (busByte a) frame) s = .next t ∧ t.req = s.req.set a (.pending frame) ∧
      t.clients = s.clients.modify s.cur (fun c => { c with status := .blocked a }) ∧ t.regv = s.regv ∧
      t.lock = s.lock ∧ t.owner = s.owner ∧ t.hist = s.hist ∧ t.ce = s.ce ∧ t.env = s.env ∧ SameConfig s t)

/-- R210 and R214: the grant step of a pending slot, with `LOCK = 0` and, under `fifo`, the slot longest pending. The
frame goes into `HIST` and to `TxWrite`; on `ok` the link is held for it, on `IoError` the exchange ends with that kind,
no read is made, the link is free and the slot idle. Of the transport's answers and the turns just the turn and the one
`TxWrite` are used up. -/
def Obligations.GrantWritesTheFrame : Prop :=
  ∀ (s : State) (a : BusAddr) (frame : Bytes) (turns : List Turn),
    s.env.upcoming = .grant a :: turns → s.lock = false → s.req[a] = .pending frame →
    (s.params.arbPolicy = .fifo → s.order.head? = some a) →
    ((afterArbiter s turns).txWrite.1 = .ok → ∃ t, step s = .next t ∧
      t.lock = true ∧ t.owner = a ∧ t.req = s.req.set a (.active frame) ∧ t.hist = s.hist ++ [.wrote a frame] ∧
      t.regv = s.regv ∧ t.ce = s.ce ∧ SameConfig s t ∧ t.clients = s.clients ∧
      t.env = (afterArbiter s turns).txWrite.2.env) ∧
    ((afterArbiter s turns).txWrite.1 = .ioError → ∃ t, step s = .next t ∧
      t.lock = false ∧ t.req = s.req.set a .idle ∧ t.hist = s.hist ++ [.wrote a frame] ∧
      t.regv = s.regv ∧ t.ce = s.ce ∧ SameConfig s t ∧ t.env = (afterArbiter s turns).txWrite.2.env ∧
      ∀ k, s.issuer[a] = some k → t.clients =
        s.clients.modify k fun c => { c with status := .ready, mail := c.mail ++ [[0x0F]] })

/-- R212 and R213: the complete step with `LOCK = 1` makes one read of at most `MAX_FRAME` bytes, records it, frees the
slot and the link, and the waiting client gets `IoTimeout` for an empty read, else `OK` with the bytes, unexamined. Of
the transport's answers and the turns just the turn and the one `RxRead` are used up (what it leaves stays, R296). -/
def Obligations.CompleteAnswersTheReply : Prop :=
  ∀ (s : State) (turns : List Turn) (r : Bytes),
    s.env.upcoming = .complete :: turns → s.lock = true → r = (afterArbiter s turns).rxRead.1 →
    ∃ t, step s = .next t ∧ r.length ≤ s.params.maxFrame.val ∧
      t.lock = false ∧ t.req = s.req.set s.owner .idle ∧ t.hist = s.hist ++ [.read s.owner r] ∧
      t.regv = s.regv ∧ t.ce = s.ce ∧ SameConfig s t ∧
      t.env = (afterArbiter s turns).rxRead.2.env ∧
      ∀ k, s.issuer[s.owner] = some k → t.clients =
        s.clients.modify k fun c =>
          { c with status := .ready, mail := c.mail ++ [if r = [] then [0x01] else 0x00 :: le16 r.length ++ r] }

/-- R204 and R296 on the transport's settled answers (log entry 2): a read returns every byte string of at most
`MAX_FRAME` bytes as it is, and of a longer one the first `MAX_FRAME` bytes, while the rest stays for the next read. -/
def Obligations.ReadReturnsAtMostMaxFrame : Prop :=
  (∀ s : State, s.rxRead.1.length ≤ s.params.maxFrame.val) ∧
  (∀ (s : State) (r : Bytes) (rest : List Bytes), s.env.rx = r :: rest → r.length ≤ s.params.maxFrame.val →
    s.rxRead = (r, { s with env := { s.env with rx := rest } })) ∧
  (∀ (s : State) (r : Bytes) (rest : List Bytes), s.env.rx = r :: rest → s.params.maxFrame.val < r.length →
    s.rxRead = (r.take s.params.maxFrame.val,
      { s with env := { s.env with rx := r.drop s.params.maxFrame.val :: rest } }))

/-- What R217 derives: while `LOCK = 1` a step of any agent leaves `HIST`, `LOCK` and `OWNER` alone, or is the complete step, which
appends the one read of the owner and frees the link; only a reset breaks this. -/
def Obligations.NoEventBetweenWriteAndRead : Prop :=
  ∀ s t : State, s.lock = true → step s = .next t →
    (t.hist = s.hist ∧ t.lock = true ∧ t.owner = s.owner) ∨
    (∃ r, t.hist = s.hist ++ [.read s.owner r] ∧ t.lock = false) ∨
    s.env.upcoming.head? = some .reset

/-- R211 under `fifo`, with the model's record of the post order (log entry 13): a frame that goes out is that of the
slot that heads the order; the order grows at its end with every post, loses the slot granted with every grant, and
changes in no other way but by a reset. -/
def Obligations.FifoGrantsTheLongestPending : Prop :=
  (∀ (s t : State) (a : BusAddr) (frame : Bytes), s.params.arbPolicy = .fifo → step s = .next t →
    t.hist = s.hist ++ [.wrote a frame] → s.order.head? = some a ∧ s.req[a] = .pending frame) ∧
  (∀ (s t : State) (a : BusAddr) (frame : Bytes), step s = .next t →
    (s.req[a] = .idle → t.req[a] = .pending frame → t.order = s.order ++ [a]) ∧
    (t.hist = s.hist ++ [.wrote a frame] → t.order = s.order.erase a)) ∧
  (∀ s t : State, step s = .next t →
    t.order = s.order ∨
    (∃ (a : BusAddr) (frame : Bytes), s.req[a] = .idle ∧ t.req[a] = .pending frame ∧ t.order = s.order ++ [a]) ∨
    (∃ (a : BusAddr) (frame : Bytes), t.hist = s.hist ++ [.wrote a frame] ∧ t.order = s.order.erase a) ∨
    s.env.upcoming.head? = some .reset)

/-- R210, R211, R212 and R218: a turn of an agent that has no enabled step leaves everything else as it is (the turns are
the model's, log entry 1): a grant while `LOCK = 1`, of a slot that is not pending or, under `fifo`, of one that is not the
one pending longest; a complete step while `LOCK = 0`; a client that is blocked or lost, that has nothing to do, or that
does not exist. -/
def Obligations.DisabledTurnsDoNothing : Prop :=
  ∀ (s : State) (u : Turn) (turns : List Turn),
    Settled s u turns → ofAgent u = true → ¬Enabled s u → step s = .next (afterTurn s turns)

/-- R206: no step but a reset takes a registration back. -/
def Obligations.RegistrationClearedOnlyByReset : Prop :=
  ∀ (s t : State) (a : BusAddr), step s = .next t → s.regv[a] = true →
    t.regv[a] = true ∨ (s.env.upcoming.head? = some .reset ∧ ∀ b : BusAddr, t.regv[b] = false)

/-- R31 (a) to (c), with the model's bookkeeping (log entry 13): every step keeps the arbiter's invariant. -/
def Obligations.StepKeepsArbiterInvariant : Prop :=
  ∀ s t : State, s.Inv → step s = .next t → t.Inv

/-- R66 on `HIST`: every step keeps every read right behind the write of its own exchange, and the write of the exchange
in flight last. -/
def Obligations.StepKeepsReadsPaired : Prop :=
  ∀ s t : State, s.HistInv → step s = .next t → t.HistInv

/-- The reset state meets both invariants (R31: "true after reset"). -/
def Obligations.ResetMeetsTheInvariants : Prop :=
  State.reset.Inv ∧ State.reset.HistInv

/-- R20 and R32: no step changes the lookup tables or a parameter. -/
def Obligations.StepKeepsConfiguration : Prop :=
  ∀ s t : State, step s = .next t → SameConfig s t

/-! ### Reset -/

/-- R38: the reset values the spec gives. -/
def Obligations.ResetStateHoldsTheSpecValues : Prop :=
  (∀ a : BusAddr, State.reset.regv[a] = false ∧ State.reset.req[a] = .idle) ∧ State.reset.lock = false ∧
    State.reset.hist = [] ∧ State.reset.lut = Config.ccittLut

/-- R290 to R292: a reset, at any time, leaves no address registered, the lock free, every slot idle and the history
empty; tables, parameters, transport and every client's snapshot, identity, program and received responses stay, and a
client whose request was outstanding is lost. -/
def Obligations.ResetDropsOutstandingExchanges : Prop :=
  ∀ (s : State) (turns : List Turn), s.env.upcoming = .reset :: turns →
    ∃ t, step s = .next t ∧ (∀ a : BusAddr, t.regv[a] = false ∧ t.req[a] = .idle) ∧ t.lock = false ∧ t.hist = [] ∧
      SameConfig s t ∧ t.env = (afterTurn s turns).env ∧ t.clients.length = s.clients.length ∧
      ∀ (k : Nat) (c : Client), s.clients[k]? = some c → ∃ c', t.clients[k]? = some c' ∧
        c' = { c with status := c'.status } ∧
        c'.status = (match c.status with | .ready => .ready | .blocked _ => .lost | .lost => .lost)

/-- R291: a client whose request a reset dropped never receives a response and never steps again: no step changes it,
as long as the arbiter's bookkeeping is consistent (`Inv`, which every step keeps). -/
def Obligations.DroppedRequestsAreNeverAnswered : Prop :=
  ∀ (s t : State) (k : Nat) (c : Client), s.Inv → s.clients[k]? = some c → c.status = .lost →
    step s = .next t → t.clients[k]? = some c

/-! ### Wire frames -/

/-- R83: RQ.READ and RQ.WRITE are exactly what ENC.READ and ENC.WRITE build. -/
def Obligations.RequestFramesAreEncoderOutput : Prop :=
  ∀ (dest source : Byte) (start : Half) (payload : Bytes) (s : State),
    (∃ t, exec (.encRead dest source start) s = .next t ∧
      Answers s t (0x00 :: le16 11 ++ encodeAt s.lut (.rqRead dest source start))) ∧
    (payload.length ≤ s.params.maxFrame.val - 11 →
      ∃ t, exec (.encWrite dest source start payload) s = .next t ∧
        Answers s t (0x00 :: le16 (11 + payload.length) ++ encodeAt s.lut (.rqWrite dest source start payload)))

/-- The model's choice (log entry 9), on R84 and R200: a request frame its host sends, RQ.READ or RQ.WRITE, does what
LA.EXCHANGE of that frame for its byte 0 does, for every destination; in particular it is posted for the address it is
for, when that address is registered and its slot idle. -/
def Obligations.RequestFramesArePosted : Prop :=
  (∀ (dest source : Byte) (start : Half) (payload : Bytes) (s : State),
    exec (.rqRead dest source start) s = exec (.laExchange dest (encodeAt s.lut (.rqRead dest source start))) s ∧
    exec (.rqWrite dest source start payload) s =
      exec (.laExchange dest (encodeAt s.lut (.rqWrite dest source start payload))) s) ∧
  (∀ (i : Instr) (a : BusAddr) (s : State),
    (∃ (source : Byte) (start : Half), i = .rqRead (busByte a) source start ∨
      ∃ payload, i = .rqWrite (busByte a) source start payload) →
    s.regv[a] = true → s.req[a] = .idle →
    exec i s = .next
      { s with
        req := s.req.set a (.pending (encodeAt s.lut i))
        clients := s.clients.modify s.cur fun c => { c with status := .blocked a }
        order := s.order ++ [a]
        issuer := s.issuer.set a (some s.cur) })

/-- The model's choice (log entry 9), on R34 and R83: the bytes of a reply frame, RP.READ or RP.WRITE, reach the transport, behind those that
are there, and nothing else changes. -/
def Obligations.ReplyFramesReachTheTransport : Prop :=
  ∀ (i : Instr) (s : State), i.port = .reply →
    exec i s = .next { s with env := { s.env with rx := s.env.rx ++ [encodeAt s.lut i] } }

/-! ### Errors -/

/-- R251: "All failure kinds are distinguishable": the status codes of the kinds differ from each other and from `OK`. -/
def Obligations.StatusCodesAreDistinct : Prop :=
  (∀ k : ErrKind, k.code ≠ 0x00) ∧ ∀ k k' : ErrKind, k.code = k'.code → k = k'

/-- R255: an instruction that ends in an error kind changes no state of HMPE but the unobservable working registers, and
no host state but the response received. -/
def Obligations.ErrorsChangeNothing : Prop :=
  ∀ (i : Instr) (s t : State) (c : Client) (k : ErrKind), s.clients[s.cur]? = some c → exec i s = .next t →
    t.clients[s.cur]? = some { c with mail := c.mail ++ [[k.code]] } → Answers s t [k.code]

/-- R251: a command ends with exactly one response, except that an LA.EXCHANGE that was posted ends later and blocks its
client until then. -/
def Obligations.CommandsEndWithOneResponse : Prop :=
  ∀ (i : Instr) (s : State), i.port = .command →
    ∃ t, exec i s = .next t ∧
      ((∃ r, r ≠ [] ∧ t.clients = mailed s r) ∨
        ∃ (a : BusAddr) (frame : Bytes), i = .laExchange (busByte a) frame ∧ t.req[a] = .pending frame ∧
          t.clients = s.clients.modify s.cur fun c => { c with status := .blocked a })

/-- R253: the kinds a host may retry are exactly `IoTimeout`, `TooShort`, `BadChecksum`, `WriteLengthMismatch`,
`LengthMismatch` and `IoError`; the fatal, caller-input and configuration kinds are as the rule lists them. -/
def Obligations.RetryClassesOfTheKinds : Prop :=
  (∀ k : ErrKind, k.cls = .transient ↔ k ∈ [ErrKind.ioTimeout, .tooShort, .badChecksum, .writeLengthMismatch,
    .lengthMismatch, .ioError]) ∧
  (∀ k : ErrKind, k.cls = .fatal ↔ k ∈ [ErrKind.illegalDestination, .destinationMismatch, .sourceOutOfRange,
    .sourceMismatch, .unknownFunction, .unexpectedFunction, .fieldAbsent]) ∧
  (∀ k : ErrKind, k.cls = .callerInput ↔ k ∈ [ErrKind.outOfRange, .invalidMode, .illegalCommand, .payloadTooLong]) ∧
  (∀ k : ErrKind, k.cls = .configuration ↔ k ∈ [ErrKind.duplicateAddressError, .addrOutOfRange, .notRegistered, .busy]) ∧
  (∀ k : ErrKind, transientCodes.contains k.code = true ↔ k.cls = .transient)

/-! ### Client sequences -/

/-- R235 to R237: a setter whose value is outside its range ends at once with `OutOfRange` (0x0C) or `InvalidMode`
(0x0E); no command is issued and HMPE does nothing. For a client that has no snapshot yet that is the model's choice (log
entry 23). -/
def Obligations.SettersRejectValuesOutOfRange : Prop :=
  ∀ (s : State) (k : Nat) (c : Client) (id : Identity) (call : HostCall) (retries : Nat) (prog : List Request)
    (turns : List Turn) (v code : Byte),
    IssuesNext s k c (.call call retries) prog turns → c.ident = some id →
    ((call = .setTargetTemperature v ∧ (v.toNat < 5 ∨ 35 < v.toNat) ∧ code = 0x0C) ∨
      (call = .setRunMode v ∧ v ≠ 0 ∧ v ≠ 1 ∧ code = 0x0E) ∨
      (call = .setFrostProtectTemperature v ∧ (v < s.params.frostMin ∨ s.params.frostMax < v) ∧ code = 0x0C)) →
    ∃ t, step s = .next t ∧
      OnlyHost s t k turns fun c => { c with prog := prog, running := none, done := c.done ++ [[code]] }

/-- R235 to R237: a setter whose value is in range issues ENC.WRITE to its register with the one byte as payload; 5 and
35 are in the target's range. For a client that has no snapshot yet that is the model's choice (log entry 23). -/
def Obligations.SettersEncodeOneByteWrites : Prop :=
  ∀ (s : State) (k : Nat) (c : Client) (id : Identity) (call : HostCall) (retries : Nat) (prog : List Request)
    (turns : List Turn) (v : Byte) (start : Half),
    IssuesNext s k c (.call call retries) prog turns → c.ident = some id →
    ((call = .setTargetTemperature v ∧ 5 ≤ v.toNat ∧ v.toNat ≤ 35 ∧ start = s.params.waddrTarget) ∨
      (call = .setRunMode v ∧ (v = 0 ∨ v = 1) ∧ start = s.params.waddrRunmode) ∨
      (call = .setFrostProtectTemperature v ∧ s.params.frostMin ≤ v ∧ v ≤ s.params.frostMax ∧
        start = s.params.waddrFrost)) →
    step s = exec (.encWrite id.addr s.params.masterAddr.toByte start [v])
      (issuing s k turns fun c =>
        { c with prog := prog, running := some ⟨call, .encoded .write, min retries s.params.retryMax⟩ })

/-- R232 and R234: `read_all` and `refresh` begin with ENC.READ to the client's address, from the master, at start 0. -/
def Obligations.ReadAllBeginsWithEncRead : Prop :=
  ∀ (s : State) (k : Nat) (c : Client) (id : Identity) (call : HostCall) (retries : Nat) (prog : List Request)
    (turns : List Turn),
    IssuesNext s k c (.call call retries) prog turns → c.ident = some id → (call = .readAll ∨ call = .refresh) →
    step s = exec (.encRead id.addr s.params.masterAddr.toByte 0)
      (issuing s k turns fun c =>
        { c with prog := prog, running := some ⟨call, .encoded .read, min retries s.params.retryMax⟩ })

/-- R232 and R235: after `OK` from the encoder the call issues LA.EXCHANGE with that frame; after `OK` from it, DEC.VERIFY
of the raw reply with the master, the client's address and the function requested; after `OK` from that, a read stores
the payload as the snapshot and issues RM.DECODE on it, and a write is done with success and leaves the snapshot
alone (R238; for a client that has no snapshot yet the model's choice, log entry 23). After `OK` from RM.DECODE, or from a
getter's RM command (R233), the call ends with that response. -/
def Obligations.HostCallsIssueTheirNextCommand : Prop :=
  (∀ (s : State) (k : Nat) (c : Client) (id : Identity) (call : HostCall) (budget : Nat) (turns : List Turn)
    (body : Bytes),
    TurnOf s k c turns → c.ident = some id → c.mail.getLast? = some (0x00 :: body) →
    c.running = some ⟨call, .last, budget⟩ →
    ∃ t, step s = .next t ∧
      OnlyHost s t k turns fun c => { c with running := none, done := c.done ++ [0x00 :: body] }) ∧
  (∀ (s : State) (k : Nat) (c : Client) (id : Identity) (call : HostCall) (fn : Func) (budget : Nat)
    (turns : List Turn) (p : Bytes),
    TurnOf s k c turns → c.ident = some id → p.length < 65536 →
    c.mail.getLast? = some (0x00 :: (le16 p.length ++ p)) →
    (c.running = some ⟨call, .encoded fn, budget⟩ →
      step s = exec (.laExchange id.addr p)
        (issuing s k turns fun c => { c with running := some ⟨call, .exchanged fn, budget⟩ })) ∧
    (c.running = some ⟨call, .exchanged fn, budget⟩ →
      step s = exec (.decVerify s.params.masterAddr.toByte id.addr fn p)
        (issuing s k turns fun c => { c with running := some ⟨call, .verified fn, budget⟩ })) ∧
    (c.running = some ⟨call, .verified .read, budget⟩ → id.desc.wf = true →
      step s = exec (.rmDecode id.desc p)
        (issuing s k turns fun c => { c with snap := some p, running := some ⟨call, .last, budget⟩ })) ∧
    (c.running = some ⟨call, .verified .write, budget⟩ →
      ∃ t, step s = .next t ∧
        OnlyHost s t k turns fun c => { c with running := none, done := c.done ++ [[0x00]] }))

/-- R232, R257 and R299: a step changes a client's snapshot only where DEC.VERIFY has just answered a full read with `OK`,
and then it is that payload, whole; or, R231 and log entry 20, where LA.REGISTER has just answered a `construct` with
`OK`: the client has the new identity then, and its snapshot is none. -/
def Obligations.SnapshotReplacedOnlyByAVerifiedRead : Prop :=
  ∀ (s t : State) (k : Nat) (c c' : Client), s.clients[k]? = some c → step s = .next t →
    t.clients[k]? = some c' → c'.snap ≠ c.snap →
    (∃ (r : Running) (body : Bytes), c.running = some r ∧ r.stage = .verified .read ∧
      c.mail.getLast? = some (0x00 :: body) ∧ c'.snap = some (body.drop 2)) ∨
    (∃ (r : Running) (addr : Byte) (desc : Desc) (body : Bytes), c.running = some r ∧ r.stage = .registered addr desc ∧
      c.mail.getLast? = some (0x00 :: body) ∧ c'.ident = some ⟨addr, desc⟩ ∧ c'.snap = none)

/-- R233: a getter issues the one RM command of its field on the cached snapshot, a raw one for every offset, labelled or
not (the model's choice, log entry 21); without a snapshot it has no meaning and the step is refused (R240). -/
def Obligations.GettersReadTheCachedSnapshot : Prop :=
  ∀ (s : State) (k : Nat) (c : Client) (id : Identity) (call : HostCall) (retries : Nat) (prog : List Request)
    (turns : List Turn) (i : Desc → Bytes → Instr),
    IssuesNext s k c (.call call retries) prog turns → c.ident = some id →
    ((call = .getTemperatureFormat ∧ i = .rmTfmt) ∨ (call = .getTargetTemperature ∧ i = .rmTarget) ∨
      (call = .getFrostTemperature ∧ i = .rmFrost) ∨ (call = .getSensorSelection ∧ i = .rmSensel) ∨
      (call = .getCurrentTemperature ∧ i = .rmCurtemp) ∨ (call = .getRunMode ∧ i = .rmRunmode) ∨
      (call = .getHeatState ∧ i = .rmHeat) ∨ ∃ o, call = .getRaw o ∧ i = fun _ dcb => .rmRaw o dcb) →
    (c.snap = none → step s = .refused .getterBeforeFirstRead) ∧
    (∀ p, c.snap = some p → p.length < 65536 → id.desc.wf = true →
      step s = exec (i id.desc p)
        (issuing s k turns fun c => { c with prog := prog, running := some ⟨call, .last, 0⟩ }))

/-- R231: `construct` issues LA.REGISTER for its address, for a client that was made before too (log entry 20); after `OK`
the client has that identity and no snapshot. The model's choice (log entry 20): every other call of a client that has no
identity is refused. -/
def Obligations.ConstructRegistersTheAddress : Prop :=
  (∀ (s : State) (k : Nat) (c : Client) (addr : Byte) (desc : Desc) (retries : Nat) (prog : List Request)
    (turns : List Turn),
    IssuesNext s k c (.call (.construct addr desc) retries) prog turns →
    step s = exec (.laRegister addr)
      (issuing s k turns fun c =>
        { c with prog := prog, running := some ⟨.construct addr desc, .registered addr desc, 0⟩ })) ∧
  (∀ (s : State) (k : Nat) (c : Client) (call : HostCall) (addr : Byte) (desc : Desc) (budget : Nat)
    (turns : List Turn),
    TurnOf s k c turns → c.running = some ⟨call, .registered addr desc, budget⟩ → c.mail.getLast? = some [0x00] →
    ∃ t, step s = .next t ∧ OnlyHost s t k turns fun c =>
      { c with ident := some ⟨addr, desc⟩, snap := none, running := none, done := c.done ++ [[0x00]] }) ∧
  (∀ (s : State) (k : Nat) (c : Client) (call : HostCall) (retries : Nat) (prog : List Request) (turns : List Turn),
    IssuesNext s k c (.call call retries) prog turns → c.ident = none →
    (∀ (addr : Byte) (desc : Desc), call ≠ .construct addr desc) → step s = .refused .clientNotConstructed)

/-- R238, R239 and R231: a call whose last response is an error kind, a `construct` too, ends with that kind when the kind
is not transient or its retries are used up; otherwise it begins again from the encoder on, with one retry less: a full
read with ENC.READ, a setter with ENC.WRITE of the same value to the same register (for a client that has no snapshot yet
the model's choice, log entry 23). In every case the snapshot stays. -/
def Obligations.OnlyTransientErrorsAreRetried : Prop :=
  ∀ (s : State) (k : Nat) (c : Client) (r : Running) (kind : ErrKind) (turns : List Turn),
    TurnOf s k c turns → c.running = some r → c.mail.getLast? = some [kind.code] →
    ((kind.cls ≠ .transient ∨ r.budget = 0) →
      ∃ t, step s = .next t ∧
        OnlyHost s t k turns fun c => { c with running := none, done := c.done ++ [[kind.code]] }) ∧
    (∀ id : Identity, c.ident = some id → kind.cls = .transient → 0 < r.budget →
      ((r.call = .readAll ∨ r.call = .refresh) →
        step s = exec (.encRead id.addr s.params.masterAddr.toByte 0)
          (issuing s k turns fun c => { c with running := some ⟨r.call, .encoded .read, r.budget - 1⟩ })) ∧
      (∀ (v : Byte) (start : Half),
        ((r.call = .setTargetTemperature v ∧ 5 ≤ v.toNat ∧ v.toNat ≤ 35 ∧ start = s.params.waddrTarget) ∨
          (r.call = .setRunMode v ∧ (v = 0 ∨ v = 1) ∧ start = s.params.waddrRunmode) ∨
          (r.call = .setFrostProtectTemperature v ∧ s.params.frostMin ≤ v ∧ v ≤ s.params.frostMax ∧
            start = s.params.waddrFrost)) →
        step s = exec (.encWrite id.addr s.params.masterAddr.toByte start [v])
          (issuing s k turns fun c => { c with running := some ⟨r.call, .encoded .write, r.budget - 1⟩ })))

/-- R295 and R296: use of the transport outside LA.EXCHANGE has no meaning; draining it is such use while an exchange is
outstanding, and at any other time it removes what the transport holds and changes nothing else. -/
def Obligations.TransportIsUsedByExchangeOnly : Prop :=
  (∀ (s : State) (turns : List Turn), s.env.upcoming = .hostTransport :: turns →
    step s = .refused .transportOutsideExchange) ∧
  (∀ (s : State) (turns : List Turn) (a : BusAddr), s.env.upcoming = .drain :: turns → s.req[a] ≠ .idle →
    step s = .refused .transportOutsideExchange) ∧
  (∀ (s : State) (turns : List Turn), s.env.upcoming = .drain :: turns → (∀ a : BusAddr, s.req[a] = .idle) →
    step s = .next { afterTurn s turns with env := { (afterTurn s turns).env with rx := [] } })

/-! ### Who moves -/

/-- R201, R210, R211, R212 and R218, where no turn is settled or an overdue arbiter goes first (log entries 1, 11 and 22):
the turn that is taken is that of an agent that has an enabled step, the arbiter's where it is overdue; some turn is taken
whenever any agent has one; it does what it does as a settled turn, and the settled turns stay for later. Where nothing is
settled and no agent has an enabled step the machine waits. -/
def Obligations.OpenTurnsAreEnabled : Prop :=
  (∀ (s : State) (u : Turn), openTurn s = some u → Enabled s u ∧ (overdue s = true → ∀ k : Nat, u ≠ .client k)) ∧
  (∀ (s : State) (u : Turn), Enabled s u → openTurn s ≠ none) ∧
  (∀ (s : State) (u : Turn), (∀ (v : Turn) (turns : List Turn), ¬Settled s v turns) → openTurn s = some u →
    step s = step { s with env := { s.env with turns := u :: s.env.upcoming, seq := s.env.seq + 1 } }) ∧
  (∀ s : State, s.env.upcoming = [] → (∀ u : Turn, ¬Enabled s u) → step s = .next s)

/-- R211, "granted after at most 31 other exchanges" under `fifo`: at most 31 requests are ahead of a pending one, no step
but a reset puts one more ahead of it, and each grant to another address takes one away; it stays pending until its own
grant. -/
def Obligations.FifoWaitIsBounded : Prop :=
  ∀ (s t : State) (a : BusAddr), s.Inv → s.params.arbPolicy = .fifo → a ∈ s.order → step s = .next t →
    s.env.upcoming.head? ≠ some .reset →
    s.order.idxOf a ≤ 31 ∧
    ((∃ frame, t.hist = s.hist ++ [.wrote a frame]) ∨
      (a ∈ t.order ∧ t.order.idxOf a ≤ s.order.idxOf a ∧
        ∀ (b : BusAddr) (frame : Bytes), t.hist = s.hist ++ [.wrote b frame] →
          t.order.idxOf a + 1 = s.order.idxOf a))

/-- R219, "A run in which a request stays `PENDING` for ever exists under `ARB_POLICY = any` when other clients post without
end": from a state that meets the arbiter's invariant there is a run without end in which address `a`'s request stays
pending and is never granted, while the history, which is of other addresses, grows without bound. Another client posts
over and over, a settled schedule grants it (log entries 1 and 7). -/
def Obligations.RequestsCanWaitForEver : Prop :=
  ∃ (s : State) (a : BusAddr) (frame : Bytes), s.Inv ∧ s.params.arbPolicy = .any ∧ s.req[a] = .pending frame ∧
    ∀ n : Nat, ∃ t, Sys2Proof.core.run n s = .next t ∧ t.req[a] = .pending frame ∧
      (∀ f : Bytes, .wrote a f ∉ t.hist) ∧ n ≤ 3 * t.hist.length + 3

/-- R70 and R219, "the lock is always released and a run in which an exchange stays `ACTIVE` for ever does not exist", and
R211's promise that the arbiter grants some waiting request (that it moves in time is log entry 22). While the link is held
a step frees it or is one of a bounded number that leave it held; so a run from there, long enough, passes a state in which
the link is free. While it is free and a request waits, a step writes some frame, is a reset, or is one of a bounded number
that do neither. -/
def Obligations.GrantedExchangesEnd : Prop :=
  (∀ s t : State, s.Inv → s.lock = true → step s = .next t →
    t.lock = false ∨
    (t.lock = true ∧ t.owner = s.owner ∧ t.hist = s.hist ∧ t.env.patience = s.env.patience ∧
      t.env.idle = s.env.idle + 1 ∧ s.env.idle ≤ s.env.patience)) ∧
  (∀ (s t : State) (n : Nat), s.Inv → s.env.patience + 1 < n + s.env.idle → 0 < n → Sys2Proof.core.run n s = .next t →
    ∃ (m : Nat) (u : State), m ≤ n ∧ Sys2Proof.core.run m s = .next u ∧ u.lock = false) ∧
  (∀ (s t : State) (a : BusAddr) (frame : Bytes), s.Inv → s.lock = false → s.req[a] = .pending frame →
    step s = .next t →
    (∃ (b : BusAddr) (f : Bytes), t.hist = s.hist ++ [.wrote b f]) ∨ s.env.upcoming.head? = some .reset ∨
    (t.lock = false ∧ t.hist = s.hist ∧ t.req[a] = .pending frame ∧ t.env.patience = s.env.patience ∧
      t.env.idle = s.env.idle + 1 ∧ s.env.idle ≤ s.env.patience))
end

