-- ==== Sys2Proof/Laws/State.lean ====
section
/-! SUPPORT. One lemma per field per update of the state, so that no proof unfolds a record update. -/

namespace Sys2Proof.Machine.State

@[simp] theorem setCe_ce (s : State) (c : Ce) : (s.setCe c).ce = c := rfl
@[simp] theorem setCe_lut (s : State) (c : Ce) : (s.setCe c).lut = s.lut := rfl
@[simp] theorem setCe_regv (s : State) (c : Ce) : (s.setCe c).regv = s.regv := rfl
@[simp] theorem setCe_lock (s : State) (c : Ce) : (s.setCe c).lock = s.lock := rfl
@[simp] theorem setCe_owner (s : State) (c : Ce) : (s.setCe c).owner = s.owner := rfl
@[simp] theorem setCe_req (s : State) (c : Ce) : (s.setCe c).req = s.req := rfl
@[simp] theorem setCe_params (s : State) (c : Ce) : (s.setCe c).params = s.params := rfl
@[simp] theorem setCe_hist (s : State) (c : Ce) : (s.setCe c).hist = s.hist := rfl
@[simp] theorem setCe_order (s : State) (c : Ce) : (s.setCe c).order = s.order := rfl
@[simp] theorem setCe_issuer (s : State) (c : Ce) : (s.setCe c).issuer = s.issuer := rfl
@[simp] theorem setCe_clients (s : State) (c : Ce) : (s.setCe c).clients = s.clients := rfl
@[simp] theorem setCe_cur (s : State) (c : Ce) : (s.setCe c).cur = s.cur := rfl
@[simp] theorem setCe_env (s : State) (c : Ce) : (s.setCe c).env = s.env := rfl

@[simp] theorem setSlot_ce (s : State) (a : BusAddr) (v : Slot) : (s.setSlot a v).ce = s.ce := rfl
@[simp] theorem setSlot_lut (s : State) (a : BusAddr) (v : Slot) : (s.setSlot a v).lut = s.lut := rfl
@[simp] theorem setSlot_regv (s : State) (a : BusAddr) (v : Slot) : (s.setSlot a v).regv = s.regv := rfl
@[simp] theorem setSlot_lock (s : State) (a : BusAddr) (v : Slot) : (s.setSlot a v).lock = s.lock := rfl
@[simp] theorem setSlot_owner (s : State) (a : BusAddr) (v : Slot) : (s.setSlot a v).owner = s.owner := rfl
@[simp] theorem setSlot_req (s : State) (a : BusAddr) (v : Slot) : (s.setSlot a v).req = s.req.set a v := rfl
@[simp] theorem setSlot_params (s : State) (a : BusAddr) (v : Slot) : (s.setSlot a v).params = s.params := rfl
@[simp] theorem setSlot_hist (s : State) (a : BusAddr) (v : Slot) : (s.setSlot a v).hist = s.hist := rfl
@[simp] theorem setSlot_order (s : State) (a : BusAddr) (v : Slot) : (s.setSlot a v).order = s.order := rfl
@[simp] theorem setSlot_issuer (s : State) (a : BusAddr) (v : Slot) : (s.setSlot a v).issuer = s.issuer := rfl
@[simp] theorem setSlot_clients (s : State) (a : BusAddr) (v : Slot) : (s.setSlot a v).clients = s.clients := rfl
@[simp] theorem setSlot_cur (s : State) (a : BusAddr) (v : Slot) : (s.setSlot a v).cur = s.cur := rfl
@[simp] theorem setSlot_env (s : State) (a : BusAddr) (v : Slot) : (s.setSlot a v).env = s.env := rfl

@[simp] theorem setReg_ce (s : State) (a : BusAddr) : (s.setReg a).ce = s.ce := rfl
@[simp] theorem setReg_lut (s : State) (a : BusAddr) : (s.setReg a).lut = s.lut := rfl
@[simp] theorem setReg_regv (s : State) (a : BusAddr) : (s.setReg a).regv = s.regv.set a true := rfl
@[simp] theorem setReg_lock (s : State) (a : BusAddr) : (s.setReg a).lock = s.lock := rfl
@[simp] theorem setReg_owner (s : State) (a : BusAddr) : (s.setReg a).owner = s.owner := rfl
@[simp] theorem setReg_req (s : State) (a : BusAddr) : (s.setReg a).req = s.req := rfl
@[simp] theorem setReg_params (s : State) (a : BusAddr) : (s.setReg a).params = s.params := rfl
@[simp] theorem setReg_hist (s : State) (a : BusAddr) : (s.setReg a).hist = s.hist := rfl
@[simp] theorem setReg_order (s : State) (a : BusAddr) : (s.setReg a).order = s.order := rfl
@[simp] theorem setReg_issuer (s : State) (a : BusAddr) : (s.setReg a).issuer = s.issuer := rfl
@[simp] theorem setReg_clients (s : State) (a : BusAddr) : (s.setReg a).clients = s.clients := rfl
@[simp] theorem setReg_cur (s : State) (a : BusAddr) : (s.setReg a).cur = s.cur := rfl
@[simp] theorem setReg_env (s : State) (a : BusAddr) : (s.setReg a).env = s.env := rfl

@[simp] theorem setLock_ce (s : State) (b : Bool) : (s.setLock b).ce = s.ce := rfl
@[simp] theorem setLock_lut (s : State) (b : Bool) : (s.setLock b).lut = s.lut := rfl
@[simp] theorem setLock_regv (s : State) (b : Bool) : (s.setLock b).regv = s.regv := rfl
@[simp] theorem setLock_lock (s : State) (b : Bool) : (s.setLock b).lock = b := rfl
@[simp] theorem setLock_owner (s : State) (b : Bool) : (s.setLock b).owner = s.owner := rfl
@[simp] theorem setLock_req (s : State) (b : Bool) : (s.setLock b).req = s.req := rfl
@[simp] theorem setLock_params (s : State) (b : Bool) : (s.setLock b).params = s.params := rfl
@[simp] theorem setLock_hist (s : State) (b : Bool) : (s.setLock b).hist = s.hist := rfl
@[simp] theorem setLock_order (s : State) (b : Bool) : (s.setLock b).order = s.order := rfl
@[simp] theorem setLock_issuer (s : State) (b : Bool) : (s.setLock b).issuer = s.issuer := rfl
@[simp] theorem setLock_clients (s : State) (b : Bool) : (s.setLock b).clients = s.clients := rfl
@[simp] theorem setLock_cur (s : State) (b : Bool) : (s.setLock b).cur = s.cur := rfl
@[simp] theorem setLock_env (s : State) (b : Bool) : (s.setLock b).env = s.env := rfl

@[simp] theorem setOwner_ce (s : State) (a : BusAddr) : (s.setOwner a).ce = s.ce := rfl
@[simp] theorem setOwner_lut (s : State) (a : BusAddr) : (s.setOwner a).lut = s.lut := rfl
@[simp] theorem setOwner_regv (s : State) (a : BusAddr) : (s.setOwner a).regv = s.regv := rfl
@[simp] theorem setOwner_lock (s : State) (a : BusAddr) : (s.setOwner a).lock = s.lock := rfl
@[simp] theorem setOwner_owner (s : State) (a : BusAddr) : (s.setOwner a).owner = a := rfl
@[simp] theorem setOwner_req (s : State) (a : BusAddr) : (s.setOwner a).req = s.req := rfl
@[simp] theorem setOwner_params (s : State) (a : BusAddr) : (s.setOwner a).params = s.params := rfl
@[simp] theorem setOwner_hist (s : State) (a : BusAddr) : (s.setOwner a).hist = s.hist := rfl
@[simp] theorem setOwner_order (s : State) (a : BusAddr) : (s.setOwner a).order = s.order := rfl
@[simp] theorem setOwner_issuer (s : State) (a : BusAddr) : (s.setOwner a).issuer = s.issuer := rfl
@[simp] theorem setOwner_clients (s : State) (a : BusAddr) : (s.setOwner a).clients = s.clients := rfl
@[simp] theorem setOwner_cur (s : State) (a : BusAddr) : (s.setOwner a).cur = s.cur := rfl
@[simp] theorem setOwner_env (s : State) (a : BusAddr) : (s.setOwner a).env = s.env := rfl

@[simp] theorem setOrder_ce (s : State) (o : List BusAddr) : (s.setOrder o).ce = s.ce := rfl
@[simp] theorem setOrder_lut (s : State) (o : List BusAddr) : (s.setOrder o).lut = s.lut := rfl
@[simp] theorem setOrder_regv (s : State) (o : List BusAddr) : (s.setOrder o).regv = s.regv := rfl
@[simp] theorem setOrder_lock (s : State) (o : List BusAddr) : (s.setOrder o).lock = s.lock := rfl
@[simp] theorem setOrder_owner (s : State) (o : List BusAddr) : (s.setOrder o).owner = s.owner := rfl
@[simp] theorem setOrder_req (s : State) (o : List BusAddr) : (s.setOrder o).req = s.req := rfl
@[simp] theorem setOrder_params (s : State) (o : List BusAddr) : (s.setOrder o).params = s.params := rfl
@[simp] theorem setOrder_hist (s : State) (o : List BusAddr) : (s.setOrder o).hist = s.hist := rfl
@[simp] theorem setOrder_order (s : State) (o : List BusAddr) : (s.setOrder o).order = o := rfl
@[simp] theorem setOrder_issuer (s : State) (o : List BusAddr) : (s.setOrder o).issuer = s.issuer := rfl
@[simp] theorem setOrder_clients (s : State) (o : List BusAddr) : (s.setOrder o).clients = s.clients := rfl
@[simp] theorem setOrder_cur (s : State) (o : List BusAddr) : (s.setOrder o).cur = s.cur := rfl
@[simp] theorem setOrder_env (s : State) (o : List BusAddr) : (s.setOrder o).env = s.env := rfl

@[simp] theorem setIssuer_ce (s : State) (a : BusAddr) (o : Option Nat) : (s.setIssuer a o).ce = s.ce := rfl
@[simp] theorem setIssuer_lut (s : State) (a : BusAddr) (o : Option Nat) : (s.setIssuer a o).lut = s.lut := rfl
@[simp] theorem setIssuer_regv (s : State) (a : BusAddr) (o : Option Nat) : (s.setIssuer a o).regv = s.regv := rfl
@[simp] theorem setIssuer_lock (s : State) (a : BusAddr) (o : Option Nat) : (s.setIssuer a o).lock = s.lock := rfl
@[simp] theorem setIssuer_owner (s : State) (a : BusAddr) (o : Option Nat) : (s.setIssuer a o).owner = s.owner := rfl
@[simp] theorem setIssuer_req (s : State) (a : BusAddr) (o : Option Nat) : (s.setIssuer a o).req = s.req := rfl
@[simp] theorem setIssuer_params (s : State) (a : BusAddr) (o : Option Nat) : (s.setIssuer a o).params = s.params := rfl
@[simp] theorem setIssuer_hist (s : State) (a : BusAddr) (o : Option Nat) : (s.setIssuer a o).hist = s.hist := rfl
@[simp] theorem setIssuer_order (s : State) (a : BusAddr) (o : Option Nat) : (s.setIssuer a o).order = s.order := rfl
@[simp] theorem setIssuer_issuer (s : State) (a : BusAddr) (o : Option Nat) : (s.setIssuer a o).issuer = s.issuer.set a o := rfl
@[simp] theorem setIssuer_clients (s : State) (a : BusAddr) (o : Option Nat) : (s.setIssuer a o).clients = s.clients := rfl
@[simp] theorem setIssuer_cur (s : State) (a : BusAddr) (o : Option Nat) : (s.setIssuer a o).cur = s.cur := rfl
@[simp] theorem setIssuer_env (s : State) (a : BusAddr) (o : Option Nat) : (s.setIssuer a o).env = s.env := rfl

@[simp] theorem setCur_ce (s : State) (k : Nat) : (s.setCur k).ce = s.ce := rfl
@[simp] theorem setCur_lut (s : State) (k : Nat) : (s.setCur k).lut = s.lut := rfl
@[simp] theorem setCur_regv (s : State) (k : Nat) : (s.setCur k).regv = s.regv := rfl
@[simp] theorem setCur_lock (s : State) (k : Nat) : (s.setCur k).lock = s.lock := rfl
@[simp] theorem setCur_owner (s : State) (k : Nat) : (s.setCur k).owner = s.owner := rfl
@[simp] theorem setCur_req (s : State) (k : Nat) : (s.setCur k).req = s.req := rfl
@[simp] theorem setCur_params (s : State) (k : Nat) : (s.setCur k).params = s.params := rfl
@[simp] theorem setCur_hist (s : State) (k : Nat) : (s.setCur k).hist = s.hist := rfl
@[simp] theorem setCur_order (s : State) (k : Nat) : (s.setCur k).order = s.order := rfl
@[simp] theorem setCur_issuer (s : State) (k : Nat) : (s.setCur k).issuer = s.issuer := rfl
@[simp] theorem setCur_clients (s : State) (k : Nat) : (s.setCur k).clients = s.clients := rfl
@[simp] theorem setCur_cur (s : State) (k : Nat) : (s.setCur k).cur = k := rfl
@[simp] theorem setCur_env (s : State) (k : Nat) : (s.setCur k).env = s.env := rfl

@[simp] theorem setEnv_ce (s : State) (e : Env) : (s.setEnv e).ce = s.ce := rfl
@[simp] theorem setEnv_lut (s : State) (e : Env) : (s.setEnv e).lut = s.lut := rfl
@[simp] theorem setEnv_regv (s : State) (e : Env) : (s.setEnv e).regv = s.regv := rfl
@[simp] theorem setEnv_lock (s : State) (e : Env) : (s.setEnv e).lock = s.lock := rfl
@[simp] theorem setEnv_owner (s : State) (e : Env) : (s.setEnv e).owner = s.owner := rfl
@[simp] theorem setEnv_req (s : State) (e : Env) : (s.setEnv e).req = s.req := rfl
@[simp] theorem setEnv_params (s : State) (e : Env) : (s.setEnv e).params = s.params := rfl
@[simp] theorem setEnv_hist (s : State) (e : Env) : (s.setEnv e).hist = s.hist := rfl
@[simp] theorem setEnv_order (s : State) (e : Env) : (s.setEnv e).order = s.order := rfl
@[simp] theorem setEnv_issuer (s : State) (e : Env) : (s.setEnv e).issuer = s.issuer := rfl
@[simp] theorem setEnv_clients (s : State) (e : Env) : (s.setEnv e).clients = s.clients := rfl
@[simp] theorem setEnv_cur (s : State) (e : Env) : (s.setEnv e).cur = s.cur := rfl
@[simp] theorem setEnv_env (s : State) (e : Env) : (s.setEnv e).env = e := rfl

@[simp] theorem pushHist_ce (s : State) (e : Event) : (s.pushHist e).ce = s.ce := rfl
@[simp] theorem pushHist_lut (s : State) (e : Event) : (s.pushHist e).lut = s.lut := rfl
@[simp] theorem pushHist_regv (s : State) (e : Event) : (s.pushHist e).regv = s.regv := rfl
@[simp] theorem pushHist_lock (s : State) (e : Event) : (s.pushHist e).lock = s.lock := rfl
@[simp] theorem pushHist_owner (s : State) (e : Event) : (s.pushHist e).owner = s.owner := rfl
@[simp] theorem pushHist_req (s : State) (e : Event) : (s.pushHist e).req = s.req := rfl
@[simp] theorem pushHist_params (s : State) (e : Event) : (s.pushHist e).params = s.params := rfl
@[simp] theorem pushHist_hist (s : State) (e : Event) : (s.pushHist e).hist = s.hist ++ [e] := rfl
@[simp] theorem pushHist_order (s : State) (e : Event) : (s.pushHist e).order = s.order := rfl
@[simp] theorem pushHist_issuer (s : State) (e : Event) : (s.pushHist e).issuer = s.issuer := rfl
@[simp] theorem pushHist_clients (s : State) (e : Event) : (s.pushHist e).clients = s.clients := rfl
@[simp] theorem pushHist_cur (s : State) (e : Event) : (s.pushHist e).cur = s.cur := rfl
@[simp] theorem pushHist_env (s : State) (e : Event) : (s.pushHist e).env = s.env := rfl

@[simp] theorem onClient_ce (s : State) (k : Nat) (f : Client → Client) : (s.onClient k f).ce = s.ce := rfl
@[simp] theorem onClient_lut (s : State) (k : Nat) (f : Client → Client) : (s.onClient k f).lut = s.lut := rfl
@[simp] theorem onClient_regv (s : State) (k : Nat) (f : Client → Client) : (s.onClient k f).regv = s.regv := rfl
@[simp] theorem onClient_lock (s : State) (k : Nat) (f : Client → Client) : (s.onClient k f).lock = s.lock := rfl
@[simp] theorem onClient_owner (s : State) (k : Nat) (f : Client → Client) : (s.onClient k f).owner = s.owner := rfl
@[simp] theorem onClient_req (s : State) (k : Nat) (f : Client → Client) : (s.onClient k f).req = s.req := rfl
@[simp] theorem onClient_params (s : State) (k : Nat) (f : Client → Client) : (s.onClient k f).params = s.params := rfl
@[simp] theorem onClient_hist (s : State) (k : Nat) (f : Client → Client) : (s.onClient k f).hist = s.hist := rfl
@[simp] theorem onClient_order (s : State) (k : Nat) (f : Client → Client) : (s.onClient k f).order = s.order := rfl
@[simp] theorem onClient_issuer (s : State) (k : Nat) (f : Client → Client) : (s.onClient k f).issuer = s.issuer := rfl
@[simp] theorem onClient_clients (s : State) (k : Nat) (f : Client → Client) : (s.onClient k f).clients = s.clients.modify k f := rfl
@[simp] theorem onClient_cur (s : State) (k : Nat) (f : Client → Client) : (s.onClient k f).cur = s.cur := rfl
@[simp] theorem onClient_env (s : State) (k : Nat) (f : Client → Client) : (s.onClient k f).env = s.env := rfl

@[simp] theorem mailTo_ce (s : State) (k : Nat) (r : Bytes) : (s.mailTo k r).ce = s.ce := rfl
@[simp] theorem mailTo_lut (s : State) (k : Nat) (r : Bytes) : (s.mailTo k r).lut = s.lut := rfl
@[simp] theorem mailTo_regv (s : State) (k : Nat) (r : Bytes) : (s.mailTo k r).regv = s.regv := rfl
@[simp] theorem mailTo_lock (s : State) (k : Nat) (r : Bytes) : (s.mailTo k r).lock = s.lock := rfl
@[simp] theorem mailTo_owner (s : State) (k : Nat) (r : Bytes) : (s.mailTo k r).owner = s.owner := rfl
@[simp] theorem mailTo_req (s : State) (k : Nat) (r : Bytes) : (s.mailTo k r).req = s.req := rfl
@[simp] theorem mailTo_params (s : State) (k : Nat) (r : Bytes) : (s.mailTo k r).params = s.params := rfl
@[simp] theorem mailTo_hist (s : State) (k : Nat) (r : Bytes) : (s.mailTo k r).hist = s.hist := rfl
@[simp] theorem mailTo_order (s : State) (k : Nat) (r : Bytes) : (s.mailTo k r).order = s.order := rfl
@[simp] theorem mailTo_issuer (s : State) (k : Nat) (r : Bytes) : (s.mailTo k r).issuer = s.issuer := rfl
@[simp] theorem mailTo_clients (s : State) (k : Nat) (r : Bytes) : (s.mailTo k r).clients = s.clients.modify k fun c => { c with mail := c.mail ++ [r] } := rfl
@[simp] theorem mailTo_cur (s : State) (k : Nat) (r : Bytes) : (s.mailTo k r).cur = s.cur := rfl
@[simp] theorem mailTo_env (s : State) (k : Nat) (r : Bytes) : (s.mailTo k r).env = s.env := rfl

/-! The responses are all one `mailTo`. -/

@[simp] theorem respond_eq (s : State) (r : Bytes) : s.respond r = s.mailTo s.cur r := rfl
@[simp] theorem finish_eq (s : State) (r : Result) : s.finish r = s.mailTo s.cur (okBytes r) := rfl
@[simp] theorem raise_eq (s : State) (k : ErrKind) : s.raise k = s.mailTo s.cur (errBytes k) := rfl
@[simp] theorem arrived_eq (s : State) (raw : Bytes) : s.arrived raw = s.setEnv { s.env with rx := s.env.rx ++ [raw] } := rfl
@[simp] theorem setCe_self (s : State) : s.setCe s.ce = s := rfl

end Sys2Proof.Machine.State
end

