-- ==== Sys2Proof/Laws/Codec.lean ====
section
/-! SUPPORT. Byte order and operands: each operand form reads back what the encoder wrote, whatever follows it. -/

namespace Sys2Proof

@[simp] theorem lo8_toNat (v : Nat) : (lo8 v).toNat = v % 256 := by simp [lo8]

@[simp] theorem hi8_toNat (v : Nat) : (hi8 v).toNat = v / 256 % 256 := by simp [hi8]

theorem u16_lt (l h : Byte) : u16 l h < 65536 := by
  have := l.isLt; have := h.isLt; unfold u16; omega

@[simp] theorem u16_lo8_hi8 (v : Nat) : u16 (lo8 v) (hi8 v) = v % 65536 := by
  simp [u16]; omega

@[simp] theorem lo8_u16 (l h : Byte) : lo8 (u16 l h) = l := by
  apply BitVec.eq_of_toNat_eq; have := l.isLt; simp [u16]; omega

@[simp] theorem hi8_u16 (l h : Byte) : hi8 (u16 l h) = h := by
  apply BitVec.eq_of_toNat_eq; have := l.isLt; have := h.isLt; simp [u16]; omega

@[simp] theorem half_toNat (l h : Byte) : (half l h).toNat = u16 l h := by
  have := u16_lt l h; simp [half]; omega

@[simp] theorem half_lo8_hi8 (v : Half) : half (lo8 v.toNat) (hi8 v.toNat) = v := by
  apply BitVec.eq_of_toNat_eq; have := v.isLt; simp; omega

@[simp] theorem le16_length (v : Nat) : (le16 v).length = 2 := rfl

@[simp] theorem takeHalf_encHalf (v : Half) (rest : Bytes) : takeHalf (encHalf v ++ rest) = .ok (v, rest) := by
  simp [encHalf, le16, takeHalf]

@[simp] theorem takeN_append (s rest : Bytes) : takeN s.length (s ++ rest) = .ok (s, rest) := by
  induction s with
  | nil => rfl
  | cons b s ih => simp [takeN, ih]

theorem takeHalf_le16 (n : Nat) (rest : Bytes) : takeHalf (le16 n ++ rest) = .ok (BitVec.ofNat 16 n, rest) := by
  simp only [le16, List.cons_append, List.nil_append, takeHalf, Except.ok.injEq, Prod.mk.injEq, and_true]
  apply BitVec.eq_of_toNat_eq; simp

theorem takeStr_encStr {s : Bytes} (h : strOk s = true) (rest : Bytes) :
    takeStr (encStr s ++ rest) = .ok (s, rest) := by
  have hn : s.length < 65536 := by simpa [strOk] using h
  have e : (BitVec.ofNat 16 s.length).toNat = s.length := by simp; omega
  simp only [takeStr, encStr, List.append_assoc, takeHalf_le16, bind, Except.bind, e, takeN_append]

theorem takeLabels_encLabels (ls : List (Half × Half)) (rest : Bytes) :
    takeLabels ls.length (encLabels ls ++ rest) = .ok (ls, rest) := by
  induction ls with
  | nil => rfl
  | cons a ls ih => obtain ⟨o, l⟩ := a; simp [takeLabels, encLabels, ih]

theorem takeDesc_encDesc {d : Desc} (h : d.wf = true) (rest : Bytes) :
    takeDesc (encDesc d ++ rest) = .ok (d, rest) := by
  obtain ⟨hi, hl⟩ : labelsIncreasing d.labels = true ∧ d.labels.length < 65536 := by simpa [Desc.wf] using h
  have e : (BitVec.ofNat 16 d.labels.length).toNat = d.labels.length := by simp; omega
  simp [takeDesc, encDesc, takeHalf_le16, bind, Except.bind, e, takeLabels_encLabels, hi, pure, Except.pure]

@[simp] theorem func?_code (f : Func) : func? f.code = some f := by cases f <;> rfl

theorem func?_eq_some {b : Byte} {f : Func} : func? b = some f ↔ b = f.code := by
  unfold func?
  cases f <;> simp only [Func.code] <;> split <;> rename_i h
  · simp [h]
  · split <;> simp_all
  · subst h; simp
  · split <;> simp_all

/-- A 16-bit field keeps its number's low 16 bits. -/
theorem le16_ofNat (n : Nat) : le16 (BitVec.ofNat 16 n).toNat = le16 n := by
  simp only [le16, lo8, hi8, BitVec.toNat_ofNat, List.cons.injEq, and_true]
  exact ⟨BitVec.eq_of_toNat_eq (by simp), BitVec.eq_of_toNat_eq (by simp; omega)⟩

theorem encLabels_flatMap (ls : List (Half × Half)) :
    encLabels ls = ls.flatMap fun e => le16 e.1.toNat ++ le16 e.2.toNat := by
  induction ls with
  | nil => rfl
  | cons a ls ih => obtain ⟨o, l⟩ := a; simp [encLabels, encHalf, ih]

end Sys2Proof
end

