-- ==== Sys2Proof/Laws/Crc.lean ====
section
/-! SUPPORT. The checksum: it forgets the registers it starts from, it is incremental, and a frame that was sealed
passes the check. -/

namespace Sys2Proof

theorem crcNibble_t (lut : Lut) (c : Ce) (t : Nib) (n : Nib) :
    crcNibble lut { c with t := t } n = crcNibble lut c n := rfl

theorem crcByte_t (lut : Lut) (c : Ce) (t : Nib) (b : Byte) : crcByte lut { c with t := t } b = crcByte lut c b := rfl

/-- The accumulators after a run do not depend on the registers before it. -/
theorem crcRun_acc (lut : Lut) (c : Ce) (s : Bytes) :
    (crcRun lut c s).lo = (crc16 lut s).1 ∧ (crcRun lut c s).hi = (crc16 lut s).2 := by
  cases s with
  | nil => exact ⟨rfl, rfl⟩
  | cons b s => exact ⟨rfl, rfl⟩

theorem crcLoop_append (lut : Lut) (c : Ce) (s t : Bytes) :
    crcLoop lut c (s ++ t) = crcLoop lut (crcLoop lut c s) t := by
  simp [crcLoop]

@[simp] theorem crcTrailer_length (lut : Lut) (s : Bytes) : (crcTrailer lut s).length = 2 := rfl

@[simp] theorem crcAppend_length (lut : Lut) (s : Bytes) : (crcAppend lut s).length = s.length + 2 := by
  simp [crcAppend]

@[simp] theorem crcCovered_crcAppend (lut : Lut) (s : Bytes) : crcCovered (crcAppend lut s) = s := by
  simp [crcCovered, crcAppend]

@[simp] theorem crcCheck_crcAppend (lut : Lut) (s : Bytes) : crcCheck lut (crcAppend lut s) = true := by
  have h : (crcAppend lut s).drop s.length = crcTrailer lut s := by simp [crcAppend]
  simp [crcCheck, h]

/-- A string that passes the check is its covered part with the checksum appended. -/
theorem eq_crcAppend_of_crcCheck {lut : Lut} {raw : Bytes} (h : crcCheck lut raw = true) :
    raw = crcAppend lut (crcCovered raw) := by
  have hd : raw.drop (raw.length - 2) = crcTrailer lut (crcCovered raw) := by simpa [crcCheck] using h
  unfold crcAppend
  rw [← hd, crcCovered, List.take_append_drop]

end Sys2Proof
end

