-- ==== Sys2Proof/Laws/Ops.lean ====
section
/-! SUPPORT. What each shared operation can do, said once. -/

namespace Sys2Proof.Machine

/-- The response bytes of a unit's answer (R94). -/
def responseBytes : Except ErrKind Result → Bytes
  | .ok r => okBytes r
  | .error k => errBytes k

theorem State.answer_eq (s : State) (r : Except ErrKind Result) : s.answer r = s.mailTo s.cur (responseBytes r) := by
  cases r <;> rfl

/-- The one effect of a response. -/
theorem answers_mailTo (s : State) (r : Bytes) : OnlyAnswers s (s.mailTo s.cur r) r := by
  refine ⟨⟨rfl, rfl, rfl, ⟨rfl, rfl, rfl, rfl, rfl, rfl, rfl⟩, rfl, rfl⟩, rfl⟩

theorem answers_setCe_mailTo (s : State) (c : Ce) (r : Bytes) : Answers s ((s.setCe c).mailTo s.cur r) r :=
  ⟨rfl, rfl, rfl, ⟨rfl, rfl, rfl, rfl, rfl, rfl, rfl⟩, rfl, rfl⟩

theorem onlyAnswers_answer (s : State) (r : Except ErrKind Result) : OnlyAnswers s (s.answer r) (responseBytes r) := by
  rw [State.answer_eq]; exact answers_mailTo s _

/-- An encoder's answer: the frame with its trailer, as a byte string (R141, R142). -/
theorem sealFrame_answers (s : State) (body : Bytes) :
    Answers s (sealFrame s body) (okBytes (.bytes (crcAppend s.lut body))) := by
  have h := crcRun_acc s.lut s.ce body
  have := answers_setCe_mailTo s (crcRun s.lut s.ce body)
    (okBytes (.bytes (body ++ [(crcRun s.lut s.ce body).lo, (crcRun s.lut s.ce body).hi])))
  rw [h.1, h.2] at this
  unfold sealFrame
  simp only [h.1, h.2]
  exact this

/-! ### Bus addresses -/

theorem busAddr?_eq_some {b : Byte} {a : BusAddr} : busAddr? b = some a ↔ b.toNat = a.val + 1 := by
  unfold busAddr?
  split
  · rename_i h
    rw [Option.some.injEq, Fin.ext_iff]
    exact ⟨fun e => by simp only at e; omega, fun e => by simp only; omega⟩
  · rename_i h
    have := a.isLt
    simp only [reduceCtorEq, false_iff]
    omega

theorem busAddr?_eq_none {b : Byte} : busAddr? b = none ↔ b.toNat < 1 ∨ 32 < b.toNat := by
  unfold busAddr?
  split <;> simp <;> omega

@[simp] theorem busByte_toNat (a : BusAddr) : (busByte a).toNat = a.val + 1 := by
  have := a.isLt
  simp [busByte]; omega

@[simp] theorem busAddr?_busByte (a : BusAddr) : busAddr? (busByte a) = some a := by
  rw [busAddr?_eq_some, busByte_toNat]

/-! ### Posting -/

/-- Everything the post step (R208) can do. -/
theorem State.post_cases (s : State) (address : Byte) (frame : Bytes) :
    (busAddr? address = none ∧ s.post address frame = s.raise .addrOutOfRange) ∨
    ∃ a, busAddr? address = some a ∧
      ((s.regv[a] = false ∧ s.post address frame = s.raise .notRegistered) ∨
       (s.regv[a] = true ∧ s.req[a] ≠ .idle ∧ s.post address frame = s.raise .busy) ∨
       (s.regv[a] = true ∧ s.req[a] = .idle ∧ s.post address frame = s.placed a frame)) := by
  cases h : busAddr? address with
  | none => exact .inl ⟨rfl, by simp [State.post, h]⟩
  | some a =>
    refine .inr ⟨a, rfl, ?_⟩
    cases hr : s.regv[a] with
    | false => exact .inl ⟨rfl, by simp [State.post, h, hr]⟩
    | true =>
      right
      cases hq : s.req[a] with
      | idle => exact .inr ⟨rfl, rfl, by simp [State.post, h, hr, hq]⟩
      | pending f => exact .inl ⟨rfl, by simp, by simp [State.post, h, hr, hq]⟩
      | active f => exact .inl ⟨rfl, by simp, by simp [State.post, h, hr, hq]⟩

/-! ### The transport -/

/-- `TxWrite` touches the transport's answers only. -/
theorem State.txWrite_snd (s : State) : s.txWrite.2 = s.setEnv s.txWrite.2.env := by
  unfold State.txWrite; split <;> rfl

/-- `RxRead` touches the transport's answers only and returns at most `MAX_FRAME` bytes (R204). -/
theorem State.rxRead_spec (s : State) :
    s.rxRead.1.length ≤ s.params.maxFrame.val ∧ s.rxRead.2 = s.setEnv s.rxRead.2.env := by
  unfold State.rxRead; split <;> exact ⟨by simp, rfl⟩

/-! ### The arbiter -/

theorem State.grantable_iff (s : State) (a : BusAddr) :
    s.grantable a = true ↔
      s.lock = false ∧ State.isPending s.req[a] = true ∧ (s.params.arbPolicy = .fifo → s.order.head? = some a) := by
  unfold State.grantable
  cases s.lock <;> cases h : s.params.arbPolicy <;> simp

theorem State.isPending_iff (v : Slot) : State.isPending v = true ↔ ∃ frame, v = .pending frame := by
  cases v <;> simp [State.isPending]

theorem State.grantable_iff_enabled (s : State) (a : BusAddr) : s.grantable a = true ↔ Enabled s (.grant a) := by
  rw [State.grantable_iff, State.isPending_iff]; rfl

/-- Everything the grant step (R210, R214) can do. -/
theorem State.grant_cases (s : State) (a : BusAddr) :
    (s.grantable a = false ∧ s.grant a = s) ∨
    ∃ frame, s.grantable a = true ∧ s.req[a] = .pending frame ∧
      let g := ((((s.setLock true).setOwner a).setOrder (s.order.erase a)).pushHist (.wrote a frame)).setEnv
        s.txWrite.2.env
      (s.txWrite.1 = .ok ∧ s.grant a = g.setSlot a (.active frame)) ∨
      (s.txWrite.1 = .ioError ∧ s.grant a = (g.freed a).release a (errBytes .ioError)) := by
  cases hg : s.grantable a with
  | false => exact .inl ⟨rfl, by simp [State.grant, hg]⟩
  | true =>
    right
    obtain ⟨_, hp, _⟩ := (s.grantable_iff a).1 hg
    cases hq : s.req[a] with
    | idle => simp [hq, State.isPending] at hp
    | active f => simp [hq, State.isPending] at hp
    | pending frame =>
      cases htx : s.env.tx with
      | cons r rest =>
        refine ⟨frame, rfl, rfl, ?_⟩
        cases r <;> simp [State.grant, hg, hq, State.slotFrame, State.grantFrame, State.txWrite, htx]
      | nil =>
        refine ⟨frame, rfl, rfl, ?_⟩
        cases hf : Config.freeTx s.env.seq <;>
          simp [State.grant, hg, hq, State.slotFrame, State.grantFrame, State.txWrite, htx, hf]

/-- Everything the complete step (R212) can do. -/
theorem State.complete_cases (s : State) :
    (s.lock = false ∧ s.complete = s) ∨
    (s.lock = true ∧
      s.complete = (((s.setEnv s.rxRead.2.env).pushHist (.read s.owner s.rxRead.1)).freed s.owner).release s.owner
        (State.exchangeResponse s.rxRead.1)) := by
  cases h : s.lock with
  | false => exact .inl ⟨rfl, by simp [State.complete, h]⟩
  | true =>
    refine .inr ⟨rfl, ?_⟩
    rw [← s.rxRead_spec.2]
    simp [State.complete, h]

/-- Everything `release` can do. -/
theorem State.release_cases (s : State) (a : BusAddr) (r : Bytes) :
    (s.issuer[a] = none ∧ s.release a r = s) ∨
    ∃ k, s.issuer[a] = some k ∧
      s.release a r = (s.setIssuer a none).onClient k fun c => { c with status := .ready, mail := c.mail ++ [r] } := by
  cases h : s.issuer[a] with
  | none => exact .inl ⟨rfl, by simp [State.release, h]⟩
  | some k => exact .inr ⟨k, rfl, by simp [State.release, h]⟩

/-- What a release leaves alone, and what it does to the clients. -/
theorem State.release_spec (s : State) (a : BusAddr) (r : Bytes) :
    (s.release a r).lock = s.lock ∧ (s.release a r).owner = s.owner ∧ (s.release a r).req = s.req ∧
    (s.release a r).hist = s.hist ∧ (s.release a r).regv = s.regv ∧ (s.release a r).ce = s.ce ∧
    (s.release a r).order = s.order ∧ (s.release a r).env = s.env ∧ SameConfig s (s.release a r) ∧
    ∀ k, s.issuer[a] = some k → (s.release a r).clients =
      s.clients.modify k fun c => { c with status := .ready, mail := c.mail ++ [r] } := by
  obtain ⟨hn, h⟩ | ⟨k, hn, h⟩ := s.release_cases a r <;> rw [h] <;>
    refine ⟨rfl, rfl, rfl, rfl, rfl, rfl, rfl, rfl, ⟨rfl, rfl⟩, fun j hj => ?_⟩
  · rw [hj] at hn; cases hn
  · rw [hj] at hn; cases hn; rfl

end Sys2Proof.Machine
end

