-- ==== Sys2Proof/Laws/Exec.lean ====
section
/-! SUPPORT. What running one instruction can do to the state, said once for all of them. -/

namespace Sys2Proof.Machine

/-- The five shapes of an instruction's effect. -/
inductive Effect (s : State) : State → Prop where
  /-- a response, and perhaps new values of the working registers -/
  | answered (c : Ce) (r : Bytes) : Effect s ((s.setCe c).mailTo s.cur r)
  /-- LA.REGISTER sets a bit (R205) -/
  | registered (a : BusAddr) (h : s.regv[a] = false) : Effect s ((s.setReg a).mailTo s.cur (okBytes .nothing))
  /-- a post takes an idle slot (R208) -/
  | placed (a : BusAddr) (frame : Bytes) (hr : s.regv[a] = true) (hq : s.req[a] = .idle) : Effect s (s.placed a frame)
  /-- bytes reach the transport -/
  | arrived (raw : Bytes) : Effect s (s.arrived raw)

theorem Effect.mailed (s : State) (r : Bytes) : Effect s (s.mailTo s.cur r) := .answered s.ce r

theorem effect_answer (s : State) (r : Except ErrKind Result) : Effect s (s.answer r) := by
  rw [State.answer_eq]; exact .mailed s _

theorem effect_setCe_answer (s : State) (c : Ce) (r : Except ErrKind Result) : Effect s ((s.setCe c).answer r) := by
  rw [State.answer_eq]; exact .answered c _

theorem effect_post (s : State) (address : Byte) (frame : Bytes) : Effect s (s.post address frame) := by
  obtain ⟨-, h⟩ | ⟨a, -, ⟨-, h⟩ | ⟨-, -, h⟩ | ⟨hr, hq, h⟩⟩ := s.post_cases address frame <;> rw [h]
  · exact .mailed s _
  · exact .mailed s _
  · exact .mailed s _
  · exact .placed a frame hr hq

/-- An instruction always answers a next state (it never faults and never refuses), and this is all it can do. -/
theorem exec_effect (i : Instr) (s : State) : ∃ t, exec i s = .next t ∧ Effect s t := by
  cases i with
  | crcCompute data => exact ⟨_, rfl, .answered _ _⟩
  | encRead d src st => exact ⟨_, rfl, .answered _ _⟩
  | encWrite d src st p =>
    by_cases h : p.length > s.params.maxFrame.val - 11
    · exact ⟨_, by simp only [exec, execEncWrite, if_pos h]; rfl, .mailed s _⟩
    · exact ⟨_, by simp only [exec, execEncWrite, if_neg h]; rfl, .answered _ _⟩
  | decVerify ed es f raw =>
    by_cases h : raw.length < 3
    · exact ⟨_, by simp only [exec, execDecVerify, if_pos h]; rfl, .mailed s _⟩
    · exact ⟨_, by simp only [exec, execDecVerify, if_neg h]; rfl, effect_setCe_answer s _ _⟩
  | rmDecode d b => exact ⟨_, rfl, .mailed s _⟩
  | rmRaw o b => exact ⟨_, rfl, effect_answer s _⟩
  | rmTfmt d b => exact ⟨_, rfl, effect_answer s _⟩
  | rmTarget d b => exact ⟨_, rfl, effect_answer s _⟩
  | rmFrost d b => exact ⟨_, rfl, effect_answer s _⟩
  | rmSensel d b => exact ⟨_, rfl, effect_answer s _⟩
  | rmCurtemp d b => exact ⟨_, rfl, effect_answer s _⟩
  | rmRunmode d b => exact ⟨_, rfl, effect_answer s _⟩
  | rmHeat d b => exact ⟨_, rfl, effect_answer s _⟩
  | laRegister address =>
    cases h : busAddr? address with
    | none => exact ⟨_, by simp only [exec, execLaRegister, h]; rfl, .mailed s _⟩
    | some a =>
      cases hr : s.regv[a] with
      | true => exact ⟨s.raise .duplicateAddressError, by simp [exec, execLaRegister, h, hr], .mailed s _⟩
      | false => exact ⟨(s.setReg a).finish .nothing, by simp [exec, execLaRegister, h, hr], .registered a hr⟩
  | laExchange address frame => exact ⟨_, rfl, effect_post s _ _⟩
  | rqRead d src st => exact ⟨_, rfl, effect_post s _ _⟩
  | rqWrite d src st p => exact ⟨_, rfl, effect_post s _ _⟩
  | rpRead d src b5 b6 b7 b8 p => exact ⟨_, rfl, .arrived _⟩
  | rpWrite d src => exact ⟨_, rfl, .arrived _⟩

end Sys2Proof.Machine
end

