-- ==== Sys2Proof/Laws/Step.lean ====
section
/-! SUPPORT. What one step can do, said once: every claim about steps is a case analysis over `StepEffect`. -/

namespace Sys2Proof.Machine

/-! ### Host edits -/

/-- An edit of a client's host state: its status and the responses it received stay. -/
def KeepsPort (f : Client → Client) : Prop := ∀ c, (f c).status = c.status ∧ (f c).mail = c.mail

theorem keepsPort_id : KeepsPort id := fun _ => ⟨rfl, rfl⟩

theorem KeepsPort.comp {f g : Client → Client} (hg : KeepsPort g) (hf : KeepsPort f) : KeepsPort (g ∘ f) :=
  fun c => ⟨(hg (f c)).1.trans (hf c).1, (hg (f c)).2.trans (hf c).2⟩

theorem State.onClient_onClient (s : State) (k : Nat) (f g : Client → Client) :
    (s.onClient k f).onClient k g = s.onClient k (g ∘ f) := by
  simp [State.onClient, List.modify_modify_eq]

theorem State.onClient_id (s : State) (k : Nat) : s.onClient k id = s := by
  simp [State.onClient]

/-- The shape of a client's turn: an edit of its host state, after which it may run one instruction. -/
def HostShape (k : Nat) (s t : State) : Prop :=
  ∃ f, KeepsPort f ∧ (t = s.onClient k f ∨ Effect ((s.onClient k f).setCur k) t)

theorem HostShape.refl (k : Nat) (s : State) : HostShape k s s :=
  ⟨id, keepsPort_id, .inl (s.onClient_id k).symm⟩

theorem HostShape.edit {k : Nat} {s : State} {f : Client → Client} (hf : KeepsPort f) :
    HostShape k s (s.onClient k f) := ⟨f, hf, .inl rfl⟩

theorem HostShape.after_edit {k : Nat} {s t : State} {g : Client → Client} (hg : KeepsPort g)
    (h : HostShape k (s.onClient k g) t) : HostShape k s t := by
  obtain ⟨f, hf, h⟩ := h
  rw [State.onClient_onClient] at h
  exact ⟨f ∘ g, hf.comp hg, h⟩

/-- Issuing bytes is one instruction's effect, for the client that issues them. -/
theorem issueAt_shape {p : Port} {k : Nat} {bs : Bytes} {s t : State} (h : issueAt p k bs s = .next t) :
    HostShape k s t := by
  refine ⟨id, keepsPort_id, .inr ?_⟩
  rw [State.onClient_id]
  unfold issueAt at h
  split at h
  · rename_i i _
    obtain ⟨u, hu, he⟩ := exec_effect i (s.setCur k)
    rw [hu] at h; cases h; exact he
  · cases h; exact .mailed _ _

theorem keepsPort_atStage (r : Running) : KeepsPort fun c => { c with running := some r } := fun _ => ⟨rfl, rfl⟩
theorem keepsPort_endCall (o : Bytes) : KeepsPort fun c => { c with running := none, done := c.done ++ [o] } :=
  fun _ => ⟨rfl, rfl⟩
theorem keepsPort_storeSnap (p : Bytes) : KeepsPort fun c => { c with snap := some p } := fun _ => ⟨rfl, rfl⟩
theorem keepsPort_constructed (id : Identity) : KeepsPort fun c => { c with ident := some id, snap := none } :=
  fun _ => ⟨rfl, rfl⟩

theorem issueCommand_atStage {k : Nat} {i : Instr} {s t : State} {r : Running}
    (h : issueCommand k i (s.atStage k r) = .next t) : HostShape k s t :=
  .after_edit (keepsPort_atStage r) (issueAt_shape h)

theorem endCall_shape (k : Nat) (o : Bytes) (s : State) : HostShape k s (s.endCall k o) :=
  .edit (keepsPort_endCall o)

theorem beginOwned_shape {k : Nat} {c : Client} {id : Identity} {call : HostCall} {budget : Nat} {s t : State}
    (h : beginOwned k c id call budget s = .next t) : HostShape k s t := by
  have hw : ∀ plan, beginWrite k id call budget plan s = .next t → HostShape k s t := by
    intro plan h
    unfold beginWrite at h
    split at h
    · cases h; exact endCall_shape k _ s
    · exact issueCommand_atStage h
  have hg : beginGet k id c.snap call s = .next t → HostShape k s t := by
    intro h
    unfold beginGet at h
    split at h
    · cases h
    · split at h
      · exact issueCommand_atStage h
      · cases h; exact .refl k s
  unfold beginOwned at h
  split at h
  · exact issueCommand_atStage h
  · exact issueCommand_atStage h
  · split at h
    · exact hw _ h
    · exact hg h

theorem beginCall_shape {k : Nat} {c : Client} {call : HostCall} {budget : Nat} {s t : State}
    (h : beginCall k c call budget s = .next t) : HostShape k s t := by
  unfold beginCall at h
  split at h
  · exact issueCommand_atStage h
  · exact beginOwned_shape h
  · cases h

theorem onOk_shape {k : Nat} {c : Client} {r : Running} {resp body : Bytes} {s t : State}
    (h : onOk k c r resp body s = .next t) : HostShape k s t := by
  unfold onOk at h
  split at h
  · cases h; exact .after_edit (keepsPort_constructed _) (endCall_shape k _ _)
  · exact issueCommand_atStage h
  · exact issueCommand_atStage h
  · exact .after_edit (keepsPort_storeSnap _) (issueCommand_atStage h)
  · cases h; exact endCall_shape k _ s
  · cases h; exact endCall_shape k _ s
  · cases h

theorem continueCall_shape {k : Nat} {c : Client} {r : Running} {s t : State}
    (h : continueCall k c r s = .next t) : HostShape k s t := by
  unfold continueCall at h
  split at h
  · cases h; exact .refl k s
  · cases h; exact .refl k s
  · split at h
    · exact onOk_shape h
    · unfold onError at h
      split at h
      · exact beginCall_shape h
      · cases h; exact endCall_shape k _ s

theorem takeRequest_shape {k : Nat} {c : Client} {q : Request} {s t : State}
    (h : takeRequest k c q s = .next t) : HostShape k s t := by
  unfold takeRequest at h
  split at h
  · exact issueAt_shape h
  · exact issueAt_shape h
  · exact beginCall_shape h

/-- Everything a client's turn can do: nothing, or (the client is ready) a host edit and perhaps one instruction. -/
theorem clientTurn_cases {k : Nat} {s t : State} (h : clientTurn k s = .next t) :
    t = s ∨ ∃ c, s.clients[k]? = some c ∧ c.status = .ready ∧ HostShape k s t := by
  unfold clientTurn at h
  split at h
  · cases h; exact .inl rfl
  · rename_i c hc
    split at h
    · cases h; exact .inl rfl
    · cases h; exact .inl rfl
    · rename_i hs
      split at h
      · exact .inr ⟨c, hc, hs, continueCall_shape h⟩
      · cases h; exact .inl rfl
      · rename_i rest _ _
        have hk : KeepsPort fun c => { c with prog := rest } := fun _ => ⟨rfl, rfl⟩
        exact .inr ⟨c, hc, hs, .after_edit hk (takeRequest_shape h)⟩

/-! ### Steps -/

/-- Everything one step can do; `e` is the environment after the turn was taken. -/
inductive StepEffect (s : State) : State → Prop where
  /-- nothing but the taking of a turn, or the draining of the transport -/
  | idle (e : Env) : StepEffect s (s.setEnv e)
  /-- a ready client's turn -/
  | client (e : Env) (k : Nat) (c : Client) (t : State) (hc : s.clients[k]? = some c) (hs : c.status = .ready)
      (h : HostShape k (s.setEnv e) t) : StepEffect s t
  /-- the grant step -/
  | grant (e : Env) (a : BusAddr) : StepEffect s ((s.setEnv e).grant a)
  /-- the complete step -/
  | complete (e : Env) : StepEffect s (s.setEnv e).complete
  /-- a reset, which only a settled turn brings -/
  | reset (e : Env) (h : s.env.upcoming.head? = some .reset) : StepEffect s (s.setEnv e).resetEvent

theorem takeTurn_effect {s t : State} {u : Turn} {e : Env} (hr : u = .reset → s.env.upcoming.head? = some .reset)
    (h : takeTurn u (s.setEnv e) = .next t) : StepEffect s t := by
  cases u with
  | client k =>
    obtain rfl | ⟨c, hc, hs, hh⟩ := clientTurn_cases h
    · exact .idle e
    · exact .client e k c t hc hs hh
  | grant a => cases h; exact .grant e a
  | complete => cases h; exact .complete e
  | reset => cases h; exact .reset e (hr rfl)
  | arrive raw =>
    simp only [takeTurn, arriveTurn] at h
    have key : ∀ i, i.port = .reply → ∃ r, exec i (s.setEnv e) = .next ((s.setEnv e).arrived r) := by
      intro i hi
      cases i with
      | rpRead d src b5 b6 b7 b8 p => exact ⟨_, rfl⟩
      | rpWrite d src => exact ⟨_, rfl⟩
      | _ => cases hi
    split at h
    · rename_i i hi
      have hp : i.port = .reply := by
        unfold decodeAt decodeReply at hi
        simp only at hi
        split at hi
        · split at hi
          · split at hi
            · cases hi; rfl
            · cases hi; rfl
            · cases hi
          · cases hi
        · cases hi
      obtain ⟨r, hr'⟩ := key i hp
      rw [hr'] at h; cases h; exact .idle _
    · cases h; exact .idle _
  | drain =>
    simp only [takeTurn, drainTurn] at h
    split at h
    · cases h; exact .idle _
    · cases h
  | hostTransport => cases h

theorem canMove_iff (c : Client) : canMove c = true ↔ c.status = .ready ∧ (c.running ≠ none ∨ c.upcoming ≠ []) := by
  unfold canMove
  cases c.status <;> simp [Option.isSome_iff_ne_none]

theorem mem_clientTurns (cs : List Client) (k : Nat) (u : Turn) :
    u ∈ clientTurns k cs ↔ ∃ j c, u = .client (k + j) ∧ cs[j]? = some c ∧ canMove c = true := by
  induction cs generalizing k with
  | nil => simp [clientTurns]
  | cons c cs ih =>
    have e : u ∈ clientTurns k (c :: cs) ↔ (u = .client k ∧ canMove c = true) ∨ u ∈ clientTurns (k + 1) cs := by
      simp only [clientTurns]; split <;> simp [*]
    rw [e, ih]
    constructor
    · rintro (⟨h1, h2⟩ | ⟨j, d, h1, h2⟩)
      · exact ⟨0, c, h1, rfl, h2⟩
      · exact ⟨j + 1, d, by rw [h1]; congr 1; omega, h2⟩
    · rintro ⟨_ | j, d, h1, h2, h3⟩
      · cases h2; exact .inl ⟨h1, h3⟩
      · exact .inr ⟨j, d, by rw [h1]; congr 1; omega, h2, h3⟩

/-- The list of the enabled turns is right. -/
theorem mem_enabledTurns (s : State) (u : Turn) : u ∈ enabledTurns s ↔ Enabled s u := by
  unfold enabledTurns arbiterTurns
  rw [List.mem_append, mem_clientTurns]
  cases hl : s.lock <;> cases u <;> simp [Enabled, canMove_iff, hl]
  rw [State.grantable_iff_enabled]; simp [Enabled, hl]

/-- An enabled step of the arbiter is one of the listed turns. -/
theorem mem_arbiterTurns (s : State) (u : Turn) : u ∈ arbiterTurns s ↔ arbiterMoves s u = true := by
  unfold arbiterTurns
  cases hl : s.lock <;> cases u <;> simp [arbiterMoves, hl, State.grantable]

theorem arbiterReady_iff (s : State) : arbiterReady s = true ↔ ∃ u, arbiterMoves s u = true := by
  simp only [arbiterReady, Bool.not_eq_true', List.isEmpty_eq_false_iff, ← mem_arbiterTurns]
  exact ⟨List.exists_mem_of_ne_nil _, fun ⟨_, h⟩ => List.ne_nil_of_mem h⟩

/-- An open turn is enabled, and the arbiter's where it is overdue. -/
theorem mem_openTurns {s : State} {u : Turn} (h : u ∈ openTurns s) :
    Enabled s u ∧ (overdue s = true → arbiterMoves s u = true) := by
  unfold openTurns at h
  split at h
  · rename_i ho
    exact ⟨(mem_enabledTurns s u).1 (List.mem_append_right _ h), fun _ => (mem_arbiterTurns s u).1 h⟩
  · rename_i ho
    exact ⟨(mem_enabledTurns s u).1 h, fun h => absurd h ho⟩

theorem openTurn_mem {s : State} {u : Turn} (h : openTurn s = some u) : u ∈ openTurns s := by
  unfold openTurn at h
  split at h
  · cases h
  · rename_i hl; cases h; simp [hl]
  · rename_i hl; rw [hl]; exact List.mem_of_getElem? h

theorem openTurn_eq_none {s : State} : openTurn s = none ↔ openTurns s = [] := by
  unfold openTurn
  split
  · rename_i h; simp [h]
  · rename_i h; simp [h]
  · rename_i rest h
    have := Nat.mod_lt (Config.freeTurn s.env.seq) (show 0 < rest.length + 2 by omega)
    simp only [h, List.getElem?_eq_none_iff, List.length_cons, reduceCtorEq, iff_false]
    omega

theorem openTurn_ne_reset {s : State} {u : Turn} (h : openTurn s = some u) : u ≠ .reset := by
  rintro rfl
  exact (mem_openTurns (openTurn_mem h)).1

/-- What is taken from the settled turns heads them. -/
theorem settledTurn_eq_some {s : State} {u : Turn} {turns : List Turn} :
    settledTurn s = some (u, turns) ↔ Settled s u turns := by
  unfold settledTurn Settled
  cases s.env.upcoming with
  | nil => simp
  | cons v rest =>
    by_cases hv : v = u
    · subst hv; cases overdue s <;> cases h : mayPass s v <;> simp [h]
    · cases overdue s <;> cases mayPass s v <;> simp [hv]

theorem settledTurn_eq_none {s : State} : settledTurn s = none ↔ ∀ u turns, ¬Settled s u turns := by
  rw [Option.eq_none_iff_forall_ne_some]
  simp only [ne_eq, Prod.forall, settledTurn_eq_some]

/-- Everything one step can do. -/
theorem step_effect {s t : State} (h : step s = .next t) : StepEffect s t := by
  unfold step runTurn at h
  split at h
  · rename_i u rest hu
    exact takeTurn_effect (fun hr => by simp [(settledTurn_eq_some.1 hu).1, hr]) h
  · split at h
    · rename_i u hu
      exact takeTurn_effect (fun hr => absurd hr (openTurn_ne_reset hu)) h
    · cases h; exact .idle s.env

/-- Every step is one turn of the machine, taken in the state `before` it, or waits where no agent has an enabled step. -/
theorem step_cases {s t : State} (h : step s = .next t) :
    (t = s ∧ ∀ u, ¬Enabled s u) ∨
    ∃ u e, takeTurn u (s.before u e) = .next t ∧ e.patience = s.env.patience ∧
      (overdue s = true → mayPass s u = true) ∧ (u = .reset → s.env.upcoming.head? = some .reset) := by
  unfold step runTurn at h
  split at h
  · rename_i u rest hu
    obtain ⟨h1, h2⟩ := settledTurn_eq_some.1 hu
    exact .inr ⟨u, _, h, rfl, h2, fun hr => by simp [h1, hr]⟩
  · split at h
    · rename_i u hu
      refine .inr ⟨u, _, h, rfl, fun ho => ?_, fun hr => absurd hr (openTurn_ne_reset hu)⟩
      have := (mem_openTurns (openTurn_mem hu)).2 ho
      cases u <;> first | exact this | cases this
    · rename_i hu
      cases h
      refine .inl ⟨rfl, fun u he => ?_⟩
      rw [openTurn_eq_none] at hu
      unfold openTurns at hu
      split at hu
      · rename_i ho
        simp [overdue, arbiterReady, hu] at ho
      · rw [← mem_enabledTurns, hu] at he; cases he

/-- A turn leaves the count of the arbiter's waiting alone: only the taking of a turn changes it. -/
theorem takeTurn_idle {s t : State} {u : Turn} (h : takeTurn u s = .next t) :
    t.env.idle = s.env.idle ∧ t.env.patience = s.env.patience := by
  have eff : ∀ {s t : State}, Effect s t → t.env.idle = s.env.idle ∧ t.env.patience = s.env.patience := by
    intro s t he; cases he <;> exact ⟨rfl, rfl⟩
  have rel : ∀ (s : State) a r, (s.release a r).env = s.env := fun s a r => (s.release_spec a r).2.2.2.2.2.2.2.1
  cases u with
  | client k =>
    obtain rfl | ⟨c, -, -, f, -, rfl | he⟩ := clientTurn_cases h
    · exact ⟨rfl, rfl⟩
    · exact ⟨rfl, rfl⟩
    · exact eff (s := (s.onClient k f).setCur k) he
  | grant a =>
    cases h
    have ht : s.txWrite.2.env.idle = s.env.idle ∧ s.txWrite.2.env.patience = s.env.patience := by
      unfold State.txWrite; split <;> exact ⟨rfl, rfl⟩
    obtain ⟨-, h⟩ | ⟨f, -, -, ⟨-, h⟩ | ⟨-, h⟩⟩ := s.grant_cases a <;> rw [h]
    · exact ⟨rfl, rfl⟩
    · exact ht
    · rw [rel]; exact ht
  | complete =>
    cases h
    have ht : s.rxRead.2.env.idle = s.env.idle ∧ s.rxRead.2.env.patience = s.env.patience := by
      unfold State.rxRead; split <;> exact ⟨rfl, rfl⟩
    obtain ⟨-, h⟩ | ⟨-, h⟩ := s.complete_cases <;> rw [h]
    · exact ⟨rfl, rfl⟩
    · rw [rel]; exact ht
  | reset => cases h; exact ⟨rfl, rfl⟩
  | arrive raw =>
    simp only [takeTurn, arriveTurn] at h
    split at h
    · rename_i i _
      obtain ⟨v, hv, he⟩ := exec_effect i s
      rw [hv] at h; cases h; exact eff he
    · cases h; exact ⟨rfl, rfl⟩
  | drain =>
    simp only [takeTurn, drainTurn] at h
    split at h
    · cases h; exact ⟨rfl, rfl⟩
    · cases h
  | hostTransport => cases h

/-- The step of a settled turn. -/
theorem step_settled {s : State} {u : Turn} {turns : List Turn} (h : Settled s u turns) :
    step s = takeTurn u (s.before u { s.env with turns := turns }) := by
  simp only [step, runTurn, settledTurn_eq_some.2 h]

/-- A turn that is no enabled step of the arbiter. -/
theorem before_eq_afterTurn {s : State} {u : Turn} (h : arbiterMoves s u = false) (turns : List Turn) :
    s.before u { s.env with turns := turns } = afterTurn s turns := by
  simp [State.before, afterTurn, idleAfter, h, State.setEnv]

/-- An enabled step of the arbiter. -/
theorem before_eq_afterArbiter {s : State} {u : Turn} (h : arbiterMoves s u = true) (turns : List Turn) :
    s.before u { s.env with turns := turns } = afterArbiter s turns := by
  simp [State.before, afterArbiter, idleAfter, h, State.setEnv]

/-! ### A settled client turn, as an equation -/

theorem afterTurn_eq (s : State) (turns : List Turn) :
    afterTurn s turns =
      s.setEnv { s.env with turns := turns, idle := if arbiterReady s then s.env.idle + 1 else 0 } := rfl

theorem afterArbiter_eq (s : State) (turns : List Turn) :
    afterArbiter s turns = s.setEnv { s.env with turns := turns, idle := 0 } := rfl

theorem issuing_eq (s : State) (k : Nat) (turns : List Turn) (edit : Client → Client) :
    issuing s k turns edit = ((afterTurn s turns).onClient k edit).setCur k := rfl

theorem fetched_eq (s : State) (k : Nat) (prog : List Request) (turns : List Turn) :
    fetched s k prog turns = ((afterTurn s turns).onClient k fun c => { c with prog := prog }).setCur k := rfl

/-- The step of a ready client whose turn it is. -/
theorem step_turn {s : State} {k : Nat} {c : Client} {turns : List Turn} (h : TurnOf s k c turns) :
    step s = (match c.running, c.upcoming with
      | some r, _ => continueCall k c r (afterTurn s turns)
      | none, [] => .next (afterTurn s turns)
      | none, q :: rest => takeRequest k c q ((afterTurn s turns).onClient k fun c => { c with prog := rest })) := by
  obtain ⟨ht, hc, hs⟩ := h
  have hc' : (afterTurn s turns).clients[k]? = some c := hc
  rw [step_settled ht, before_eq_afterTurn (u := .client k) rfl]
  cases hr : c.running <;> cases hu : c.upcoming <;> simp only [takeTurn, clientTurn, hc', hs, hr, hu]

/-- The step of a client that issues its next item. -/
theorem step_issues {s : State} {k : Nat} {c : Client} {q : Request} {prog : List Request} {turns : List Turn}
    (h : IssuesNext s k c q prog turns) :
    step s = takeRequest k c q ((afterTurn s turns).onClient k fun c => { c with prog := prog }) := by
  obtain ⟨ht, hr, hp⟩ := h
  rw [step_turn ht, hr, hp]

/-- The step of a client whose call goes on. -/
theorem step_goes {s : State} {k : Nat} {c : Client} {r : Running} {turns : List Turn} (h : TurnOf s k c turns)
    (hr : c.running = some r) : step s = continueCall k c r (afterTurn s turns) := by rw [step_turn h, hr]

/-- A host call's command runs, where its descriptor decodes to it. -/
theorem issueCommand_eq {k : Nat} {i : Instr} {s : State} (hp : i.port = .command)
    (hr : decodeAt s.lut i.port (encodeAt s.lut i) = .ok i) : issueCommand k i s = exec i (s.setCur k) := by
  unfold issueCommand issueAt
  rw [← hp, hr]

end Sys2Proof.Machine
end

