-- ==== Sys2Proof/Tests/Slice0.lean ====
section
/-! SUPPORT. The model's own tests. Expected words and responses are those of spec/95_test_vectors.md (the section is
named at each group); the witnesses at the end show that the hypotheses of each statement can be met. -/

namespace Sys2Proof.Tests

open Sys2Proof Sys2Proof.Machine

/-! ### Fixtures (95_test_vectors.md section 5) -/

/-- The descriptor `S12`. -/
def s12 : Desc where
  offTfmt := 0
  offTarget := 3
  offFrost := 2
  offSensel := 1
  offRunmode := 4
  offHeat := 5
  pairBuiltin := 10
  pairRemote := 6
  pairFloor := 8
  labels := [(0, 100), (1, 101), (2, 102), (3, 103), (4, 104), (5, 105)]

/-- The descriptor `S9`. -/
def s9 : Desc where
  offTfmt := 0
  offTarget := 0xFFFF
  offFrost := 0xFFFF
  offSensel := 1
  offRunmode := 0xFFFF
  offHeat := 8
  pairBuiltin := 2
  pairRemote := 4
  pairFloor := 6
  labels := [(0, 200), (1, 201), (8, 208)]

/-- `S12` as a `DESC` block. -/
def s12Block : Bytes :=
  [0x00, 0x00, 0x03, 0x00, 0x02, 0x00, 0x01, 0x00, 0x04, 0x00, 0x05, 0x00, 0x0A, 0x00, 0x06, 0x00, 0x08, 0x00] ++
  [0x06, 0x00, 0x00, 0x00, 0x64, 0x00, 0x01, 0x00, 0x65, 0x00, 0x02, 0x00, 0x66, 0x00, 0x03, 0x00, 0x67, 0x00] ++
  [0x04, 0x00, 0x68, 0x00, 0x05, 0x00, 0x69, 0x00]

/-- `S9` as a `DESC` block. -/
def s9Block : Bytes :=
  [0x00, 0x00, 0xFF, 0xFF, 0xFF, 0xFF, 0x01, 0x00, 0xFF, 0xFF, 0x08, 0x00, 0x02, 0x00, 0x04, 0x00, 0x06, 0x00] ++
  [0x03, 0x00, 0x00, 0x00, 0xC8, 0x00, 0x01, 0x00, 0xC9, 0x00, 0x08, 0x00, 0xD0, 0x00]

/-- The snapshot `X12`. -/
def x12 : Bytes := [0x00, 0x00, 0x0C, 0x15, 0x00, 0x01, 0x00, 0xC6, 0x00, 0xE6, 0x00, 0xD7]

/-- The snapshot `P9`. -/
def p9 : Bytes := [0x00, 0x00, 0x00, 0xD7, 0x00, 0xBE, 0x00, 0xE6, 0x01]

/-- `S12` and `X12` as the operands of an RM command. -/
def s12x12 : Bytes := s12Block ++ [0x0C, 0x00] ++ x12

/-- The READ request `f1` to thermostat 1. -/
def f1 : Bytes := [0x01, 0x0B, 0x00, 0x81, 0x00, 0x00, 0x00, 0xFF, 0xFF, 0x71, 0xA9]

/-- The write acknowledgment of thermostat 1. -/
def ack : Bytes := [0x81, 0x07, 0x00, 0x01, 0x01, 0xB0, 0xEB]

/-- The READ reply of thermostat 1 with one payload byte 0x5A (section 4.1). -/
def reply5A : Bytes := [0x81, 0x0C, 0x00, 0x01, 0x00, 0x00, 0x00, 0x01, 0x00, 0x5A, 0xB6, 0xAB]

/-- The reset state with one client. -/
def bench : State := { State.reset with clients := [freshClient] }

/-- `bench` with the addresses 1 and 2 registered. -/
def registered : State := { bench with regv := (bench.regv.set 0 true).set 1 true }

/-- The next state, where there is one. -/
def after : Out → Option State
  | .next s => some s
  | .fault _ => none
  | .refused _ => none

/-- What client 0 received last. -/
def lastMail (o : Out) : Option Bytes := (after o).bind fun s => s.clients.head?.bind fun c => c.mail.getLast?

/-- The response to a descriptor in the state `bench` (section 7). -/
def responseTo (descriptor : Bytes) : Option Bytes := lastMail (issueAt .command 0 descriptor bench)

/-! ### Decoding: a word of every row, written out from the encodings (sections 4, 5 and 7; rules R83, R91 to R93) -/

theorem test_decode_crcCompute : decode [0x01, 0x02, 0x00, 0x12, 0x34] = .ok (.crcCompute [0x12, 0x34]) := rfl
theorem test_decode_encRead : decode [0x10, 0x20, 0xA0, 0x12, 0x01] = .ok (.encRead 32 160 0x0112) := rfl
theorem test_decode_encWrite :
    decode [0x11, 0x01, 0x81, 0x12, 0x00, 0x01, 0x00, 0x15] = .ok (.encWrite 1 129 18 [0x15]) := rfl
theorem test_decode_decVerify : decode ([0x18, 0x81, 0x02, 0x01, 0x07, 0x00] ++ ack) = .ok (.decVerify 129 2 .write ack) :=
  rfl
theorem test_decode_rmDecode : decode (0x20 :: s9Block ++ [0x09, 0x00] ++ p9) = .ok (.rmDecode s9 p9) := rfl
theorem test_decode_rmRaw : decode ([0x21, 0x0B, 0x00, 0x0C, 0x00] ++ x12) = .ok (.rmRaw 11 x12) := rfl
theorem test_decode_rmTfmt : decode (0x22 :: s12x12) = .ok (.rmTfmt s12 x12) := rfl
theorem test_decode_rmTarget : decode (0x23 :: s12x12) = .ok (.rmTarget s12 x12) := rfl
theorem test_decode_rmFrost : decode (0x24 :: s12x12) = .ok (.rmFrost s12 x12) := rfl
theorem test_decode_rmSensel : decode (0x25 :: s12x12) = .ok (.rmSensel s12 x12) := rfl
theorem test_decode_rmCurtemp : decode (0x26 :: s12x12) = .ok (.rmCurtemp s12 x12) := rfl
theorem test_decode_rmRunmode : decode (0x27 :: s12x12) = .ok (.rmRunmode s12 x12) := rfl
theorem test_decode_rmHeat : decode (0x28 :: s12x12) = .ok (.rmHeat s12 x12) := rfl
theorem test_decode_laRegister : decode [0x30, 0x01] = .ok (.laRegister 1) := rfl
theorem test_decode_laExchange : decode ([0x31, 0x01, 0x0B, 0x00] ++ f1) = .ok (.laExchange 1 f1) := rfl
theorem test_decode_rqRead : decodeRequest Config.ccittLut f1 = .ok (.rqRead 1 129 0) := rfl
theorem test_decode_rqWrite :
    decodeRequest Config.ccittLut [0x01, 0x0C, 0x00, 0x81, 0x01, 0x12, 0x00, 0x01, 0x00, 0x15, 0x29, 0x58] =
      .ok (.rqWrite 1 129 18 [0x15]) := rfl
theorem test_decode_rpRead : decodeReply Config.ccittLut reply5A = .ok (.rpRead 129 1 0 0 1 0 [0x5A]) := rfl
theorem test_decode_rpWrite : decodeReply Config.ccittLut ack = .ok (.rpWrite 129 1) := rfl

/-- The direction tells a request from a reply: the acknowledgment is no request, `f1` no reply (R83, R84). -/
theorem test_decode_direction :
    decodeRequest Config.ccittLut ack = .error .notAFrame ∧ decodeReply Config.ccittLut f1 = .error .notAFrame :=
  ⟨rfl, rfl⟩

/-- Reserved and malformed descriptors (R92, R93, R96). -/
theorem test_decode_rejects :
    decode [] = .error .empty ∧ decode [0x02] = .error (.reservedOpcode 0x02) ∧
    decode [0x01, 0x02, 0x00, 0x12] = .error .truncated ∧ decode [0x01, 0x01, 0x00, 0x12, 0x34] = .error .surplus ∧
    decode [0x18, 0x81, 0x01, 0x02, 0x00, 0x00] = .error .badFunction ∧
    decode ([0x22] ++ s9Block.take 18 ++ [0x02, 0x00, 0x01, 0x00, 0xC9, 0x00, 0x00, 0x00, 0xC8, 0x00, 0x01, 0x00, 0x00]) =
      .error .labelsNotIncreasing := ⟨rfl, rfl, rfl, rfl, rfl, rfl⟩

/-- The table's numbering of bits: the first byte is the least significant (log entry 10). -/
theorem test_tableWord :
    decodeTableWord 8 0x01 = some (.crcCompute []) ∧ decodeTableWord 16 0x0130 = some (.laRegister 1) ∧
    decodeTableWord 56 0xEBB00101000781 = some (.rpWrite 129 1) ∧ decodeTableWord 8 0x02 = none := by decide

/-! ### WellFormed: an ill-formed term for each check -/

/-- A string of `n` bytes. -/
def zeros (n : Nat) : Bytes := List.replicate n 0

theorem zeros_length (n : Nat) : (zeros n).length = n := List.length_replicate

theorem smoke_strOk : (Instr.crcCompute (zeros 65536)).wf = false := by
  simp only [Instr.wf, strOk, zeros_length]; rfl
theorem smoke_labelsIncreasing : (Instr.rmDecode { s12 with labels := [(1, 201), (1, 200)] } x12).wf = false := by decide
/-- A label for every offset: one entry more than `K` can count. -/
def manyLabels (n : Nat) : List (Half × Half) := (List.range n).map fun o => (BitVec.ofNat 16 o, 0)

theorem manyLabels_length (n : Nat) : (manyLabels n).length = n := by simp [manyLabels]

theorem smoke_labelsLength : (Instr.rmTfmt { s12 with labels := manyLabels 65536 } x12).wf = false := by
  simp only [Instr.wf, Desc.wf, manyLabels_length, Nat.lt_irrefl, decide_false, Bool.and_false, Bool.false_and]
theorem smoke_descriptorString : (Instr.rmHeat s12 (zeros 65536)).wf = false := by
  simp only [Instr.wf, strOk, zeros_length, Nat.lt_irrefl, decide_false, Bool.and_false]
theorem smoke_framePayload : (Instr.rqWrite 1 129 0 (zeros 65525)).wf = false := by
  simp only [Instr.wf, framePayloadOk, zeros_length]; rfl
theorem smoke_replyDest : (Instr.rpWrite 130 1).wf = false := by decide
theorem smoke_replySource : (Instr.rpRead 129 33 0 0 0 0 []).wf = false ∧ (Instr.rpWrite 160 0).wf = false := by decide

/-! ### One step per instruction (sections 2 to 7) -/

theorem test_crcCompute : responseTo [0x01, 0x02, 0x00, 0x12, 0x34] = some [0x00, 0xC9, 0x0E] := by decide
/-- The accumulators end as the trace of section 2.2 shows. -/
theorem test_crcCompute_registers :
    (after (exec (.crcCompute [0x12, 0x34]) bench)).map (fun s => (s.ce.hi, s.ce.lo, s.ce.t)) = some (0x0E, 0xC9, 9) := by
  decide
theorem test_encRead :
    responseTo [0x10, 0x20, 0xA0, 0x12, 0x01] =
      some [0x00, 0x0B, 0x00, 0x20, 0x0B, 0x00, 0xA0, 0x00, 0x12, 0x01, 0xFF, 0xFF, 0xF9, 0x54] := by decide
theorem test_encWrite :
    lastMail (exec (.encWrite 1 129 0x1234 [0xAA, 0xBB, 0xCC]) bench) =
      some [0x00, 0x0E, 0x00, 0x01, 0x0E, 0x00, 0x81, 0x01, 0x34, 0x12, 0x03, 0x00, 0xAA, 0xBB, 0xCC, 0x83, 0x80] := by
  decide
/-- With `MAX_FRAME = 11` no payload byte fits (R142). -/
theorem test_encWrite_tooLong :
    lastMail (exec (.encWrite 1 129 0 [0x05]) { bench with params := { bench.params with maxFrame := ⟨11, by decide⟩ } }) =
      some [0x84] := by decide
theorem test_decVerify : lastMail (exec (.decVerify 129 1 .read reply5A) bench) = some [0x00, 0x01, 0x00, 0x5A] := by
  decide
/-- Section 4.3: the acknowledgment with declared length 8. -/
theorem test_decVerify_writeLength :
    lastMail (exec (.decVerify 129 1 .write [0x81, 0x08, 0x00, 0x01, 0x01, 0x5E, 0x3F]) bench) = some [0x0A] := by decide
theorem test_rmDecode :
    lastMail (exec (.rmDecode s9 p9) bench) =
      some [0x00, 0x03, 0x00, 0x00, 0x00, 0xC8, 0x00, 0x00, 0x01, 0x00, 0xC9, 0x00, 0x00, 0x08, 0x00, 0xD0, 0x00, 0x01] := by
  decide
theorem test_rmRaw : lastMail (exec (.rmRaw 11 x12) bench) = some [0x00, 0xD7] := by decide
theorem test_rmRaw_absent : lastMail (exec (.rmRaw 12 x12) bench) = some [0x83] := by decide
theorem test_rmTfmt : lastMail (exec (.rmTfmt s12 x12) bench) = some [0x00, 0x00] := by decide
theorem test_rmTarget : lastMail (exec (.rmTarget s12 x12) bench) = some [0x00, 0x15] := by decide
theorem test_rmFrost : lastMail (exec (.rmFrost s12 x12) bench) = some [0x00, 0x0C] := by decide
theorem test_rmSensel : lastMail (exec (.rmSensel s12 (x12.set 1 4)) bench) = some [0x00, 0x04, 0x01, 0x06, 0x00] := by
  decide
theorem test_rmCurtemp :
    lastMail (exec (.rmCurtemp s12 ((x12.set 10 0x15).set 11 0x32)) bench) = some [0x00, 0x32, 0x15, 0x1E, 0x02, 0x06] := by
  decide
theorem test_rmCurtemp_remote :
    lastMail (exec (.rmCurtemp s12 (x12.set 1 4)) bench) = some [0x00, 0xC6, 0x00, 0x13, 0x00, 0x08] := by decide
theorem test_rmRunmode : lastMail (exec (.rmRunmode s12 (x12.set 4 2)) bench) = some [0x00, 0x02, 0xFF] := by decide
theorem test_rmHeat : lastMail (exec (.rmHeat s12 (x12.set 5 2)) bench) = some [0x00, 0x02, 0x01] := by decide
theorem test_laRegister : lastMail (exec (.laRegister 33) bench) = some [0x81] := by decide
theorem test_laRegister_again :
    lastMail (exec (.laRegister 1) registered) = some [0x0D] ∧ lastMail (exec (.laRegister 32) registered) = some [0x00] := by
  decide
theorem test_laExchange_unregistered : lastMail (exec (.laExchange 3 f1) registered) = some [0x82] := by decide
/-- The frame's byte 0 is 1, the address 2: not checked (R216). -/
theorem test_laExchange_posts :
    (after (exec (.laExchange 2 f1) registered)).map (fun s => s.req[1]) = some (.pending f1) := by decide
theorem test_rqRead : (after (exec (.rqRead 1 129 0) registered)).map (fun s => s.req[0]) = some (.pending f1) := by decide
theorem test_rqWrite :
    (after (exec (.rqWrite 1 129 18 [0x15]) registered)).map (fun s => s.req[0]) =
      some (.pending [0x01, 0x0C, 0x00, 0x81, 0x01, 0x12, 0x00, 0x01, 0x00, 0x15, 0x29, 0x58]) := by decide
theorem test_rpRead : (after (exec (.rpRead 129 1 0 0 1 0 [0x5A]) bench)).map (fun s => s.env.rx) = some [reply5A] := by
  decide
theorem test_rpWrite : (after (exec (.rpWrite 129 1) bench)).map (fun s => s.env.rx) = some [ack] := by decide

/-- The link, the slot of address 1 and the history. -/
def link (o : Out) : Option (Bool × Slot × List Event) := (after o).map fun s => (s.lock, s.req[0], s.hist)

/-- Each client's status and the responses it received. -/
def served (o : Out) : Option (List (ClientStatus × List Bytes)) :=
  (after o).map fun s => s.clients.map fun c => (c.status, c.mail)

/-! ### The arbiter's steps (section 6.3, program P1) -/

/-- Client 0 waits for its exchange with address 1. -/
def waiting : State :=
  { registered with
    req := registered.req.set 0 (.pending f1)
    clients := [{ freshClient with status := .blocked 0 }]
    order := [0]
    issuer := registered.issuer.set 0 (some 0) }

/-- The link is held for that exchange. -/
def inFlight : State :=
  { waiting with
    req := waiting.req.set 0 (.active f1), lock := true, owner := 0, hist := [.wrote 0 f1], order := [] }

/-- The settled turns and transport answers of a step. -/
def facing (s : State) (turns : List Turn) (tx : List TxResult) (rx : List Bytes) : State :=
  { s with env := { s.env with turns := turns, tx := tx, rx := rx } }

theorem test_grant :
    link (step (facing waiting [.grant 0] [.ok] [])) = some (true, .active f1, [.wrote 0 f1]) := by decide
theorem test_grant_ioError :
    link (step (facing waiting [.grant 0] [.ioError] [])) = some (false, .idle, [.wrote 0 f1]) ∧
    served (step (facing waiting [.grant 0] [.ioError] [])) = some [(.ready, [[0x0F]])] := by decide
theorem test_complete :
    lastMail (step (facing inFlight [.complete] [] [ack])) = some [0x00, 0x07, 0x00, 0x81, 0x07, 0x00, 0x01, 0x01, 0xB0, 0xEB] := by
  decide
theorem test_complete_timeout :
    link (step (facing inFlight [.complete] [] [[]])) = some (false, .idle, [.wrote 0 f1, .read 0 []]) ∧
    served (step (facing inFlight [.complete] [] [[]])) = some [(.ready, [[0x01]])] := by decide
/-- Bytes beyond `MAX_FRAME` stay for the next read (R296). -/
theorem test_residue :
    ({ facing inFlight [] [] [[1, 2, 3, 4, 5, 6, 7, 8, 9, 10, 11, 12]] with
        params := { bench.params with maxFrame := ⟨11, by decide⟩ } } : State).rxRead.2.env.rx = [[12]] := by decide
theorem test_reset :
    link (step (facing inFlight [.reset] [] [])) = some (false, .idle, []) ∧
    served (step (facing inFlight [.reset] [] [])) = some [(.lost, [])] ∧
    (after (step (facing inFlight [.reset] [] []))).map (fun s => s.regv[0]) = some false := by decide
/-- With nothing placed the reset state waits (log entry 11). -/
theorem test_idle : after (step State.reset) = some State.reset := by decide

/-! ### Host calls (programs P1 and P2) -/

/-- A client of thermostat 1. -/
def owned : Client := { freshClient with ident := some ⟨1, s12⟩ }

/-- The machine with one client, whose turn it is. -/
def turnOf (c : Client) : State := facing { registered with clients := [c] } [.client 0] [] []

theorem test_setter_rejects :
    (after (step (turnOf { owned with prog := [.call (.setTargetTemperature 36) 0] }))).map
      (fun s => s.clients.map (fun c => (c.mail, c.done))) = some [([], [[0x0C]])] := by decide
theorem test_setter_encodes :
    lastMail (step { turnOf { owned with prog := [.call (.setTargetTemperature 22) 0] } with
      params := { bench.params with waddrTarget := 18 } }) =
      some [0x00, 0x0C, 0x00, 0x01, 0x0C, 0x00, 0x81, 0x01, 0x12, 0x00, 0x01, 0x00, 0x16, 0x4A, 0x68] := by decide
theorem test_getter :
    lastMail (step (turnOf { owned with snap := some x12, prog := [.call .getCurrentTemperature 0] })) =
      some [0x00, 0xD7, 0x00, 0x15, 0x00, 0x05] := by decide

theorem test_construct_again :
    lastMail (step (turnOf { owned with snap := some x12, prog := [.call (.construct 3 s9) 0] })) = some [0x00] ∧
    lastMail (step (turnOf { owned with snap := some x12, prog := [.call (.construct 2 s9) 0] })) = some [0x0D] := by decide
/-- Once its program is used up a client takes the first item of what it repeats, and keeps the rest of the round. -/
theorem test_again :
    (after (step (turnOf { freshClient with again := [.command [0x30, 0x03], .command [0x30, 0x04]] }))).map
      (fun s => s.clients.map (fun c => (c.mail, c.prog))) = some [([[0x00]], [.command [0x30, 0x04]])] := by decide
/-- A schedule that is repeated: the next round begins where the listed turns are used up. -/
theorem test_cycle :
    (after (step { bench with env := { bench.env with cycle := [.arrive [1], .arrive [2]] } })).map
      (fun s => (s.env.rx, s.env.upcoming)) = some ([[1]], [.arrive [2]]) := by decide

/-! ### Witnesses: states and operands that meet the hypotheses of each statement -/

/-- The head of the settled turns is taken where the arbiter is not overdue. -/
theorem settled {s : State} {u : Turn} {turns : List Turn} (h : s.env.upcoming = u :: turns)
    (hi : s.env.idle ≤ s.env.patience) : Settled s u turns :=
  ⟨h, fun ho => absurd hi (by simp [overdue] at ho; omega)⟩

theorem turnOf_settled (c : Client) : Settled (turnOf c) (.client 0) [] := settled rfl (Nat.zero_le _)

/-- A client with this item next. -/
def issuer (q : Request) : Client := { freshClient with prog := [q] }

theorem turnOf_issues (q : Request) : IssuesNext (turnOf (issuer q)) 0 (issuer q) q [] [] := ⟨⟨turnOf_settled _, rfl, rfl⟩, rfl, rfl⟩

theorem witness_DecodeOfEncodeIsIdentity :
    (Instr.rpRead 129 1 0 0 0 0 []).wf = true ∧ (Instr.rpWrite 160 32).wf = true ∧ (Instr.rmDecode s12 x12).wf = true ∧
    (Instr.rqWrite 0 255 0xFFFF [1]).wf = true := by decide

theorem witness_EncodeOfDecodeIsIdentity :
    decodeAt Config.ccittLut .command [0x30, 0x01] = .ok (.laRegister 1) ∧
    decodeAt Config.ccittLut .request f1 = .ok (.rqRead 1 129 0) ∧
    decodeAt Config.ccittLut .reply ack = .ok (.rpWrite 129 1) := ⟨rfl, rfl, rfl⟩

/-- The block of section 5 is what the table of R93 says. -/
theorem witness_DescriptorsFollowTheOpcodeMap :
    s12Block = ([s12.offTfmt, s12.offTarget, s12.offFrost, s12.offSensel, s12.offRunmode, s12.offHeat, s12.pairBuiltin,
      s12.pairRemote, s12.pairFloor, BitVec.ofNat 16 s12.labels.length].flatMap fun v => le16 v.toNat) ++
      s12.labels.flatMap (fun e => le16 e.1.toNat ++ le16 e.2.toNat) := by decide

theorem witness_MalformedDescriptorAnswersIllegalCommand :
    IssuesNext (turnOf (issuer (.command [0x02]))) 0 (issuer (.command [0x02])) (.command [0x02]) [] [] ∧
    (∀ i : Instr, i.port = .command → i.wf = true → encode i ≠ [0x02]) := by
  refine ⟨turnOf_issues _, fun i hp _ => ?_⟩
  cases i <;> simp [encode, encodeAt, Instr.port] at hp ⊢

/-- Each range of reserved opcodes at its ends. -/
theorem witness_reservedOpcodes :
    ∀ op ∈ ([0x00, 0x02, 0x0F, 0x12, 0x17, 0x19, 0x1F, 0x29, 0x2F, 0x32, 0xFF] : Bytes),
      op.toNat = 0 ∨ (0x02 ≤ op.toNat ∧ op.toNat ≤ 0x0F) ∨ (0x12 ≤ op.toNat ∧ op.toNat ≤ 0x17) ∨
        (0x19 ≤ op.toNat ∧ op.toNat ≤ 0x1F) ∨ (0x29 ≤ op.toNat ∧ op.toNat ≤ 0x2F) ∨ 0x32 ≤ op.toNat := by decide

theorem witness_StepRunsDecodedCommand :
    IssuesNext (turnOf (issuer (.command [0x30, 0x01]))) 0 (issuer (.command [0x30, 0x01])) (.command [0x30, 0x01]) [] [] ∧
    decode [0x30, 0x01] = .ok (.laRegister 1) := ⟨turnOf_issues _, rfl⟩

theorem witness_StepRunsDecodedFrame_request :
    IssuesNext (turnOf (issuer (.frame f1))) 0 (issuer (.frame f1)) (.frame f1) [] [] ∧
    decodeRequest (turnOf (issuer (.frame f1))).lut f1 = .ok (.rqRead 1 129 0) := ⟨turnOf_issues _, rfl⟩

theorem witness_StepRunsDecodedFrame_noRequest :
    IssuesNext (turnOf (issuer (.frame ack))) 0 (issuer (.frame ack)) (.frame ack) [] [] ∧
    decodeRequest (turnOf (issuer (.frame ack))).lut ack = .error .notAFrame := ⟨turnOf_issues _, rfl⟩

theorem witness_StepRunsDecodedFrame_reply :
    (∀ raw : Bytes, Settled (facing bench [.arrive raw] [] []) (.arrive raw) []) ∧
    decodeReply (facing bench [.arrive ack] [] []).lut ack = .ok (.rpWrite 129 1) ∧
    decodeReply (facing bench [.arrive [0x81]] [] []).lut [0x81] = .error .notAFrame :=
  ⟨fun _ => settled rfl (Nat.zero_le _), rfl, rfl⟩

theorem witness_WorkingRegistersNeverReachAResult :
    ∃ t, exec (.crcCompute [0x12]) bench = .next t ∧ t.ce ≠ bench.ce := ⟨_, rfl, by decide⟩

/-- `bench` with `MAX_FRAME = 11`: one payload byte is too many, none fits. -/
def smallest : State := { bench with params := { bench.params with maxFrame := ⟨11, by decide⟩ } }

theorem witness_EncWriteAnswersWriteRequest :
    ([0x05] : Bytes).length > smallest.params.maxFrame.val - 11 ∧
    ([] : Bytes).length ≤ smallest.params.maxFrame.val - 11 := by decide

theorem witness_DecVerifyFollowsTheCheckList :
    firstFailure (verifyChecks Config.ccittLut 129 2 .write ack) = some .sourceMismatch ∧
    firstFailure (verifyChecks Config.ccittLut 129 1 .write ack) = none ∧
    firstFailure (verifyChecks Config.ccittLut 129 1 .read []) = some .tooShort := by decide

/-- Both master codes, the first and the last source. -/
theorem witness_replyAddresses :
    ((129 : Byte) = 129 ∨ (129 : Byte) = 160) ∧ ((160 : Byte) = 129 ∨ (160 : Byte) = 160) ∧
    1 ≤ (1 : Byte).toNat ∧ (1 : Byte).toNat ≤ 32 ∧ 1 ≤ (32 : Byte).toNat ∧ (32 : Byte).toNat ≤ 32 ∧
    11 + ([0x5A] : Bytes).length < 65536 := by decide

theorem witness_OnlyTheAcknowledgmentAnswersAWrite :
    bench.cur < bench.clients.length ∧ ∃ t, exec (.decVerify 129 1 .write ack) bench = .next t ∧
      Answers bench t (0x00 :: [0x00, 0x00]) :=
  ⟨by decide, _, rfl, rfl, rfl, rfl, ⟨rfl, rfl, rfl, rfl, rfl, rfl, rfl⟩, rfl, rfl⟩

theorem witness_RequestsFailAtTheDestination : (1 : Byte) ≠ 129 ∧ (1 : Byte) ≠ 160 := by decide

/-- The last offset the snapshot reaches and the first it does not, with each of the four commands. -/
theorem witness_ValueFieldsAnswerTheByte :
    (∀ i ∈ [Instr.rmRaw 11 x12, .rmTfmt { s12 with offTfmt := 11 } x12, .rmTarget { s12 with offTarget := 11 } x12,
        .rmFrost { s12 with offFrost := 11 } x12],
      i = .rmRaw 11 x12 ∨ ∃ d : Desc, (i = .rmTfmt d x12 ∧ d.offTfmt = 11) ∨ (i = .rmTarget d x12 ∧ d.offTarget = 11) ∨
        (i = .rmFrost d x12 ∧ d.offFrost = 11)) ∧
    x12[(11 : Half).toNat]? = some 0xD7 ∧ x12.length ≤ (12 : Half).toNat := by
  refine ⟨?_, by decide, by decide⟩
  simp

theorem witness_RunModeAndHeatAnswer :
    x12[s12.offRunmode.toNat]? = some 0x00 ∧ x12[s12.offHeat.toNat]? = some 0x01 ∧
    p9.length ≤ s9.offRunmode.toNat ∧ ([] : Bytes).length ≤ s9.offHeat.toNat := by decide

/-- The five defined codes, the first undefined one and the last. -/
theorem witness_SensorSelectionResolves :
    (∀ code ∈ ([0, 3] : Bytes), (x12.set 1 code)[s12.offSensel.toNat]? = some code ∧ (code = 0 ∨ code = 3)) ∧
    (∀ code ∈ ([1, 4] : Bytes), (x12.set 1 code)[s12.offSensel.toNat]? = some code ∧ (code = 1 ∨ code = 4)) ∧
    (∀ code ∈ ([2, 5, 255] : Bytes), (x12.set 1 code)[s12.offSensel.toNat]? = some code ∧ (code = 2 ∨ 5 ≤ code.toNat)) ∧
    ([] : Bytes).length ≤ s12.offSensel.toNat := by decide

/-- A pair that ends the snapshot, and one that reaches one byte too far. -/
theorem witness_CurrentTemperatureIsTheResolvedPair :
    x12[s12.offSensel.toNat]? = some 0 ∧ s12.pairBuiltin.toNat = 10 ∧ x12[10]? = some 0x00 ∧ x12[10 + 1]? = some 0xD7 ∧
    (x12.take 11)[s12.offSensel.toNat]? = some 0 ∧ (x12.take 11).length ≤ 10 + 1 ∧
    ([] : Bytes).length ≤ s12.offSensel.toNat := by decide

theorem witness_PureCommandsDependOnOperandsOnly :
    isPure (.rmHeat s12 x12) = true ∧ SameConfig bench registered := ⟨rfl, rfl, rfl⟩

theorem witness_RegisterIsTestAndSet :
    (0 : Byte).toNat < 1 ∧ 32 < (33 : Byte).toNat ∧ registered.regv[(0 : BusAddr)] = true ∧
    bench.regv[(0 : BusAddr)] = false ∧ bench.regv[(31 : BusAddr)] = false := by decide

theorem witness_ExchangePostsItsFrame :
    (0 : Byte).toNat < 1 ∧ 32 < (33 : Byte).toNat ∧ registered.regv[(2 : BusAddr)] = false ∧
    (waiting.regv[(0 : BusAddr)] = true ∧ waiting.req[(0 : BusAddr)] ≠ .idle) ∧
    (inFlight.regv[(0 : BusAddr)] = true ∧ inFlight.req[(0 : BusAddr)] ≠ .idle) ∧
    (registered.regv[(1 : BusAddr)] = true ∧ registered.req[(1 : BusAddr)] = .idle) := by decide

/-- `waiting` under `fifo`. -/
def waitingFifo : State := { waiting with params := { waiting.params with arbPolicy := .fifo } }

theorem witness_GrantWritesTheFrame :
    (facing waitingFifo [.grant 0] [.ok] []).env.upcoming = .grant 0 :: [] ∧ waitingFifo.lock = false ∧
    waitingFifo.req[(0 : BusAddr)] = .pending f1 ∧ waitingFifo.params.arbPolicy = .fifo ∧
    waitingFifo.order.head? = some 0 ∧ waiting.params.arbPolicy ≠ .fifo ∧
    (afterArbiter (facing waitingFifo [.grant 0] [.ok] []) []).txWrite.1 = .ok ∧
    (afterArbiter (facing waitingFifo [.grant 0] [.ioError] []) []).txWrite.1 = .ioError ∧
    waitingFifo.issuer[(0 : BusAddr)] = some 0 := by decide

theorem witness_CompleteAnswersTheReply :
    (facing inFlight [.complete] [] [ack]).env.upcoming = .complete :: [] ∧ inFlight.lock = true ∧
    ack = (afterArbiter (facing inFlight [.complete] [] [ack]) []).rxRead.1 ∧
    [] = (afterArbiter (facing inFlight [.complete] [] [[]]) []).rxRead.1 ∧ inFlight.issuer[inFlight.owner] = some 0 := by
  decide

/-- Exactly `MAX_FRAME` bytes, and one more. -/
theorem witness_ReadReturnsAtMostMaxFrame :
    ((facing smallest [] [] [f1]).env.rx = f1 :: [] ∧ f1.length ≤ smallest.params.maxFrame.val) ∧
    ((facing smallest [] [] [f1 ++ [0]]).env.rx = (f1 ++ [0]) :: [] ∧ smallest.params.maxFrame.val < (f1 ++ [0]).length) := by
  decide

/-- With the link held: a step that leaves it, the complete step, and a reset. -/
theorem witness_NoEventBetweenWriteAndRead :
    inFlight.lock = true ∧ (∃ t, step (facing inFlight [.grant 0] [] []) = .next t) ∧
    (∃ t, step (facing inFlight [.complete] [] [ack]) = .next t) ∧ ∃ t, step (facing inFlight [.reset] [] []) = .next t :=
  ⟨rfl, ⟨_, rfl⟩, ⟨_, rfl⟩, _, rfl⟩

/-- A grant under `fifo`, and a post: the slot is idle before the step and pending after it. -/
theorem witness_FifoGrantsTheLongestPending :
    (waitingFifo.params.arbPolicy = .fifo ∧ ∃ t, step (facing waitingFifo [.grant 0] [.ok] []) = .next t ∧
      t.hist = waitingFifo.hist ++ [.wrote 0 f1]) ∧
    ∃ t, step (turnOf (issuer (.frame f1))) = .next t ∧ (turnOf (issuer (.frame f1))).req[(0 : BusAddr)] = .idle ∧
      t.req[(0 : BusAddr)] = .pending f1 :=
  ⟨⟨rfl, _, rfl, by decide⟩, _, rfl, by decide, by decide⟩

/-- `waitingFifo` with a second request, posted later, of a second client. -/
def waitingTwo : State :=
  { waitingFifo with
    req := waitingFifo.req.set 1 (.pending f1)
    clients := [{ freshClient with status := .blocked 0 }, { freshClient with status := .blocked 1 }]
    order := [0, 1]
    issuer := waitingFifo.issuer.set 1 (some 1) }

/-- With the link held; of an idle slot; under `fifo` of the later of two requests; a complete step with the link free; a
client that is blocked, that has nothing to do, that does not exist. -/
theorem witness_DisabledTurnsDoNothing :
    (∀ u : Turn, Settled (facing bench [u] [] []) u [] ∧ Settled (facing inFlight [u] [] []) u [] ∧
      Settled (facing waiting [u] [] []) u [] ∧ Settled (facing waitingTwo [u] [] []) u []) ∧
    ¬Enabled inFlight (.grant 1) ∧ ¬Enabled bench (.grant 0) ∧ ¬Enabled waitingTwo (.grant 1) ∧ ¬Enabled waiting .complete ∧
    ¬Enabled waiting (.client 0) ∧ ¬Enabled bench (.client 0) ∧ ¬Enabled bench (.client 1) ∧
    ofAgent (.grant 0) = true ∧ ofAgent .complete = true ∧ ofAgent (.client 0) = true := by
  refine ⟨fun _ => ⟨settled rfl (Nat.zero_le _), settled rfl (Nat.zero_le _), settled rfl (Nat.zero_le _),
    settled rfl (Nat.zero_le _)⟩, fun h => (by cases h.1), fun h => ?_, fun h => (by cases h.2.2 rfl), fun h => (by cases h),
    fun h => ?_, fun h => ?_, fun h => ?_, rfl, rfl, rfl⟩
  · obtain ⟨_, h⟩ := h.2.1; cases h
  · obtain ⟨_, h, hs, _⟩ := h; cases h; cases hs
  · obtain ⟨_, h, _, hr⟩ := h; cases h; simp [freshClient, Client.upcoming] at hr
  · obtain ⟨_, h, _⟩ := h; cases h

/-- The arbiter has waited one step too long, and so it goes before this settled turn. -/
def overdueBefore (s : State) (u : Turn) : State :=
  { s with env := { s.env with turns := [u], patience := 2, idle := 3, rx := [ack] } }

/-- An overdue complete step goes before a client's turn, which stays; an arbiter that has not waited longer than it may
does not. -/
theorem test_overdue :
    (after (step (overdueBefore inFlight (.client 0)))).map (fun s => (s.lock, s.env.idle, s.env.turns)) =
      some (false, 0, [.client 0]) ∧
    (after (step { overdueBefore inFlight (.client 0) with
        env := { (overdueBefore inFlight (.client 0)).env with idle := 2 } })).map
      (fun s => (s.lock, s.env.idle, s.env.turns)) = some (true, 3, []) := by decide
/-- A reset is not held up (R290), and the settled complete step is used up. -/
theorem test_overdue_passes :
    (after (step (overdueBefore inFlight .reset))).map (fun s => (s.lock, s.hist, s.env.turns)) =
      some (false, [], []) ∧
    (after (step (overdueBefore inFlight .complete))).map (fun s => (s.lock, s.env.turns)) = some (false, []) := by decide

/-- Two enabled grants under `any`, one enabled complete step, open and before a settled turn, and no enabled agent. -/
theorem witness_OpenTurnsAreEnabled :
    (∀ (v : Turn) (turns : List Turn), ¬Settled (facing inFlight [] [] []) v turns) ∧
    openTurn (facing inFlight [] [] []) = some .complete ∧
    (∀ (v : Turn) (turns : List Turn), ¬Settled (overdueBefore inFlight (.client 0)) v turns) ∧
    overdue (overdueBefore inFlight (.client 0)) = true ∧
    openTurn (overdueBefore inFlight (.client 0)) = some .complete ∧
    Enabled { waitingTwo with params := waiting.params } (.grant 0) ∧
    Enabled { waitingTwo with params := waiting.params } (.grant 1) ∧ Enabled waitingTwo (.grant 0) ∧
    State.reset.env.upcoming = [] ∧ ∀ u : Turn, ¬Enabled State.reset u := by
  refine ⟨settledTurn_eq_none.1 (by decide), by decide, settledTurn_eq_none.1 (by decide), by decide, by decide,
    ⟨rfl, ⟨f1, by decide⟩, fun h => (by cases h)⟩, ⟨rfl, ⟨f1, by decide⟩, fun h => (by cases h)⟩,
    ⟨rfl, ⟨f1, by decide⟩, fun _ => rfl⟩, rfl, fun u h => ?_⟩
  cases u with
  | client k => obtain ⟨_, h, _⟩ := h; cases h
  | grant a =>
    obtain ⟨_, h⟩ := h.2.1
    have hi : ∀ a : BusAddr, State.reset.req[a] = .idle := by decide
    rw [hi a] at h; cases h
  | _ => cases h

theorem witness_RegistrationClearedOnlyByReset :
    registered.regv[(0 : BusAddr)] = true ∧ (∃ t, step (facing registered [.grant 0] [] []) = .next t) ∧
    ∃ t, step (facing registered [.reset] [] []) = .next t := ⟨rfl, ⟨_, rfl⟩, _, rfl⟩

/-- An issuer table and a client that is blocked agree where exactly one client is blocked. -/
theorem blockedIff_single {v : Vector (Option Nat) 32} (h : ∀ a : BusAddr, v[a] = if a = 0 then some 0 else none)
    (c : Client) (hc : c.status = .blocked 0) (a : BusAddr) (k : Nat) :
    v[a] = some k ↔ ∃ d, [c][k]? = some d ∧ d.status = .blocked a := by
  rw [h a]
  cases k with
  | zero =>
    simp only [List.getElem?_cons_zero, Option.some.injEq, exists_eq_left', hc, ClientStatus.blocked.injEq]
    by_cases ha : a = 0
    · simp [ha]
    · simp [ha, Ne.symm ha]
  | succ k => by_cases ha : a = 0 <;> simp [ha]

theorem waiting_inv : waiting.Inv :=
  ⟨⟨by decide, by decide, by decide, by decide⟩, by decide, by decide, by decide,
    blockedIff_single (by decide) _ rfl⟩

theorem inFlight_inv : inFlight.Inv :=
  ⟨⟨by decide, by decide, by decide, by decide⟩, by decide, by decide, by decide,
    blockedIff_single (by decide) _ rfl⟩

/-- The invariant says nothing about the environment. -/
theorem facing_inv {s : State} (h : s.Inv) (turns : List Turn) (tx : List TxResult) (rx : List Bytes) :
    (facing s turns tx rx).Inv :=
  ⟨⟨h.1.1, h.1.2, h.1.3, h.1.4⟩, h.2.1, h.2.2, h.2.3, h.2.4⟩

theorem waitingTwo_inv : waitingTwo.Inv := by
  refine ⟨⟨by decide, by decide, by decide, by decide⟩, by decide, by decide, by decide, fun a k => ?_⟩
  have h : ∀ a : BusAddr, waitingTwo.issuer[a] = if a = 0 then some 0 else if a = 1 then some 1 else none := by decide
  rw [h a]
  match k with
  | 0 => by_cases ha : a = 0 <;> simp [ha, waitingTwo]; exact fun h => ha h.symm
  | 1 => by_cases ha : a = 0 <;> simp [ha, waitingTwo]; exact eq_comm
  | k + 2 => by_cases ha : a = 0 <;> simp [ha, waitingTwo]

/-- The request that heads the order and the one behind it, at the grant of the first. -/
theorem witness_FifoWaitIsBounded :
    (facing waitingTwo [.grant 0] [.ok] []).Inv ∧ waitingTwo.params.arbPolicy = .fifo ∧ 0 ∈ waitingTwo.order ∧
    1 ∈ waitingTwo.order ∧ (∃ t, step (facing waitingTwo [.grant 0] [.ok] []) = .next t) ∧
    (facing waitingTwo [.grant 0] [.ok] []).env.upcoming.head? ≠ some .reset :=
  ⟨facing_inv waitingTwo_inv _ _ _, rfl, by decide, by decide, ⟨_, rfl⟩, by decide⟩

/-- The link held and the next step leaving it held or freeing it, in time and overdue; free with a request waiting. -/
theorem witness_GrantedExchangesEnd :
    ((facing inFlight [.client 0] [] []).Inv ∧ inFlight.lock = true ∧
      ∃ t, step (facing inFlight [.client 0] [] []) = .next t ∧ t.lock = true) ∧
    ((overdueBefore inFlight (.client 0)).Inv ∧
      (overdueBefore inFlight (.client 0)).env.patience + 1 < 1 + (overdueBefore inFlight (.client 0)).env.idle ∧
      ∃ t, Sys2Proof.core.run 1 (overdueBefore inFlight (.client 0)) = .next t) ∧
    ((facing waiting [.complete] [] []).Inv ∧ waiting.lock = false ∧ waiting.req[(0 : BusAddr)] = .pending f1 ∧
      ∃ t, step (facing waiting [.complete] [] []) = .next t) :=
  ⟨⟨facing_inv inFlight_inv _ _ _, rfl, _, rfl, rfl⟩,
    ⟨⟨⟨inFlight_inv.1.1, inFlight_inv.1.2, inFlight_inv.1.3, inFlight_inv.1.4⟩, inFlight_inv.2.1, inFlight_inv.2.2,
      inFlight_inv.2.3, inFlight_inv.2.4⟩, by decide, _, rfl⟩,
    facing_inv waiting_inv _ _ _, rfl, rfl, _, rfl⟩

theorem witness_StepKeepsArbiterInvariant :
    (facing waiting [.grant 0] [.ok] []).Inv ∧ (∃ t, step (facing waiting [.grant 0] [.ok] []) = .next t) ∧
    (facing inFlight [.complete] [] [ack]).Inv ∧ ∃ t, step (facing inFlight [.complete] [] [ack]) = .next t :=
  ⟨facing_inv waiting_inv _ _ _, ⟨_, rfl⟩, facing_inv inFlight_inv _ _ _, _, rfl⟩

theorem witness_StepKeepsReadsPaired :
    (facing inFlight [.complete] [] [ack]).HistInv ∧ ∃ t, step (facing inFlight [.complete] [] [ack]) = .next t :=
  ⟨⟨by decide, fun _ => ⟨f1, rfl, rfl⟩⟩, _, rfl⟩

theorem witness_StepKeepsConfiguration : ∃ t, step (facing waiting [.grant 0] [.ok] []) = .next t := ⟨_, rfl⟩

/-- A reset with a client of each status. -/
theorem witness_ResetDropsOutstandingExchanges :
    (facing waiting [.reset] [] []).env.upcoming = .reset :: [] ∧ (∃ c, waiting.clients[0]? = some c ∧ c.status = .blocked 0) ∧
    (∃ c, bench.clients[0]? = some c ∧ c.status = .ready) := ⟨rfl, ⟨_, rfl, rfl⟩, _, rfl, rfl⟩

/-- The reset state with one client whose request a reset dropped. -/
def dropped : State := facing { State.reset with clients := [{ freshClient with status := .lost }] } [.client 0] [] []

theorem witness_DroppedRequestsAreNeverAnswered :
    dropped.Inv ∧ (∃ c, dropped.clients[0]? = some c ∧ c.status = .lost) ∧ ∃ t, step dropped = .next t := by
  refine ⟨⟨⟨by decide, by decide, by decide, by decide⟩, by decide, by decide, by decide, fun a k => ?_⟩, ⟨_, rfl, rfl⟩, _,
    rfl⟩
  have h : ∀ a : BusAddr, dropped.issuer[a] = none := by decide
  rw [h a]
  cases k with
  | zero => exact ⟨fun e => (by cases e), fun ⟨c, e, hs⟩ => by cases e; cases hs⟩
  | succ k => exact ⟨fun e => (by cases e), fun ⟨c, e, _⟩ => by cases e⟩

theorem witness_RequestFramesArePosted :
    busByte 0 = 1 ∧ registered.regv[(0 : BusAddr)] = true ∧ registered.req[(0 : BusAddr)] = .idle := by decide

theorem witness_ReplyFramesReachTheTransport :
    (Instr.rpRead 129 1 0 0 0 0 []).port = .reply ∧ (Instr.rpWrite 129 1).port = .reply := by decide

theorem witness_ErrorsChangeNothing :
    bench.clients[bench.cur]? = some freshClient ∧ ∃ t, exec (.laRegister 0) bench = .next t ∧
      t.clients[bench.cur]? = some { freshClient with mail := freshClient.mail ++ [[ErrKind.addrOutOfRange.code]] } :=
  ⟨rfl, _, rfl, rfl⟩

theorem witness_CommandsEndWithOneResponse : (Instr.laExchange 1 f1).port = .command ∧ (Instr.laRegister 1).port = .command :=
  ⟨rfl, rfl⟩

/-- A client of thermostat 1 with this item next. -/
def owner (q : Request) : Client := { owned with prog := [q] }

theorem owner_issues (q : Request) : IssuesNext (turnOf (owner q)) 0 (owner q) q [] [] := ⟨⟨turnOf_settled _, rfl, rfl⟩, rfl, rfl⟩

/-- The machine with a frost range of 7 to 17 and this client, whose turn it is. -/
def frosty (c : Client) : State :=
  { turnOf c with params := { State.reset.params with frostMin := 7, frostMax := 17 } }

theorem frosty_issues (q : Request) :
    IssuesNext (frosty (owner q)) 0 (owner q) q [] [] ∧ (owner q).ident = some ⟨1, s12⟩ :=
  ⟨⟨⟨settled rfl (Nat.zero_le _), rfl, rfl⟩, rfl, rfl⟩, rfl⟩

/-- The values next to each range: 4 and 36, mode 2 and 255, 6 and 18. -/
theorem witness_SettersRejectValuesOutOfRange :
    (∀ call : HostCall, IssuesNext (frosty (owner (.call call 0))) 0 (owner (.call call 0)) (.call call 0) [] [] ∧
      (owner (.call call 0)).ident = some ⟨1, s12⟩) ∧
    (4 : Byte).toNat < 5 ∧ 35 < (36 : Byte).toNat ∧ ((2 : Byte) ≠ 0 ∧ (2 : Byte) ≠ 1) ∧
    ((255 : Byte) ≠ 0 ∧ (255 : Byte) ≠ 1) ∧ 6 < (frosty owned).params.frostMin ∧ (frosty owned).params.frostMax < 18 :=
  ⟨fun _ => frosty_issues _, by decide, by decide, by decide, by decide, by decide, by decide⟩

/-- The bounds of each range. -/
theorem witness_SettersEncodeOneByteWrites :
    (∀ call : HostCall, IssuesNext (frosty (owner (.call call 3))) 0 (owner (.call call 3)) (.call call 3) [] [] ∧
      (owner (.call call 3)).ident = some ⟨1, s12⟩) ∧
    (5 ≤ (5 : Byte).toNat ∧ (5 : Byte).toNat ≤ 35) ∧ (5 ≤ (35 : Byte).toNat ∧ (35 : Byte).toNat ≤ 35) ∧
    ((0 : Byte) = 0 ∨ (0 : Byte) = 1) ∧ ((1 : Byte) = 0 ∨ (1 : Byte) = 1) ∧
    ((frosty owned).params.frostMin ≤ 7 ∧ 7 ≤ (frosty owned).params.frostMax) ∧
    ((frosty owned).params.frostMin ≤ 17 ∧ 17 ≤ (frosty owned).params.frostMax) :=
  ⟨fun _ => frosty_issues _, by decide, by decide, by decide, by decide, by decide, by decide⟩

theorem witness_ReadAllBeginsWithEncRead :
    (IssuesNext (turnOf (owner (.call .readAll 0))) 0 (owner (.call .readAll 0)) (.call .readAll 0) [] [] ∧
      (owner (.call .readAll 0)).ident = some ⟨1, s12⟩) ∧
    (IssuesNext (turnOf (owner (.call .refresh 0))) 0 (owner (.call .refresh 0)) (.call .refresh 0) [] [] ∧
      (owner (.call .refresh 0)).ident = some ⟨1, s12⟩) := ⟨⟨owner_issues _, rfl⟩, owner_issues _, rfl⟩

/-- A client whose call waits for the response `resp`, which has come. -/
def served0 (call : HostCall) (stage : Stage) (budget : Nat) (resp : Bytes) : Client :=
  { owned with running := some ⟨call, stage, budget⟩, mail := [resp] }

theorem served0_turn (call : HostCall) (stage : Stage) (budget : Nat) (resp : Bytes) :
    TurnOf (turnOf (served0 call stage budget resp)) 0 (served0 call stage budget resp) [] ∧
    (served0 call stage budget resp).ident = some ⟨1, s12⟩ ∧
    (served0 call stage budget resp).mail.getLast? = some resp := ⟨⟨turnOf_settled _, rfl, rfl⟩, rfl, rfl⟩

theorem witness_HostCallsIssueTheirNextCommand :
    f1.length < 65536 ∧ s12.wf = true ∧
    ∀ (call : HostCall) (stage : Stage),
      stage ∈ [.encoded .read, .exchanged .read, .verified .read, .verified .write, .last] →
      ∃ c, TurnOf (turnOf c) 0 c [] ∧ c.ident = some ⟨1, s12⟩ ∧
        c.mail.getLast? = some (0x00 :: (le16 f1.length ++ f1)) ∧ c.running = some ⟨call, stage, 0⟩ :=
  ⟨by decide, by decide, fun call stage _ => ⟨served0 call stage 0 _, (served0_turn _ _ _ _).1, rfl, rfl, rfl⟩⟩

/-- A verified read replaces the snapshot, and a `construct` of a client that has one. -/
theorem witness_SnapshotReplacedOnlyByAVerifiedRead :
    (∃ t c', step (turnOf (served0 .readAll (.verified .read) 0 [0x00, 0x01, 0x00, 0x5A])) = .next t ∧
      t.clients[0]? = some c' ∧ c'.snap ≠ (served0 .readAll (.verified .read) 0 [0x00, 0x01, 0x00, 0x5A]).snap) ∧
    ∃ t c', step (turnOf { served0 (.construct 3 s9) (.registered 3 s9) 0 [0x00] with snap := some x12 }) = .next t ∧
      t.clients[0]? = some c' ∧ c'.snap ≠ some x12 ∧ c'.ident = some ⟨3, s9⟩ :=
  ⟨⟨_, _, rfl, rfl, by decide⟩, _, _, rfl, rfl, by decide, rfl⟩

/-- Every getter, without a snapshot and with one. -/
theorem witness_GettersReadTheCachedSnapshot :
    x12.length < 65536 ∧ s12.wf = true ∧
    ∀ (call : HostCall) (snap : Option Bytes), snap ∈ [none, some x12] →
      ∃ c, IssuesNext (turnOf c) 0 c (.call call 0) [] [] ∧ c.ident = some ⟨1, s12⟩ ∧ c.snap = snap :=
  ⟨by decide, by decide, fun call snap _ =>
    ⟨{ owner (.call call 0) with snap := snap }, ⟨⟨turnOf_settled _, rfl, rfl⟩, rfl, rfl⟩, rfl, rfl⟩⟩

/-- `construct` by a client that was never made and by one that was; LA.REGISTER's `OK` for each; another call by the
first. -/
theorem witness_ConstructRegistersTheAddress :
    (∀ c ∈ [freshClient, owned], IssuesNext (turnOf { c with prog := [.call (.construct 3 s9) 0] }) 0
      { c with prog := [.call (.construct 3 s9) 0] } (.call (.construct 3 s9) 0) [] []) ∧
    (∀ c ∈ [freshClient, owned], ∃ d : Client, d.ident = c.ident ∧ TurnOf (turnOf d) 0 d [] ∧
      d.running = some ⟨.construct 3 s9, .registered 3 s9, 0⟩ ∧ d.mail.getLast? = some [0x00]) ∧
    (IssuesNext (turnOf (issuer (.call .readAll 0))) 0 (issuer (.call .readAll 0)) (.call .readAll 0) [] [] ∧
      (issuer (.call .readAll 0)).ident = none ∧ ∀ addr desc, HostCall.readAll ≠ .construct addr desc) := by
  refine ⟨?_, ?_, turnOf_issues _, rfl, fun _ _ h => (by cases h)⟩
  · intro c hc
    simp only [List.mem_cons, List.not_mem_nil, or_false] at hc
    rcases hc with rfl | rfl <;> exact ⟨⟨turnOf_settled _, rfl, rfl⟩, rfl, rfl⟩
  · intro c hc
    simp only [List.mem_cons, List.not_mem_nil, or_false] at hc
    rcases hc with rfl | rfl
    · exact ⟨{ freshClient with running := some ⟨.construct 3 s9, .registered 3 s9, 0⟩, mail := [[0x00]] }, rfl,
        ⟨turnOf_settled _, rfl, rfl⟩, rfl, rfl⟩
    · exact ⟨served0 (.construct 3 s9) (.registered 3 s9) 0 [0x00], rfl, ⟨turnOf_settled _, rfl, rfl⟩, rfl, rfl⟩

/-- A fatal kind with a retry left, a transient kind with none left, and one with a retry left, of a read and of each setter
at a bound of its range; and a `construct` that failed, of a client that was never made. -/
theorem witness_OnlyTransientErrorsAreRetried :
    ErrKind.sourceMismatch.cls ≠ .transient ∧ ErrKind.ioTimeout.cls = .transient ∧
    (∀ (call : HostCall) (kind : ErrKind) (budget : Nat), budget ≤ 1 →
      ∃ c, TurnOf (turnOf c) 0 c [] ∧ c.ident = some ⟨1, s12⟩ ∧
        c.running = some ⟨call, .exchanged .read, budget⟩ ∧ c.mail.getLast? = some [kind.code]) ∧
    (5 ≤ (5 : Byte).toNat ∧ (5 : Byte).toNat ≤ 35) ∧
    ((frosty owned).params.frostMin ≤ 17 ∧ 17 ≤ (frosty owned).params.frostMax) ∧
    ErrKind.duplicateAddressError.cls ≠ .transient ∧ ErrKind.addrOutOfRange.cls ≠ .transient ∧
    ∃ c : Client, TurnOf (turnOf c) 0 c [] ∧ c.ident = none ∧
      c.running = some ⟨.construct 1 s12, .registered 1 s12, 0⟩ ∧
      c.mail.getLast? = some [ErrKind.duplicateAddressError.code] :=
  ⟨by decide, by decide, fun call kind budget _ => ⟨served0 call (.exchanged .read) budget [kind.code],
    (served0_turn _ _ _ _).1, rfl, rfl, rfl⟩, by decide, by decide, by decide, by decide,
    { freshClient with running := some ⟨.construct 1 s12, .registered 1 s12, 0⟩, mail := [[0x0D]] }, ⟨turnOf_settled _, rfl, rfl⟩, rfl,
    rfl, rfl⟩

theorem witness_TransportIsUsedByExchangeOnly :
    (facing bench [.hostTransport] [] []).env.upcoming = .hostTransport :: [] ∧
    ((facing waiting [.drain] [] []).env.upcoming = .drain :: [] ∧ waiting.req[(0 : BusAddr)] ≠ .idle) ∧
    ((facing bench [.drain] [] [ack]).env.upcoming = .drain :: [] ∧ ∀ a : BusAddr, bench.req[a] = .idle) := by decide

end Sys2Proof.Tests
end

section
/-! The working registers never reach a result (spec/10_state.md R24). The idea: every checksum computation seeds `HI`
and `LO`, so each command's response is a function of `crc16`, and each command commutes with `setCe` up to the values
it leaves in the working registers. -/

namespace Sys2Proof.Machine

/-! ### The commands that run the checksum, with what they compute said through `crc16` -/

theorem execCrcCompute_eq (data : Bytes) (s : State) :
    execCrcCompute data s =
      .next ((s.setCe (crcRun s.lut s.ce data)).finish (.crc (crc16 s.lut data).1 (crc16 s.lut data).2)) := by
  obtain ⟨hlo, hhi⟩ := crcRun_acc s.lut s.ce data
  simp only [execCrcCompute, hlo, hhi]

theorem sealFrame_eq (s : State) (body : Bytes) :
    sealFrame s body = (s.setCe (crcRun s.lut s.ce body)).finish (.bytes (crcAppend s.lut body)) := by
  obtain ⟨hlo, hhi⟩ := crcRun_acc s.lut s.ce body
  simp only [sealFrame, hlo, hhi, crcAppend, crcTrailer]

/-- DEC.VERIFY's step 2 is `crc_check` (R127, R152). -/
theorem execDecVerify_eq (expDest expSource : Byte) (expFunction : Func) (raw : Bytes) (s : State) :
    execDecVerify expDest expSource expFunction raw s =
      if raw.length < 3 then .next (s.raise .tooShort)
      else .next ((s.setCe (crcRun s.lut s.ce (crcCovered raw))).answer
        (verifyFrame (crcCheck s.lut raw) expDest expSource expFunction raw)) := by
  obtain ⟨hlo, hhi⟩ := crcRun_acc s.lut s.ce (crcCovered raw)
  simp only [execDecVerify, hlo, hhi, crcCheck, crcTrailer]

/-! ### Operations that commute with an update of the working registers -/

theorem State.setCe_setCe (s : State) (c d : Ce) : (s.setCe c).setCe d = s.setCe d := rfl

theorem State.answer_setCe (s : State) (c : Ce) (r : Except ErrKind Result) :
    (s.setCe c).answer r = (s.answer r).setCe c := by
  simp only [State.answer_eq]; rfl

theorem State.post_setCe (s : State) (c : Ce) (address : Byte) (frame : Bytes) :
    (s.setCe c).post address frame = (s.post address frame).setCe c := by
  unfold State.post
  cases busAddr? address with
  | none => rfl
  | some a =>
    cases hr : s.regv[a] with
    | false => simp only [State.setCe_regv, hr]; rfl
    | true => cases hq : s.req[a] <;> simp only [State.setCe_regv, State.setCe_req, hr, hq] <;> rfl

/-! ### Noninterference -/

/-- `m` always ends in a next state, the same one, the working registers apart, whatever they hold before. -/
def IgnoresCe (m : State → Out) : Prop :=
  ∀ s c, ∃ t d, m s = .next t ∧ m (s.setCe c) = .next (t.setCe d)

theorem IgnoresCe.of_setCe_comm {f : State → State} (h : ∀ s c, f (s.setCe c) = (f s).setCe c) :
    IgnoresCe fun s => .next (f s) := fun s c => ⟨f s, c, rfl, congrArg _ (h s c)⟩

theorem ignoresCe_answer (r : Except ErrKind Result) : IgnoresCe fun s => .next (s.answer r) :=
  .of_setCe_comm fun s c => s.answer_setCe c r

theorem ignoresCe_post (address : Byte) (frame : Lut → Bytes) :
    IgnoresCe fun s => .next (s.post address (frame s.lut)) :=
  .of_setCe_comm fun s c => s.post_setCe c address (frame s.lut)

theorem ignoresCe_arrived (raw : Lut → Bytes) : IgnoresCe fun s => .next (s.arrived (raw s.lut)) :=
  .of_setCe_comm fun _ _ => rfl

theorem ignoresCe_execCrcCompute (data : Bytes) : IgnoresCe (execCrcCompute data) := fun s c =>
  ⟨_, crcRun s.lut c data, execCrcCompute_eq data s, execCrcCompute_eq data (s.setCe c)⟩

theorem ignoresCe_sealFrame (body : Bytes) : IgnoresCe fun s => .next (sealFrame s body) := fun s c =>
  ⟨_, crcRun s.lut c body, congrArg _ (sealFrame_eq s body), congrArg _ (sealFrame_eq (s.setCe c) body)⟩

theorem IgnoresCe.ite {p : Params → Prop} [DecidablePred p] {m n : State → Out} (hm : IgnoresCe m) (hn : IgnoresCe n) :
    IgnoresCe fun s => if p s.params then m s else n s := by
  intro s c
  by_cases h : p s.params
  · obtain ⟨t, d, ht, hu⟩ := hm s c
    exact ⟨t, d, (if_pos h).trans ht, (if_pos h).trans hu⟩
  · obtain ⟨t, d, ht, hu⟩ := hn s c
    exact ⟨t, d, (if_neg h).trans ht, (if_neg h).trans hu⟩

theorem ignoresCe_execEncWrite (dest source : Byte) (start : Half) (payload : Bytes) :
    IgnoresCe (execEncWrite dest source start payload) :=
  .ite (p := fun q => payload.length > q.maxFrame.val - 11) (ignoresCe_answer (.error .payloadTooLong))
    (ignoresCe_sealFrame _)

theorem ignoresCe_execDecVerify (expDest expSource : Byte) (expFunction : Func) (raw : Bytes) :
    IgnoresCe (execDecVerify expDest expSource expFunction raw) := by
  rw [funext (execDecVerify_eq expDest expSource expFunction raw)]
  refine .ite (p := fun _ => raw.length < 3) (ignoresCe_answer (.error .tooShort)) fun s c => ?_
  exact ⟨_, crcRun s.lut c (crcCovered raw), rfl, by simp only [State.answer_setCe]; rfl⟩

theorem ignoresCe_execLaRegister (address : Byte) : IgnoresCe (execLaRegister address) := by
  intro s c
  unfold execLaRegister
  cases busAddr? address with
  | none => exact ⟨_, c, rfl, rfl⟩
  | some a =>
    by_cases h : s.regv[a] = true
    · exact ⟨s.raise .duplicateAddressError, c, if_pos h, if_pos h⟩
    · exact ⟨(s.setReg a).finish .nothing, c, if_neg h, if_neg h⟩

/-- R24 over every instruction: one arm per row of the opcode table. -/
theorem exec_ignoresCe (i : Instr) : IgnoresCe (exec i) := by
  cases i with
  | crcCompute data => exact ignoresCe_execCrcCompute data
  | encRead dest source start => exact ignoresCe_sealFrame _
  | encWrite dest source start payload => exact ignoresCe_execEncWrite dest source start payload
  | decVerify expDest expSource expFunction raw => exact ignoresCe_execDecVerify expDest expSource expFunction raw
  | rmDecode desc dcb => exact ignoresCe_answer (.ok (.entries (decodeEntries dcb desc.labels)))
  | rmRaw offset dcb => exact ignoresCe_answer _
  | rmTfmt desc dcb => exact ignoresCe_answer _
  | rmTarget desc dcb => exact ignoresCe_answer _
  | rmFrost desc dcb => exact ignoresCe_answer _
  | rmSensel desc dcb => exact ignoresCe_answer _
  | rmCurtemp desc dcb => exact ignoresCe_answer _
  | rmRunmode desc dcb => exact ignoresCe_answer _
  | rmHeat desc dcb => exact ignoresCe_answer _
  | laRegister address => exact ignoresCe_execLaRegister address
  | laExchange address frame => exact ignoresCe_post address fun _ => frame
  | rqRead dest source start => exact ignoresCe_post dest (readRequest · dest source start)
  | rqWrite dest source start payload => exact ignoresCe_post dest (writeRequest · dest source start payload)
  | rpRead dest source b5 b6 b7 b8 payload =>
    exact ignoresCe_arrived (readReply · dest source b5 b6 b7 b8 payload)
  | rpWrite dest source => exact ignoresCe_arrived (writeReply · dest source)

/-- Settles O12: every instruction ignores the working registers (`exec_ignoresCe`). -/
theorem workingRegistersNeverReachAResult : Obligations.WorkingRegistersNeverReachAResult := by
  intro i s t ce h
  obtain ⟨t', d, ht, hu⟩ := exec_ignoresCe i s ce
  cases ht.symm.trans h
  exact ⟨t.setCe d, hu, t.setCe_setCe d t.ce⟩

end Sys2Proof.Machine
end

section
/-! Descriptors that are no command (spec/30_encoding.md R91, R96). The idea: each operand form reads exactly the bytes the
encoder writes for what it answers, so a descriptor that decodes is the encoding of a well-formed command, and one that is
no such encoding ends in `IllegalCommand`. -/

namespace Sys2Proof

/-! ### What an operand form reads -/

theorem bind_eq_ok {ε α β : Type} {x : Except ε α} {f : α → Except ε β} {b : β} :
    x >>= f = .ok b ↔ ∃ a, x = .ok a ∧ f a = .ok b := by
  cases x with
  | error e => exact ⟨fun h => (nomatch h), fun ⟨_, h, _⟩ => (nomatch h)⟩
  | ok a => exact ⟨fun h => ⟨a, rfl, h⟩, fun ⟨_, ha, h⟩ => by cases ha; exact h⟩

theorem encHalf_half (l h : Byte) : encHalf (half l h) = [l, h] := by simp [encHalf, le16]

theorem takeByte_eq_ok {bs rest : Bytes} {b : Byte} : takeByte bs = .ok (b, rest) ↔ bs = b :: rest := by
  cases bs <;> simp [takeByte]

theorem takeHalf_eq_ok {bs rest : Bytes} {v : Half} : takeHalf bs = .ok (v, rest) ↔ bs = encHalf v ++ rest := by
  refine ⟨fun h => ?_, fun h => h ▸ takeHalf_encHalf v rest⟩
  match bs, h with
  | l :: h :: bs, rfl => rw [encHalf_half]; rfl

theorem takeN_eq_ok {n : Nat} {bs s rest : Bytes} :
    takeN n bs = .ok (s, rest) ↔ s.length = n ∧ bs = s ++ rest := by
  refine ⟨fun h => ?_, fun ⟨hn, hbs⟩ => hn ▸ hbs ▸ takeN_append s rest⟩
  induction n generalizing bs s with
  | zero => cases h; exact ⟨rfl, rfl⟩
  | succ n ih =>
    cases bs with
    | nil => cases h
    | cons b bs =>
      cases ht : takeN n bs with
      | error e => simp [takeN, ht] at h
      | ok r =>
        obtain ⟨rfl, rfl⟩ : b :: r.1 = s ∧ r.2 = rest := by simpa [takeN, ht] using h
        obtain ⟨hl, hbs⟩ := ih ht
        exact ⟨congrArg _ hl, congrArg _ hbs⟩

theorem takeStr_eq_ok {bs s rest : Bytes} :
    takeStr bs = .ok (s, rest) ↔ strOk s = true ∧ bs = encStr s ++ rest := by
  refine ⟨fun h => ?_, fun ⟨hs, hbs⟩ => hbs ▸ takeStr_encStr hs rest⟩
  simp only [takeStr, bind_eq_ok, Prod.exists, takeHalf_eq_ok, takeN_eq_ok] at h
  obtain ⟨n, _, rfl, hn, rfl⟩ := h
  exact ⟨by simpa [strOk, hn] using n.isLt, by simp [encStr, encHalf, hn]⟩

theorem takeLabels_eq_ok {n : Nat} {bs rest : Bytes} {ls : List (Half × Half)} :
    takeLabels n bs = .ok (ls, rest) ↔ ls.length = n ∧ bs = encLabels ls ++ rest := by
  refine ⟨fun h => ?_, fun ⟨hn, hbs⟩ => hn ▸ hbs ▸ takeLabels_encLabels ls rest⟩
  induction n generalizing bs ls with
  | zero => cases h; exact ⟨rfl, rfl⟩
  | succ n ih =>
    unfold takeLabels at h
    split at h
    case h_1 => cases h
    case h_2 o bs₁ ho =>
      split at h
      case h_1 => cases h
      case h_2 l bs₂ hl =>
        split at h
        case h_1 => cases h
        case h_2 ls' rest' hls =>
          cases h
          obtain ⟨rfl, rfl⟩ := ih hls
          rw [takeHalf_eq_ok.1 ho, takeHalf_eq_ok.1 hl]
          exact ⟨rfl, by simp [encLabels]⟩

theorem takeDesc_eq_ok {bs rest : Bytes} {d : Desc} :
    takeDesc bs = .ok (d, rest) ↔ d.wf = true ∧ bs = encDesc d ++ rest := by
  refine ⟨fun h => ?_, fun ⟨hd, hbs⟩ => hbs ▸ takeDesc_encDesc hd rest⟩
  simp only [takeDesc, bind_eq_ok, Prod.exists, takeHalf_eq_ok, takeLabels_eq_ok] at h
  obtain ⟨_, _, rfl, _, _, rfl, _, _, rfl, _, _, rfl, _, _, rfl, _, _, rfl, _, _, rfl, _, _, rfl, _, _, rfl,
    k, _, rfl, ls, _, ⟨hk, rfl⟩, h⟩ := h
  split at h
  case isFalse => cases h
  case isTrue hinc =>
    cases h
    exact ⟨by simpa [Desc.wf, hinc, hk] using k.isLt, by simp [encDesc, encHalf, hk]⟩

theorem takeFunc_eq_ok {bs rest : Bytes} {f : Func} : takeFunc bs = .ok (f, rest) ↔ bs = f.code :: rest := by
  refine ⟨fun h => ?_, fun h => by subst h; simp [takeFunc, takeByte, bind, Except.bind, pure, Except.pure]⟩
  simp only [takeFunc, bind_eq_ok, Prod.exists, takeByte_eq_ok] at h
  obtain ⟨b, _, rfl, h⟩ := h
  split at h
  case h_1 g hg => cases h; rw [func?_eq_some.1 hg]
  case h_2 => cases h

/-! ### What a descriptor reads -/

/-- Bytes from which the command `i` was read, with `rest` left over: `i` is well formed and these are its encoding. -/
def IsEncoding (lut : Lut) (bs : Bytes) (i : Instr) (rest : Bytes) : Prop :=
  i.wf = true ∧ i.port = .command ∧ bs = encodeAt lut i ++ rest

/-- The eight RM commands with the operands `DESC`, `dcb` (R91). -/
theorem isEncoding_of_takeDescDcb {lut : Lut} {op : Byte} {mk : Desc → Bytes → Instr} {bs rest : Bytes} {i : Instr}
    (h : takeDescDcb mk bs = .ok (i, rest))
    (hmk : ∀ d s, (mk d s).wf = (d.wf && strOk s) ∧ (mk d s).port = .command ∧
      encodeAt lut (mk d s) = op :: (encDesc d ++ encStr s)) : IsEncoding lut (op :: bs) i rest := by
  simp only [takeDescDcb, bind_eq_ok, Prod.exists, takeDesc_eq_ok, takeStr_eq_ok] at h
  obtain ⟨d, _, ⟨hd, rfl⟩, s, _, ⟨hs, rfl⟩, h⟩ := h
  cases h
  obtain ⟨hwf, hport, henc⟩ := hmk d s
  exact ⟨by rw [hwf, hd, hs]; rfl, hport, by simp [henc]⟩

/-- R91, one case per opcode. -/
theorem isEncoding_of_decodeOperands (lut : Lut) {op : Byte} {bs rest : Bytes} {i : Instr}
    (h : decodeOperands op bs = .ok (i, rest)) : IsEncoding lut (op :: bs) i rest := by
  have hop : op = BitVec.ofNat 8 op.toNat := by simp
  unfold decodeOperands at h
  generalize op.toNat = n at h hop
  subst hop
  split at h
  case h_16 => cases h
  case h_5 | h_7 | h_8 | h_9 | h_10 | h_11 | h_12 | h_13 =>
    exact isEncoding_of_takeDescDcb h fun _ _ => ⟨rfl, rfl, rfl⟩
  all_goals simp only [bind_eq_ok, Prod.exists, takeByte_eq_ok, takeHalf_eq_ok, takeStr_eq_ok, takeFunc_eq_ok] at h
  case h_1 =>
    obtain ⟨data, _, ⟨hs, rfl⟩, h⟩ := h
    cases h
    exact ⟨hs, rfl, rfl⟩
  case h_2 =>
    obtain ⟨dest, _, rfl, source, _, rfl, start, _, rfl, h⟩ := h
    cases h
    exact ⟨rfl, rfl, rfl⟩
  case h_3 =>
    obtain ⟨dest, _, rfl, source, _, rfl, start, _, rfl, payload, _, ⟨hs, rfl⟩, h⟩ := h
    cases h
    exact ⟨hs, rfl, by simp [encodeAt]⟩
  case h_4 =>
    obtain ⟨expDest, _, rfl, expSource, _, rfl, fn, _, rfl, raw, _, ⟨hs, rfl⟩, h⟩ := h
    cases h
    exact ⟨hs, rfl, rfl⟩
  case h_6 =>
    obtain ⟨offset, _, rfl, dcb, _, ⟨hs, rfl⟩, h⟩ := h
    cases h
    exact ⟨hs, rfl, by simp [encodeAt]⟩
  case h_14 =>
    obtain ⟨address, _, rfl, h⟩ := h
    cases h
    exact ⟨rfl, rfl, rfl⟩
  case h_15 =>
    obtain ⟨address, _, rfl, frame, _, ⟨hs, rfl⟩, h⟩ := h
    cases h
    exact ⟨hs, rfl, rfl⟩

theorem isEncoding_of_decode (lut : Lut) {bs : Bytes} {i : Instr} (h : decode bs = .ok i) : IsEncoding lut bs i [] := by
  unfold decode at h
  split at h
  case h_1 hp =>
    cases h
    match bs, hp with
    | _ :: _, hp => exact isEncoding_of_decodeOperands lut hp
  case h_2 | h_3 => cases h

theorem decode_eq_error_of_no_encoding {bs : Bytes}
    (h : ∀ i : Instr, i.port = .command → i.wf = true → encode i ≠ bs) : ∃ e, decode bs = .error e := by
  cases hd : decode bs with
  | error e => exact ⟨e, rfl⟩
  | ok i =>
    obtain ⟨hwf, hport, hbs⟩ := isEncoding_of_decode Config.ccittLut hd
    exact absurd (hbs.trans (List.append_nil _)).symm (h i hport hwf)

/-! ### The opcodes (R91) -/

/-- The fifteen opcodes of R91. -/
def opcodes : Bytes :=
  [0x01, 0x10, 0x11, 0x18, 0x20, 0x21, 0x22, 0x23, 0x24, 0x25, 0x26, 0x27, 0x28, 0x30, 0x31]

/-- R96: "a value not in the table of R91", by its ranges. -/
def Reserved (op : Byte) : Prop :=
  op.toNat = 0 ∨ (0x02 ≤ op.toNat ∧ op.toNat ≤ 0x0F) ∨ (0x12 ≤ op.toNat ∧ op.toNat ≤ 0x17) ∨
    (0x19 ≤ op.toNat ∧ op.toNat ≤ 0x1F) ∨ (0x29 ≤ op.toNat ∧ op.toNat ≤ 0x2F) ∨ 0x32 ≤ op.toNat

theorem not_reserved_of_mem_opcodes : ∀ op ∈ opcodes, ¬Reserved op := by unfold Reserved; decide

theorem opcode_mem_opcodes {lut : Lut} {i : Instr} {op : Byte} {rest : Bytes} (hp : i.port = .command)
    (h : encodeAt lut i = op :: rest) : op ∈ opcodes := by
  cases i with
  | rqRead | rqWrite | rpRead | rpWrite => cases hp
  | _ => cases h; decide

end Sys2Proof

namespace Sys2Proof.Machine

/-! ### The refusal -/

theorem step_of_decode_error {s : State} {k : Nat} {c : Client} {bs : Bytes} {prog : List Request} {turns : List Turn}
    {e : Reject} (h : IssuesNext s k c (.command bs) prog turns) (he : decode bs = .error e) :
    step s = .next ((fetched s k prog turns).answer (.error .illegalCommand)) := by
  rw [step_issues h, fetched_eq]
  simp only [takeRequest, issueAt, decodeAt, he, State.answer]

/-- Settles O5: a descriptor that is no encoding does not decode (`decode_eq_error_of_no_encoding`), and no encoding begins
with a reserved opcode (`opcode_mem_opcodes`). -/
theorem malformedDescriptorAnswersIllegalCommand : Obligations.MalformedDescriptorAnswersIllegalCommand := by
  refine ⟨fun s k c bs prog turns hn hbs => ?_, fun op rest hres i hp henc => ?_⟩
  · obtain ⟨e, he⟩ := decode_eq_error_of_no_encoding hbs
    exact ⟨_, step_of_decode_error hn he, onlyAnswers_answer _ (.error .illegalCommand)⟩
  · exact not_reserved_of_mem_opcodes op (opcode_mem_opcodes hp henc) hres

end Sys2Proof.Machine
end

section
/-! CRC.COMPUTE and the lookup tables (spec/40_checksum_engine.md R122, R124, R125). The idea: every run seeds the
accumulators, so what they hold at its end is `crc16` of the data, whatever they held before, and the response repeats
them. -/

namespace Sys2Proof

/-- R124, R125: with no byte to consume the seed is the result, so the tables do not matter. -/
@[simp] theorem crc16_nil (lut : Lut) : crc16 lut [] = (0xFF, 0xFF) := rfl

/-- R122 over the sixteen indices: the bits of `t` select the multiples of 0x1021 whose XOR is the entry. -/
theorem ccittLut_entry (t : Fin 16) :
    (Config.ccittLut.high[t] ++ Config.ccittLut.low[t] : BitVec 16) =
      (if t.val.testBit 0 then 0x1021 else 0) ^^^ (if t.val.testBit 1 then 0x2042 else 0) ^^^
        (if t.val.testBit 2 then 0x4084 else 0) ^^^ (if t.val.testBit 3 then 0x8108 else 0) := by
  decide +revert

end Sys2Proof

namespace Sys2Proof.Machine

/-- What CRC.COMPUTE leads to: the run's working registers are kept and the response carries `crc16` of the data. -/
theorem exec_crcCompute (data : Bytes) (s : State) :
    exec (.crcCompute data) s =
      .next ((s.setCe (crcRun s.lut s.ce data)).mailTo s.cur
        [0x00, (crc16 s.lut data).1, (crc16 s.lut data).2]) :=
  execCrcCompute_eq data s

/-- Settles O8: the response and the frame from the one effect of a response (`answers_setCe_mailTo`), the accumulators from
`crcRun_acc`, and the rule's three examples by running the checksum. -/
theorem crcComputeAnswersChecksum : Obligations.CrcComputeAnswersChecksum := by
  refine ⟨fun _ => rfl, fun data s => ?_, crc16_nil, by decide, by decide, by decide⟩
  obtain ⟨hlo, hhi⟩ := crcRun_acc s.lut s.ce data
  exact ⟨_, exec_crcCompute data s, answers_setCe_mailTo s _ _, hlo, hhi⟩

/-- Settles O11: the reset state is built with `Config.ccittLut`, whose entries are those of `ccittLut_entry`. -/
theorem lookupTablesHoldCcittMultiples : Obligations.LookupTablesHoldCcittMultiples :=
  ⟨rfl, ccittLut_entry⟩

end Sys2Proof.Machine
end

section
/-! The Frame Codec (spec/41_frame_codec.md R141 to R161). The idea: DEC.VERIFY's nested checks are the flat table of
R158, so its answer is the verdict on that table; and the table has no failing row exactly for the strings of the shape
`Accepted`, which settles what a READ and a WRITE reply may be. -/

namespace Sys2Proof

/-! ### Frames and their parts -/

theorem Func.code_eq_one_iff {f : Func} : f.code = 1 ↔ f = .write := by cases f <;> decide

theorem Func.code_eq_zero_or_one (f : Func) : f.code = 0 ∨ f.code = 1 := by cases f <;> decide

@[simp] theorem requestHeader_length (dest source : Byte) (fn : Func) (total start count : Nat) :
    (requestHeader dest source fn total start count).length = 9 := rfl

/-- R160: the payload is `raw[9 .. m-3]`, of `m - 11` bytes, none where `m ≤ 11`. -/
@[simp] theorem framePayload_length (raw : Bytes) : (framePayload raw).length = raw.length - 11 := by
  simp only [framePayload, List.length_take, List.length_drop]; omega

/-- R160, R161: a reply that ends within eleven bytes has no payload. -/
theorem framePayload_eq_nil {raw : Bytes} (h : raw.length ≤ 11) : framePayload raw = [] :=
  List.length_eq_zero_iff.mp (by rw [framePayload_length, Nat.sub_eq_zero_of_le h])

theorem readReply_length (lut : Lut) (dest source b5 b6 b7 b8 : Byte) (payload : Bytes) :
    (readReply lut dest source b5 b6 b7 b8 payload).length = 11 + payload.length := by
  simp only [readReply, crcAppend_length, List.length_append, List.length_cons, List.length_nil]; omega

theorem framePayload_readReply (lut : Lut) (dest source b5 b6 b7 b8 : Byte) (payload : Bytes) :
    framePayload (readReply lut dest source b5 b6 b7 b8 payload) = payload := by
  rw [framePayload, readReply_length, Nat.add_sub_cancel_left]
  exact List.take_left

end Sys2Proof

namespace Sys2Proof.Machine

/-! ### Encoders -/

/-- The response that carries a sealed frame: status, the frame's length, the frame (R94, R126). -/
theorem okBytes_crcAppend (lut : Lut) (body : Bytes) :
    okBytes (.bytes (crcAppend lut body)) = 0x00 :: le16 (body.length + 2) ++ crcAppend lut body := by
  rw [← crcAppend_length lut body]; rfl

/-- R142: what ENC.WRITE leads to, on both sides of the limit. -/
theorem exec_encWrite (dest source : Byte) (start : Half) (payload : Bytes) (s : State) :
    exec (.encWrite dest source start payload) s = .next
      (if payload.length > s.params.maxFrame.val - 11 then s.raise .payloadTooLong
       else sealFrame s
        (requestHeader dest source .write (11 + payload.length) start.toNat payload.length ++ payload)) :=
  (apply_ite Host.Outcome.next _ _ _).symm

/-- Settles O13: the response is that of sealing the READ header (`sealFrame_answers`), eleven bytes in all. -/
theorem encReadAnswersReadRequest : Obligations.EncReadAnswersReadRequest := by
  intro dest source start s
  have hseal := sealFrame_answers s (requestHeader dest source .read 11 start.toNat 0xFFFF)
  rw [okBytes_crcAppend, requestHeader_length] at hseal
  exact ⟨rfl, _, rfl, hseal⟩

/-- Settles O14: by the two branches of `exec_encWrite`, a refusal and the response of sealing the WRITE header with its
payload. -/
theorem encWriteAnswersWriteRequest : Obligations.EncWriteAnswersWriteRequest := by
  refine fun dest source start payload s => ⟨rfl, fun hlong => ?_, fun hfits => ?_⟩
  · exact ⟨_, exec_encWrite .., by rw [if_pos hlong]; exact answers_mailTo s _⟩
  · refine ⟨_, exec_encWrite .., ?_⟩
    have hseal := sealFrame_answers s
      (requestHeader dest source .write (11 + payload.length) start.toNat payload.length ++ payload)
    rw [okBytes_crcAppend, List.length_append, requestHeader_length, Nat.add_right_comm] at hseal
    rwa [if_neg (Nat.not_lt.mpr hfits)]

/-! ### The verdict on a list of checks -/

/-- What a command answers whose checks are these, made in their order, and whose result is `r` when none fails. -/
def verdict (checks : List (Bool × ErrKind)) (r : Result) : Except ErrKind Result :=
  match firstFailure checks with
  | some k => .error k
  | none => .ok r

@[simp] theorem verdict_nil (r : Result) : verdict [] r = .ok r := rfl

@[simp] theorem verdict_cons (b : Bool) (k : ErrKind) (checks : List (Bool × ErrKind)) (r : Result) :
    verdict ((b, k) :: checks) r = if b then .error k else verdict checks r := by
  cases b <;> rfl

theorem verdict_of_some {checks : List (Bool × ErrKind)} {k : ErrKind} {r : Result} (h : firstFailure checks = some k) :
    verdict checks r = .error k := by rw [verdict, h]

theorem verdict_of_none {checks : List (Bool × ErrKind)} {r : Result} (h : firstFailure checks = none) :
    verdict checks r = .ok r := by rw [verdict, h]

/-! ### DEC.VERIFY is the verdict on R158's table -/

/-- R155 to R160: the last four rows of the table. -/
theorem verifyFunction_eq_verdict (fn : Byte) (expFunction : Func) (declared : Nat) (raw : Bytes) :
    verifyFunction fn expFunction declared raw =
      verdict [(decide (fn ≠ 0 ∧ fn ≠ 1), .unknownFunction), (decide (fn ≠ expFunction.code), .unexpectedFunction),
        (decide (fn = 1 ∧ declared ≠ 7), .writeLengthMismatch), (decide (declared ≠ raw.length), .lengthMismatch)]
        (.bytes (framePayload raw)) := by
  by_cases h0 : fn = 0
  · subst h0; cases expFunction <;> simp [verifyFunction, func?, Func.code]
  by_cases h1 : fn = 1
  · subst h1; cases expFunction <;> simp [verifyFunction, func?, Func.code, Config.ackLen]
  · have hunknown : func? fn = none := (if_neg h0).trans (if_neg h1)
    rw [verifyFunction, hunknown, verdict_cons, if_pos (decide_eq_true ⟨h0, h1⟩)]

/-- Past step 1 the nested checks are the table, by which of the bytes 3 and 4 exist (R162). -/
theorem verifyFrame_eq_verdict (lut : Lut) (expDest expSource : Byte) (expFunction : Func) {raw : Bytes}
    (hlen : ¬ raw.length < 3) :
    verifyFrame (crcCheck lut raw) expDest expSource expFunction raw =
      verdict (verifyChecks lut expDest expSource expFunction raw) (.bytes (framePayload raw)) := by
  match raw, hlen with
  | [], h | [_], h | [_, _], h => simp at h
  | [d, l0, l1], _ => simp [verifyFrame, verifySource, verifyChecks, Config.masterCodes]
  | [d, l0, l1, src], _ => simp [verifyFrame, verifySource, verifyChecks, Config.masterCodes]
  | d :: l0 :: l1 :: src :: fn :: rest, _ =>
    have hlong (n : Nat) (hn : n ≤ 5) : ¬ rest.length + 1 + 1 + 1 + 1 + 1 < n := by omega
    simp [verifyFrame, verifySource, verifyChecks, Config.masterCodes, verifyFunction_eq_verdict, hlong]

/-- DEC.VERIFY answers the verdict on R158's table, for every string. -/
theorem exec_decVerify_answers (expDest expSource : Byte) (expFunction : Func) (raw : Bytes) (s : State) :
    ∃ t, exec (.decVerify expDest expSource expFunction raw) s = .next t ∧
      Answers s t (responseBytes
        (verdict (verifyChecks s.lut expDest expSource expFunction raw) (.bytes (framePayload raw)))) := by
  rw [show exec (.decVerify expDest expSource expFunction raw) s = _ from
    execDecVerify_eq expDest expSource expFunction raw s]
  by_cases hlen : raw.length < 3
  · have hv : verdict (verifyChecks s.lut expDest expSource expFunction raw) (.bytes (framePayload raw)) =
        .error .tooShort := by rw [verifyChecks, verdict_cons, if_pos (decide_eq_true hlen)]
    rw [if_pos hlen, hv]
    exact ⟨_, rfl, (answers_mailTo s _).1⟩
  · rw [if_neg hlen, verifyFrame_eq_verdict s.lut expDest expSource expFunction hlen, State.answer_eq]
    exact ⟨_, rfl, answers_setCe_mailTo s _ _⟩

/-- The response of an accepted reply (R94, R160). -/
theorem okBytes_framePayload (raw : Bytes) :
    okBytes (.bytes (framePayload raw)) = 0x00 :: le16 (raw.length - 11) ++ framePayload raw := by
  rw [← framePayload_length raw]; rfl

/-- Settles O15: the answer is the verdict on the table (`exec_decVerify_answers`), by whether a row fails. -/
theorem decVerifyFollowsTheCheckList : Obligations.DecVerifyFollowsTheCheckList := by
  intro expDest expSource expFunction raw s
  obtain ⟨t, ht, hans⟩ := exec_decVerify_answers expDest expSource expFunction raw s
  refine ⟨rfl, t, ht, fun k hk => ?_, fun hnone => ?_⟩
  · rwa [verdict_of_some hk] at hans
  · rwa [verdict_of_none hnone, responseBytes, okBytes_framePayload] at hans

/-! ### The strings that pass every check -/

/-- The received strings that DEC.VERIFY answers with `OK`: the expected addresses, which are legal ones, the expected
function, the right trailer, the declared length the real one and, for WRITE, seven bytes in all. -/
def Accepted (lut : Lut) (expDest expSource : Byte) (expFunction : Func) (raw : Bytes) : Prop :=
  ∃ l0 l1 rest, raw = expDest :: l0 :: l1 :: expSource :: expFunction.code :: rest ∧
    crcCheck lut raw = true ∧ (expDest = 129 ∨ expDest = 160) ∧ (1 ≤ expSource.toNat ∧ expSource.toNat ≤ 32) ∧
    u16 l0 l1 = raw.length ∧ (expFunction = .write → raw.length = 7)

theorem firstFailure_eq_none_iff_forall (checks : List (Bool × ErrKind)) :
    firstFailure checks = none ↔ ∀ c ∈ checks, c.1 = false := by
  simp [firstFailure]

theorem firstFailure_eq_none_iff_accepted (lut : Lut) (expDest expSource : Byte) (expFunction : Func) (raw : Bytes) :
    firstFailure (verifyChecks lut expDest expSource expFunction raw) = none ↔
      Accepted lut expDest expSource expFunction raw := by
  rw [firstFailure_eq_none_iff_forall]
  simp only [verifyChecks, List.forall_mem_cons, List.not_mem_nil, false_imp_iff, implies_true, and_true,
    decide_eq_false_iff_not, Bool.not_eq_false', not_lt, not_not, not_and_or, not_or, ne_eq]
  constructor
  · intro ⟨_, hsum, hlegal, hdest, _, hrange, hsource, hlen, _, hfn, hack, hdeclared⟩
    match raw, hlen with
    | d :: l0 :: l1 :: src :: fn :: rest, _ =>
      cases hdest
      cases hsource
      cases hfn
      exact ⟨l0, l1, rest, rfl, hsum, hlegal, hrange, hdeclared, fun hf =>
        hdeclared.symm.trans (hack.resolve_left (not_not_intro (Func.code_eq_one_iff.mpr hf)))⟩
  · rintro ⟨l0, l1, rest, rfl, hsum, hlegal, hrange, hdeclared, hack⟩
    have hlen : 5 ≤ (expDest :: l0 :: l1 :: expSource :: expFunction.code :: rest).length := by simp
    exact ⟨by omega, hsum, hlegal, rfl, by omega, hrange, rfl, hlen, expFunction.code_eq_zero_or_one, rfl,
      not_or_of_imp fun hf => hdeclared.trans (hack (Func.code_eq_one_iff.mp hf)), hdeclared⟩

/-- An accepted reply is answered with its payload. -/
theorem exec_decVerify_of_accepted {expDest expSource : Byte} {expFunction : Func} {raw : Bytes} {s : State}
    (h : Accepted s.lut expDest expSource expFunction raw) :
    ∃ t, exec (.decVerify expDest expSource expFunction raw) s = .next t ∧
      Answers s t (okBytes (.bytes (framePayload raw))) := by
  have hans := exec_decVerify_answers expDest expSource expFunction raw s
  rwa [verdict_of_none ((firstFailure_eq_none_iff_accepted ..).mpr h), responseBytes] at hans

/-! ### READ replies -/

/-- R159: no check reads the bytes 5 to 8. -/
theorem accepted_readReply (lut : Lut) {dest source : Byte} (b5 b6 b7 b8 : Byte) {payload : Bytes}
    (hdest : dest = 129 ∨ dest = 160) (hsource : 1 ≤ source.toNat ∧ source.toNat ≤ 32)
    (hlen : 11 + payload.length < 65536) :
    Accepted lut dest source .read (readReply lut dest source b5 b6 b7 b8 payload) := by
  refine ⟨_, _, _, rfl, crcCheck_crcAppend .., hdest, hsource, ?_, nofun⟩
  rw [readReply_length, u16_lo8_hi8, Nat.mod_eq_of_lt hlen]

/-- Settles O16: a READ reply is accepted (`accepted_readReply`), and its payload is the answer. -/
theorem readReplyPayloadIsReturned : Obligations.ReadReplyPayloadIsReturned := by
  intro dest source b5 b6 b7 b8 payload s hdest hmin hmax hlen
  have hans := exec_decVerify_of_accepted (accepted_readReply s.lut b5 b6 b7 b8 hdest ⟨hmin, hmax⟩ hlen)
  rwa [framePayload_readReply] at hans

/-! ### WRITE replies -/

/-- R161: with WRITE expected the acknowledgment is the one accepted string. -/
theorem accepted_write_iff {lut : Lut} {expDest expSource : Byte} {raw : Bytes} :
    Accepted lut expDest expSource .write raw ↔
      raw = crcAppend lut [expDest, 7, 0, expSource, 1] ∧ (expDest = 129 ∨ expDest = 160) ∧
        1 ≤ expSource.toNat ∧ expSource.toNat ≤ 32 := by
  constructor
  · rintro ⟨l0, l1, rest, hraw, hsum, hdest, hsource, hdeclared, hack⟩
    rw [hack rfl] at hdeclared
    have hl0 : l0 = 7 := by rw [← lo8_u16 l0 l1, hdeclared]; rfl
    have hl1 : l1 = 0 := by rw [← hi8_u16 l0 l1, hdeclared]; rfl
    have hcovered : crcCovered raw = [expDest, 7, 0, expSource, 1] := by
      rw [crcCovered, hack rfl, hraw, hl0, hl1]; rfl
    exact ⟨hcovered ▸ eq_crcAppend_of_crcCheck hsum, hdest, hsource⟩
  · rintro ⟨rfl, hdest, hsource⟩
    exact ⟨7, 0, _, rfl, crcCheck_crcAppend .., hdest, hsource, rfl, fun _ => rfl⟩

/-- R161: the acknowledgment is answered with the empty string. -/
theorem exec_decVerify_acknowledgment {expDest expSource : Byte} {s : State} (hdest : expDest = 129 ∨ expDest = 160)
    (hmin : 1 ≤ expSource.toNat) (hmax : expSource.toNat ≤ 32) :
    ∃ t, exec (.decVerify expDest expSource .write (crcAppend s.lut [expDest, 7, 0, expSource, 1])) s = .next t ∧
      Answers s t [0x00, 0x00, 0x00] := by
  have hans := exec_decVerify_of_accepted (s := s) (accepted_write_iff.mpr ⟨rfl, hdest, hmin, hmax⟩)
  rwa [framePayload_eq_nil (by simp)] at hans

/-- Where the current client exists, the response it received can be told from the state reached. -/
theorem Answers.response_unique {s t : State} {r r' : Bytes} (hcur : s.cur < s.clients.length) (h : Answers s t r)
    (h' : Answers s t r') : r = r' := by
  have hmail : (mailed s r)[s.cur]? = (mailed s r')[s.cur]? := by rw [← h.1, ← h'.1]
  simpa [mailed, List.getElem?_eq_getElem hcur] using hmail

theorem ErrKind.code_ne_okCode (k : ErrKind) : k.code ≠ okCode := by cases k <;> decide

/-- A response that begins with `OK` comes from an accepted string. -/
theorem accepted_of_ok_response {expDest expSource : Byte} {expFunction : Func} {raw body : Bytes} {s t : State}
    (hcur : s.cur < s.clients.length) (ht : exec (.decVerify expDest expSource expFunction raw) s = .next t)
    (h : Answers s t (0x00 :: body)) : Accepted s.lut expDest expSource expFunction raw := by
  rw [← firstFailure_eq_none_iff_accepted, Option.eq_none_iff_forall_ne_some]
  intro k hk
  obtain ⟨u, hu, hans⟩ := exec_decVerify_answers expDest expSource expFunction raw s
  cases hu.symm.trans ht
  rw [verdict_of_some hk] at hans
  exact k.code_ne_okCode (List.cons.inj (hans.response_unique hcur h)).1

/-- Settles O17: the acknowledgment is the one accepted string (`accepted_write_iff`), and its payload is empty. -/
theorem onlyTheAcknowledgmentAnswersAWrite : Obligations.OnlyTheAcknowledgmentAnswersAWrite := by
  refine ⟨fun _ _ _ => exec_decVerify_acknowledgment, fun expDest expSource raw body s t hcur ht h => ?_⟩
  obtain ⟨rfl, hdest, hmin, hmax⟩ := accepted_write_iff.mp (accepted_of_ok_response hcur ht h)
  obtain ⟨u, hu, hans⟩ := exec_decVerify_acknowledgment (s := s) hdest hmin hmax
  cases hu.symm.trans ht
  exact ⟨rfl, hdest, hmin, hmax, (List.cons.inj (h.response_unique hcur hans)).2⟩

end Sys2Proof.Machine
end

section
/-! The Register Map decoder (spec/42_register_map.md R171 to R180). The idea: seven of the nine commands answer a function
of one field's byte, or `FieldAbsent`, so that their responses are two lemmas over the field; RM.CURTEMP goes on from such
a field to a pair, and RM.DECODE's entries are the label table filtered by what the snapshot reaches. -/

namespace Sys2Proof

/-! ### Pairs -/

/-- R56: the byte at the lower offset is the high byte. -/
theorem dcbPair?_eq_some {dcb : Bytes} {p : Half} {high low : Byte} (hhigh : dcb[p.toNat]? = some high)
    (hlow : dcb[p.toNat + 1]? = some low) : dcbPair? dcb p = some (256 * high.toNat + low.toNat) := by
  simp only [dcbPair?, hhigh, hlow]

/-- R171: a pair whose second byte the snapshot does not reach is absent. -/
theorem dcbPair?_eq_none {dcb : Bytes} {p : Half} (h : dcb.length ≤ p.toNat + 1) : dcbPair? dcb p = none := by
  rw [dcbPair?, List.getElem?_eq_none h]
  cases dcb[p.toNat]? <;> rfl

end Sys2Proof

namespace Sys2Proof.Machine

/-! ### The commands that answer from one field -/

theorem field_eq_ok {dcb : Bytes} {o : Half} {v : Byte} (h : dcb[o.toNat]? = some v) : field dcb o = .ok v := by
  simp only [field, dcbByte?, h]

theorem field_eq_error {dcb : Bytes} {o : Half} (h : dcb.length ≤ o.toNat) : field dcb o = .error .fieldAbsent := by
  simp only [field, dcbByte?, List.getElem?_eq_none h]

/-- A command that ends in the answer `r` answers the bytes of `r` and does nothing else. -/
theorem exists_onlyAnswers {m : Out} {s : State} {r : Except ErrKind Result} {bytes : Bytes}
    (hm : m = .next (s.answer r)) (hr : responseBytes r = bytes) : ∃ t, m = .next t ∧ OnlyAnswers s t bytes :=
  ⟨_, hm, hr ▸ onlyAnswers_answer s r⟩

section
variable {m : Out} {s : State} {dcb : Bytes} {o : Half} {f : Byte → Result}

theorem answers_of_field_present {v : Byte} {bytes : Bytes} (hm : m = .next (s.answer ((field dcb o).map f)))
    (hv : dcb[o.toNat]? = some v) (hf : okBytes (f v) = bytes) : ∃ t, m = .next t ∧ OnlyAnswers s t bytes :=
  exists_onlyAnswers hm (by rw [field_eq_ok hv]; exact hf)

/-- R171: an absent field is answered with `FieldAbsent`. -/
theorem answers_of_field_absent (hm : m = .next (s.answer ((field dcb o).map f))) (h : dcb.length ≤ o.toNat) :
    ∃ t, m = .next t ∧ OnlyAnswers s t [0x83] :=
  exists_onlyAnswers hm (by rw [field_eq_error h]; rfl)

end

/-- The four value commands are one command over an offset. -/
theorem exec_value_command {i : Instr} {o : Half} {dcb : Bytes}
    (hi : i = .rmRaw o dcb ∨ ∃ d : Desc, (i = .rmTfmt d dcb ∧ d.offTfmt = o) ∨ (i = .rmTarget d dcb ∧ d.offTarget = o) ∨
      (i = .rmFrost d dcb ∧ d.offFrost = o)) (s : State) :
    exec i s = .next (s.answer ((field dcb o).map .value)) := by
  obtain rfl | ⟨d, ⟨rfl, rfl⟩ | ⟨rfl, rfl⟩ | ⟨rfl, rfl⟩⟩ := hi <;> rfl

/-- Settles O19: each of the four answers the byte of one field (`exec_value_command`). -/
theorem valueFieldsAnswerTheByte : Obligations.ValueFieldsAnswerTheByte :=
  ⟨fun _ _ _ => ⟨rfl, rfl, rfl, rfl⟩, fun _ _ _ s hi =>
    ⟨fun _ hv => answers_of_field_present (exec_value_command hi s) hv rfl,
      answers_of_field_absent (exec_value_command hi s)⟩⟩

/-- R94, R179: the byte that stands for the run state of `v`. -/
theorem runStateOf_code (v : Byte) : (runStateOf v).code = if v = 0 then 0x00 else if v = 1 then 0x01 else 0xFF := by
  rw [runStateOf, apply_ite RunState.code, apply_ite RunState.code]; rfl

/-- R94, R180: the heat flag's byte, 1 for a byte that is not 0. -/
theorem okBytes_heat (v : Byte) : okBytes (.heat v (v != 0)) = [0x00, v, if v = 0 then 0x00 else 0x01] := by
  by_cases h : v = 0 <;> simp [okBytes, okCode, Result.encode, h]

/-- Settles O20: both commands answer from one field, with the state byte of `runStateOf_code` and the flag of
`okBytes_heat`. -/
theorem runModeAndHeatAnswer : Obligations.RunModeAndHeatAnswer := by
  refine fun d dcb s => ⟨rfl, rfl, fun v hv => ?_, answers_of_field_absent rfl, fun v hv => ?_,
    answers_of_field_absent rfl⟩
  · rw [← runStateOf_code]
    exact answers_of_field_present rfl hv rfl
  · exact answers_of_field_present rfl hv (okBytes_heat v)

/-! ### The selected sensor -/

theorem sensorOf_eq_builtin {code : Byte} (h : code = 0 ∨ code = 3) : sensorOf code = .builtin := if_pos h

theorem sensorOf_eq_remote {code : Byte} (h : code = 1 ∨ code = 4) : sensorOf code = .remote := by
  obtain rfl | rfl := h <;> rfl

theorem sensorOf_eq_floor {code : Byte} (h : code = 2 ∨ 5 ≤ code.toNat) : sensorOf code = .floor := by
  have hbuiltin : ¬(code = 0 ∨ code = 3) := by rintro (rfl | rfl) <;> simp at h
  have hremote : ¬(code = 1 ∨ code = 4) := by rintro (rfl | rfl) <;> simp at h
  rw [sensorOf, if_neg hbuiltin, if_neg hremote]

/-- R177: the pair that a selection code names. -/
theorem pairOf_sensorOf (d : Desc) (code : Byte) :
    pairOf d (sensorOf code) = if code = 0 ∨ code = 3 then d.pairBuiltin else if code = 1 ∨ code = 4 then d.pairRemote
      else d.pairFloor := by
  rw [sensorOf, apply_ite (pairOf d), apply_ite (pairOf d)]; rfl

/-- R177: RM.SENSEL answers from the selection byte alone. -/
theorem exec_rmSensel (d : Desc) (dcb : Bytes) (s : State) :
    exec (.rmSensel d dcb) s = .next (s.answer ((field dcb d.offSensel).map fun code =>
      .sensel code (sensorOf code) (pairOf d (sensorOf code)))) := by
  simp only [exec, execRmSensel, resolveSensor]
  cases field dcb d.offSensel <;> rfl

theorem rmSensel_answers {d : Desc} {dcb : Bytes} {s : State} {code : Byte} {which : Sensor}
    (hcode : dcb[d.offSensel.toNat]? = some code) (hwhich : sensorOf code = which) :
    ∃ t, exec (.rmSensel d dcb) s = .next t ∧
      OnlyAnswers s t (0x00 :: code :: which.code :: le16 (pairOf d which).toNat) :=
  answers_of_field_present (exec_rmSensel d dcb s) hcode (by rw [hwhich]; rfl)

/-- Settles O21: the answer names the sensor of the code (`rmSensel_answers`), by the three classes of codes. -/
theorem sensorSelectionResolves : Obligations.SensorSelectionResolves := fun d dcb s =>
  ⟨rfl, fun _ hcode =>
    ⟨fun h => rmSensel_answers hcode (sensorOf_eq_builtin h), fun h => rmSensel_answers hcode (sensorOf_eq_remote h),
      fun h => rmSensel_answers hcode (sensorOf_eq_floor h)⟩,
    answers_of_field_absent (exec_rmSensel d dcb s)⟩

/-! ### The current temperature -/

/-- R178: past the selection byte RM.CURTEMP reads the pair that it names. -/
theorem currentTemperature_eq {d : Desc} {dcb : Bytes} {code : Byte} (hcode : dcb[d.offSensel.toNat]? = some code) :
    currentTemperature d dcb =
      (dcbPair? dcb (pairOf d (sensorOf code))).elim (.error .fieldAbsent) (.ok ∘ temperature) := by
  simp only [currentTemperature, resolveSensor, field_eq_ok hcode, Except.map]
  cases dcbPair? dcb (pairOf d (sensorOf code)) <;> rfl

theorem currentTemperature_eq_error {d : Desc} {dcb : Bytes} (h : dcb.length ≤ d.offSensel.toNat) :
    currentTemperature d dcb = .error .fieldAbsent := by
  simp only [currentTemperature, resolveSensor, field_eq_error h, Except.map]

/-- R94, R178: `T10`, its whole degrees and its tenth, each cut to its field. -/
theorem okBytes_temperature (t10 : Nat) :
    okBytes (temperature t10) = 0x00 :: (le16 t10 ++ le16 (t10 / 10) ++ [lo8 (t10 % 10)]) := by
  rw [← le16_ofNat t10, ← le16_ofNat (t10 / 10)]; rfl

/-- Settles O22: the answer is `currentTemperature`, by whether the pair of the selected sensor is present. -/
theorem currentTemperatureIsTheResolvedPair : Obligations.CurrentTemperatureIsTheResolvedPair := by
  refine fun d dcb s => ⟨rfl, fun code high low p hcode hp hhigh hlow => ?_, fun code p hcode hp hshort => ?_,
    fun hshort => ?_⟩
  · rw [← pairOf_sensorOf] at hp
    subst hp
    refine exists_onlyAnswers rfl ?_
    rw [currentTemperature_eq hcode, dcbPair?_eq_some hhigh hlow]
    exact okBytes_temperature _
  · rw [← pairOf_sensorOf] at hp
    subst hp
    refine exists_onlyAnswers rfl ?_
    rw [currentTemperature_eq hcode, dcbPair?_eq_none hshort]
    rfl
  · exact exists_onlyAnswers rfl (by rw [currentTemperature_eq_error hshort]; rfl)

/-! ### RM.DECODE -/

/-- R172: the label table, each offset with its byte, restricted to the offsets the snapshot reaches. -/
theorem decodeEntries_eq_filterMap (dcb : Bytes) (labels : List (Half × Half)) :
    decodeEntries dcb labels = labels.filterMap fun e => (dcb[e.1.toNat]?).map fun v => (e.1, e.2, v) := by
  induction labels with
  | nil => rfl
  | cons e labels ih =>
    cases h : dcb[e.1.toNat]? <;> simp [decodeEntries, dcbByte?, h, ih]

/-- Settles O23: the response is the one effect of an answer, its entries those of `decodeEntries_eq_filterMap`. -/
theorem decodeMapsLabelledPresentOffsets : Obligations.DecodeMapsLabelledPresentOffsets := fun d dcb s =>
  ⟨rfl, _, decodeEntries dcb d.labels, rfl, answers_mailTo s (okBytes (.entries (decodeEntries dcb d.labels))),
    decodeEntries_eq_filterMap dcb d.labels⟩

end Sys2Proof.Machine
end

section
/-! The Link Arbiter's commands (spec/43_link_arbiter.md R205, R206, R208). The idea: for a bus address each command is one
equation over the bit `REGV[a]` and, for a post, the slot `REQ[a]`, so that every clause of R205 and R208 is one branch of
it; and of everything a step can do, LA.REGISTER only sets a bit and a reset alone clears any. -/

namespace Sys2Proof.Machine

/-! ### LA.REGISTER -/

theorem exec_laRegister_outside {address : Byte} (h : address.toNat < 1 ∨ 32 < address.toNat) (s : State) :
    exec (.laRegister address) s = .next (s.answer (.error .addrOutOfRange)) := by
  simp only [exec, execLaRegister, busAddr?_eq_none.2 h, State.answer]

theorem State.setReg_regv_self (s : State) (a : BusAddr) : (s.setReg a).regv[a] = true :=
  Vector.getElem_set_self a.isLt

/-- R205: the test and set of one bit. -/
theorem exec_laRegister_busByte (a : BusAddr) (s : State) :
    exec (.laRegister (busByte a)) s = .next
      (if s.regv[a] then s.answer (.error .duplicateAddressError) else (s.setReg a).answer (.ok .nothing)) := by
  simp only [exec, execLaRegister, busAddr?_busByte]
  exact (apply_ite Host.Outcome.next _ _ _).symm

/-- Settles O25: the refusals and the registration are the branches of `exec_laRegister_busByte`. -/
theorem registerIsTestAndSet : Obligations.RegisterIsTestAndSet := by
  refine ⟨fun _ => rfl, fun address s h => ?_, fun a s h => ?_, fun a s h => ?_⟩
  · exact exists_onlyAnswers (exec_laRegister_outside h s) rfl
  · exact exists_onlyAnswers (by rw [exec_laRegister_busByte, if_pos h]) rfl
  · exact ⟨(s.setReg a).answer (.ok .nothing), by rw [exec_laRegister_busByte, if_neg (by simp [h])],
      s.setReg_regv_self a, onlyAnswers_answer (s.setReg a) (.ok .nothing)⟩

/-! ### The post step of LA.EXCHANGE -/

theorem exec_laExchange_outside {address : Byte} (h : address.toNat < 1 ∨ 32 < address.toNat) (frame : Bytes)
    (s : State) : exec (.laExchange address frame) s = .next (s.answer (.error .addrOutOfRange)) := by
  simp only [exec, execLaExchange, State.post, busAddr?_eq_none.2 h, State.answer]

/-- R208: the refusals for a bus address, in their order, and the post. -/
theorem exec_laExchange_busByte (a : BusAddr) (frame : Bytes) (s : State) :
    exec (.laExchange (busByte a) frame) s = .next
      (if s.regv[a] = false then s.answer (.error .notRegistered)
       else if s.req[a] = .idle then s.placed a frame else s.answer (.error .busy)) := by
  refine congrArg Host.Outcome.next ?_
  obtain ⟨hb, -⟩ | ⟨b, hb, h⟩ := s.post_cases (busByte a) frame <;> rw [busAddr?_busByte] at hb <;> cases hb
  obtain ⟨hr, h⟩ | ⟨hr, hq, h⟩ | ⟨hr, hq, h⟩ := h
  · rw [if_pos hr]; exact h
  · rw [if_neg (by simp [hr]), if_neg hq]; exact h
  · rw [if_neg (by simp [hr]), if_pos hq]; exact h

/-- Settles O26: each clause is a branch of `exec_laExchange_busByte`, and `placed` says what a post changes. -/
theorem exchangePostsItsFrame : Obligations.ExchangePostsItsFrame := by
  refine ⟨fun address frame s h => ?_, fun a frame s hr => ?_, fun a frame s hr hq => ?_, fun a frame s hr hq => ?_⟩
  · exact exists_onlyAnswers (exec_laExchange_outside h frame s) rfl
  · exact exists_onlyAnswers (by rw [exec_laExchange_busByte, if_pos hr]) rfl
  · exact exists_onlyAnswers (by rw [exec_laExchange_busByte, if_neg (by simp [hr]), if_neg hq]) rfl
  · refine ⟨s.placed a frame, by rw [exec_laExchange_busByte, if_neg (by simp [hr]), if_pos hq], ?_⟩
    exact ⟨rfl, rfl, rfl, rfl, rfl, rfl, rfl, rfl, rfl, rfl⟩

/-! ### Registrations along a step -/

theorem State.release_regv (s : State) (a : BusAddr) (r : Bytes) : (s.release a r).regv = s.regv := by
  obtain ⟨-, -, -, -, hregv, -⟩ := s.release_spec a r
  exact hregv

theorem State.grant_regv (s : State) (a : BusAddr) : (s.grant a).regv = s.regv := by
  obtain ⟨-, h⟩ | ⟨frame, -, -, ⟨-, h⟩ | ⟨-, h⟩⟩ := s.grant_cases a <;> rw [h]
  · rfl
  · exact State.release_regv _ a _

theorem State.complete_regv (s : State) : s.complete.regv = s.regv := by
  obtain ⟨-, h⟩ | ⟨-, h⟩ := s.complete_cases <;> rw [h]
  exact State.release_regv _ s.owner _

/-- R206: there is no command that removes a registration. -/
theorem Effect.keeps_registration {s t : State} (h : Effect s t) {a : BusAddr} (ha : s.regv[a] = true) :
    t.regv[a] = true := by
  cases h with
  | answered c r => exact ha
  | registered b hb =>
    by_cases hab : b = a
    · subst hab; exact s.setReg_regv_self b
    · exact (Vector.getElem_set_ne b.isLt a.isLt (Fin.val_ne_of_ne hab)).trans ha
  | placed b frame hr hq => exact ha
  | arrived raw => exact ha

theorem HostShape.keeps_registration {k : Nat} {s t : State} (h : HostShape k s t) {a : BusAddr}
    (ha : s.regv[a] = true) : t.regv[a] = true := by
  obtain ⟨f, -, rfl | he⟩ := h
  · exact ha
  · exact he.keeps_registration ha

theorem resetEvent_regv (s : State) (b : BusAddr) : s.resetEvent.regv[b] = false :=
  Vector.getElem_replicate b.isLt

/-- Settles O33: by what a step can do (`step_effect`), a reset is the only act that does not keep every bit. -/
theorem registrationClearedOnlyByReset : Obligations.RegistrationClearedOnlyByReset := by
  intro s t a h ha
  cases step_effect h with
  | idle e => exact .inl ha
  | client e k c t hc hs hh => exact .inl (hh.keeps_registration ha)
  | grant e b => exact .inl (by rw [State.grant_regv]; exact ha)
  | complete e => exact .inl (by rw [State.complete_regv]; exact ha)
  | reset e hr => exact .inr ⟨hr, resetEvent_regv _⟩

end Sys2Proof.Machine
end

section
/-! Decoding and encoding are inverse at every port (spec/30_encoding.md R83, R90 to R93). The idea: a descriptor reads
back operand by operand, whatever follows it; a frame with the nine-byte header is that header, its payload and the
trailer, so that the header fields and the checks of R83 determine every byte of it. -/

namespace Sys2Proof

/-! ### Descriptors -/

/-- The eight RM commands with the operands `DESC`, `dcb` (R91). -/
theorem takeDescDcb_append (mk : Desc → Bytes → Instr) {d : Desc} {s : Bytes} (hd : d.wf = true) (hs : strOk s = true)
    (rest : Bytes) : takeDescDcb mk (encDesc d ++ (encStr s ++ rest)) = .ok (mk d s, rest) := by
  simp only [takeDescDcb, bind_eq_ok, Prod.exists, takeDesc_eq_ok, takeStr_eq_ok]
  exact ⟨d, _, ⟨hd, rfl⟩, s, _, ⟨hs, rfl⟩, rfl⟩

/-- R95: a descriptor at the front of the bytes is read, and no more. -/
theorem decodePrefix_encodeAt_append (lut : Lut) {i : Instr} (hp : i.port = .command) (hwf : i.wf = true)
    (rest : Bytes) : decodePrefix (encodeAt lut i ++ rest) = .ok (i, rest) := by
  cases i with
  | rqRead | rqWrite | rpRead | rpWrite => cases hp
  | rmDecode | rmTfmt | rmTarget | rmFrost | rmSensel | rmCurtemp | rmRunmode | rmHeat =>
    obtain ⟨hd, hs⟩ := Bool.and_eq_true_iff.mp hwf
    rw [encodeAt, List.cons_append, List.append_assoc]
    exact takeDescDcb_append _ hd hs rest
  | encRead dest source start | laRegister address =>
    simp [encodeAt, decodePrefix, decodeOperands, takeByte, bind, Except.bind, pure, Except.pure]
  | crcCompute | encWrite | decVerify | rmRaw | laExchange =>
    simp [encodeAt, decodePrefix, decodeOperands, takeByte, takeFunc, takeStr_encStr hwf, bind, Except.bind, pure,
      Except.pure]

theorem decode_encodeAt (lut : Lut) {i : Instr} (hp : i.port = .command) (hwf : i.wf = true) :
    decode (encodeAt lut i) = .ok i := by
  rw [decode, ← List.append_nil (encodeAt lut i), decodePrefix_encodeAt_append lut hp hwf]

/-- A check that lets a value through only where it holds. -/
theorem ite_error_eq_ok {ε α : Type} {p : Prop} [Decidable p] {x : Except ε α} {e : ε} {b : α} :
    (if p then x else .error e) = .ok b ↔ p ∧ x = .ok b := by
  by_cases hp : p <;> simp [hp]

/-! ### Frames with the nine-byte header -/

theorem framePayload_append {header rest : Bytes} (hh : header.length = 9) :
    framePayload (header ++ rest) = rest.take (rest.length - 2) := by
  rw [framePayload, ← hh, List.drop_left, List.length_append, hh, show 9 + rest.length - 11 = rest.length - 2 by omega]

theorem framePayload_crcAppend (lut : Lut) {header : Bytes} (hh : header.length = 9) (payload : Bytes) :
    framePayload (crcAppend lut (header ++ payload)) = payload := by
  rw [crcAppend, List.append_assoc, framePayload_append hh, List.length_append, crcTrailer_length, Nat.add_sub_cancel,
    List.take_left]

/-- The bytes that stand at the front of a frame of at least eleven bytes whose trailer is right. -/
def CheckedFrame (lut : Lut) (raw header : Bytes) : Prop :=
  header.length = 9 ∧ header <+: raw ∧ 11 ≤ raw.length ∧ crcCheck lut raw = true

/-- A checked frame is its header and its payload with the trailer that belongs to them. -/
theorem CheckedFrame.eq_crcAppend {lut : Lut} {raw header : Bytes} (h : CheckedFrame lut raw header) :
    raw = crcAppend lut (header ++ framePayload raw) := by
  obtain ⟨hh, ⟨rest, rfl⟩, hlen, hsum⟩ := h
  have hrest : 2 ≤ rest.length := by rw [List.length_append] at hlen; omega
  have hcovered : crcCovered (header ++ rest) = header ++ framePayload (header ++ rest) := by
    rw [framePayload_append hh, crcCovered, List.length_append, Nat.add_sub_assoc hrest, List.take_length_add_append]
  rw [← hcovered]
  exact eq_crcAppend_of_crcCheck hsum

theorem framePayloadOk_iff {payload : Bytes} : framePayloadOk payload = true ↔ 11 + payload.length < 65536 :=
  decide_eq_true_iff

/-- R82: a payload fits the frame it was cut from, whose length is a 16-bit number. -/
theorem framePayloadOk_framePayload {raw : Bytes} {l0 l1 : Byte} (h11 : 11 ≤ raw.length)
    (hlen : u16 l0 l1 = raw.length) : framePayloadOk (framePayload raw) = true := by
  rw [framePayloadOk_iff, framePayload_length, Nat.add_sub_of_le h11, ← hlen]
  exact u16_lt l0 l1

/-! ### Request frames -/

/-- R81, R82: the fields of a request header, read back from its bytes. -/
theorem requestHeader_of_bytes {d l0 l1 src s0 s1 c0 c1 : Byte} (f : Func) {total count : Nat}
    (hl : u16 l0 l1 = total) (hc : u16 c0 c1 = count) :
    [d, l0, l1, src, f.code, s0, s1, c0, c1] = requestHeader d src f total (half s0 s1).toNat count := by
  subst hl hc; simp [requestHeader]

/-- The checks of R83 that a request frame passes. -/
theorem checks_of_decodeRequest {lut : Lut} {raw : Bytes} {i : Instr} (h : decodeRequest lut raw = .ok i) :
    ∃ d l0 l1 src s0 s1 c0 c1 f, CheckedFrame lut raw [d, l0, l1, src, Func.code f, s0, s1, c0, c1] ∧
      u16 l0 l1 = raw.length ∧
      ((f = .read ∧ raw.length = 11 ∧ u16 c0 c1 = 0xFFFF ∧ i = .rqRead d src (half s0 s1)) ∨
       (f = .write ∧ u16 c0 c1 = raw.length - 11 ∧ i = .rqWrite d src (half s0 s1) (framePayload raw))) := by
  unfold decodeRequest at h
  split at h
  case h_2 => cases h
  case h_1 d l0 l1 src fn s0 s1 c0 c1 t0 t1 rest =>
    rw [ite_error_eq_ok, Bool.and_eq_true_iff, beq_iff_eq] at h
    obtain ⟨⟨hsum, hlen⟩, h⟩ := h
    have hframe : CheckedFrame lut _ [d, l0, l1, src, fn, s0, s1, c0, c1] := ⟨rfl, ⟨_, rfl⟩, by simp, hsum⟩
    split at h
    case h_1 hfn =>
      rw [ite_error_eq_ok, Bool.and_eq_true_iff, beq_iff_eq, beq_iff_eq] at h
      obtain ⟨⟨heleven, hcount⟩, hi⟩ := h
      cases hi
      exact ⟨d, l0, l1, src, s0, s1, c0, c1, .read, func?_eq_some.mp hfn ▸ hframe, hlen,
        .inl ⟨rfl, heleven, hcount, rfl⟩⟩
    case h_2 hfn =>
      rw [ite_error_eq_ok, beq_iff_eq] at h
      obtain ⟨hcount, hi⟩ := h
      cases hi
      exact ⟨d, l0, l1, src, s0, s1, c0, c1, .write, func?_eq_some.mp hfn ▸ hframe, hlen, .inr ⟨rfl, hcount, rfl⟩⟩
    case h_3 => cases h

/-- R83: bytes that decode as a request are the frame that they decode to. -/
theorem encodeAt_of_decodeRequest {lut : Lut} {raw : Bytes} {i : Instr} (h : decodeRequest lut raw = .ok i) :
    i.wf = true ∧ i.port = .request ∧ encodeAt lut i = raw := by
  obtain ⟨d, l0, l1, src, s0, s1, c0, c1, f, hframe, hlen, ⟨rfl, h11, hcount, rfl⟩ | ⟨rfl, hcount, rfl⟩⟩ :=
    checks_of_decodeRequest h
  · refine ⟨rfl, rfl, ?_⟩
    rw [hframe.eq_crcAppend, framePayload_eq_nil h11.le, List.append_nil,
      requestHeader_of_bytes .read (hlen.trans h11) hcount]
    rfl
  · obtain ⟨-, -, h11, -⟩ := id hframe
    refine ⟨framePayloadOk_framePayload h11 hlen, rfl, ?_⟩
    have hlen' : u16 l0 l1 = 11 + (framePayload raw).length := by rw [framePayload_length]; omega
    rw [encodeAt, writeRequest, ← requestHeader_of_bytes .write hlen' (hcount.trans (framePayload_length raw).symm)]
    exact hframe.eq_crcAppend.symm

theorem decodeRequest_readRequest (lut : Lut) (dest source : Byte) (start : Half) :
    decodeRequest lut (readRequest lut dest source start) = .ok (.rqRead dest source start) := by
  have hsum : crcCheck lut (readRequest lut dest source start) = true := crcCheck_crcAppend ..
  simp only [readRequest, crcAppend, requestHeader, crcTrailer, List.cons_append, List.nil_append] at hsum ⊢
  simp [decodeRequest, hsum]

/-- The trailer stands behind the payload, so that two bytes at least follow the header. -/
theorem append_crcTrailer_eq_cons (lut : Lut) (body payload : Bytes) :
    ∃ t0 t1 rest, payload ++ crcTrailer lut body = t0 :: t1 :: rest := by
  match payload with
  | [] => exact ⟨_, _, _, rfl⟩
  | [b] => exact ⟨_, _, _, rfl⟩
  | b :: c :: payload => exact ⟨_, _, _, rfl⟩

theorem writeRequest_length (lut : Lut) (dest source : Byte) (start : Half) (payload : Bytes) :
    (writeRequest lut dest source start payload).length = 11 + payload.length := by
  simp only [writeRequest, crcAppend_length, List.length_append, requestHeader_length]; omega

theorem decodeRequest_writeRequest (lut : Lut) (dest source : Byte) (start : Half) {payload : Bytes}
    (hp : framePayloadOk payload = true) :
    decodeRequest lut (writeRequest lut dest source start payload) = .ok (.rqWrite dest source start payload) := by
  have hfit := framePayloadOk_iff.mp hp
  have hsum : crcCheck lut (writeRequest lut dest source start payload) = true := crcCheck_crcAppend ..
  have hpayload : framePayload (writeRequest lut dest source start payload) = payload := framePayload_crcAppend _ rfl _
  have hlen := writeRequest_length lut dest source start payload
  obtain ⟨t0, t1, rest, ht⟩ := append_crcTrailer_eq_cons lut
    (requestHeader dest source .write (11 + payload.length) start.toNat payload.length ++ payload) payload
  rw [writeRequest, crcAppend, List.append_assoc, ht] at hsum hpayload hlen ⊢
  simp only [requestHeader, List.cons_append, List.nil_append] at hsum hpayload hlen ⊢
  rw [decodeRequest, hsum, hlen, u16_lo8_hi8, u16_lo8_hi8, Nat.mod_eq_of_lt hfit, Nat.mod_eq_of_lt (by omega), hpayload]
  simp

/-! ### Reply frames -/

/-- The checks of R53 and R83 that a reply frame passes. -/
theorem checks_of_decodeReply {lut : Lut} {raw : Bytes} {i : Instr} (h : decodeReply lut raw = .ok i) :
    ∃ d l0 l1 src, replyDestOk d = true ∧ replySourceOk src = true ∧ u16 l0 l1 = raw.length ∧ crcCheck lut raw = true ∧
      ((i = .rpWrite d src ∧ ∃ b5 b6, raw = [d, l0, l1, src, Func.write.code, b5, b6]) ∨
       ∃ b5 b6 b7 b8, i = .rpRead d src b5 b6 b7 b8 (framePayload raw) ∧
        CheckedFrame lut raw [d, l0, l1, src, Func.read.code, b5, b6, b7, b8]) := by
  unfold decodeReply at h
  split at h
  case h_2 => cases h
  case h_1 d l0 l1 src fn b5 b6 rest =>
    simp only [ite_error_eq_ok, Bool.and_eq_true_iff, beq_iff_eq] at h
    obtain ⟨⟨⟨⟨hsum, hlen⟩, hd⟩, hsrc⟩, h⟩ := h
    refine ⟨d, l0, l1, src, hd, hsrc, hlen, hsum, ?_⟩
    split at h
    case h_1 hfn =>
      cases h
      exact .inl ⟨rfl, b5, b6, by rw [func?_eq_some.mp hfn]⟩
    case h_2 b7 b8 t0 t1 tail hfn =>
      cases h
      refine .inr ⟨b5, b6, b7, b8, rfl, ?_⟩
      rw [func?_eq_some.mp hfn] at hsum ⊢
      exact ⟨rfl, ⟨_, rfl⟩, by simp, hsum⟩
    case h_3 => cases h

/-- R83: bytes that decode as a reply are the frame that they decode to. -/
theorem encodeAt_of_decodeReply {lut : Lut} {raw : Bytes} {i : Instr} (h : decodeReply lut raw = .ok i) :
    i.wf = true ∧ i.port = .reply ∧ encodeAt lut i = raw := by
  obtain ⟨d, l0, l1, src, hd, hsrc, hlen, hsum, ⟨rfl, b5, b6, hraw⟩ | ⟨b5, b6, b7, b8, rfl, hframe⟩⟩ :=
    checks_of_decodeReply h
  · refine ⟨by rw [Instr.wf, hd, hsrc]; rfl, rfl, ?_⟩
    have hack : raw.length = Config.ackLen := by rw [hraw]; rfl
    have hcovered : crcCovered raw = [d, l0, l1, src, Func.write.code] := by rw [hraw]; rfl
    rw [eq_crcAppend_of_crcCheck hsum, hcovered, encodeAt, writeReply, ← hack, ← hlen, lo8_u16, hi8_u16]
  · obtain ⟨-, -, h11, -⟩ := id hframe
    have htotal : 11 + (framePayload raw).length = u16 l0 l1 := by rw [framePayload_length]; omega
    refine ⟨by rw [Instr.wf, hd, hsrc, framePayloadOk_framePayload h11 hlen]; rfl, rfl, ?_⟩
    rw [encodeAt, readReply, htotal, lo8_u16, hi8_u16]
    exact hframe.eq_crcAppend.symm

theorem decodeReply_writeReply (lut : Lut) {dest source : Byte} (hd : replyDestOk dest = true)
    (hs : replySourceOk source = true) :
    decodeReply lut (writeReply lut dest source) = .ok (.rpWrite dest source) := by
  have hsum : crcCheck lut (writeReply lut dest source) = true := crcCheck_crcAppend ..
  simp only [writeReply, crcAppend, crcTrailer, Config.ackLen, List.cons_append, List.nil_append] at hsum ⊢
  simp [decodeReply, hsum, hd, hs]

theorem decodeReply_readReply (lut : Lut) {dest source : Byte} (b5 b6 b7 b8 : Byte) {payload : Bytes}
    (hd : replyDestOk dest = true) (hs : replySourceOk source = true) (hp : framePayloadOk payload = true) :
    decodeReply lut (readReply lut dest source b5 b6 b7 b8 payload) = .ok (.rpRead dest source b5 b6 b7 b8 payload) := by
  have hfit := framePayloadOk_iff.mp hp
  have hsum : crcCheck lut (readReply lut dest source b5 b6 b7 b8 payload) = true := crcCheck_crcAppend ..
  have hpayload := framePayload_readReply lut dest source b5 b6 b7 b8 payload
  have hlen := readReply_length lut dest source b5 b6 b7 b8 payload
  obtain ⟨t0, t1, rest, ht⟩ := append_crcTrailer_eq_cons lut
    ([dest, lo8 (11 + payload.length), hi8 (11 + payload.length), source, Func.read.code, b5, b6, b7, b8] ++ payload)
    payload
  rw [readReply, crcAppend, List.append_assoc, ht] at hsum hpayload hlen ⊢
  simp only [List.cons_append, List.nil_append] at hsum hpayload hlen ⊢
  simp only [decodeReply, hsum, hlen, u16_lo8_hi8, Nat.mod_eq_of_lt hfit, hd, hs, hpayload, func?_code, beq_self_eq_true,
    Bool.and_self, if_true]

/-! ### The two directions -/

/-- The bytes of a well-formed instruction decode at its port to it. -/
theorem decodeAt_encodeAt (lut : Lut) {i : Instr} (hwf : i.wf = true) :
    decodeAt lut i.port (encodeAt lut i) = .ok i := by
  cases i with
  | rqRead dest source start => exact decodeRequest_readRequest lut dest source start
  | rqWrite dest source start payload => exact decodeRequest_writeRequest lut dest source start hwf
  | rpRead dest source b5 b6 b7 b8 payload =>
    simp only [Instr.wf, Bool.and_eq_true_iff] at hwf
    obtain ⟨⟨hd, hs⟩, hp⟩ := hwf
    exact decodeReply_readReply lut b5 b6 b7 b8 hd hs hp
  | rpWrite dest source =>
    obtain ⟨hd, hs⟩ := Bool.and_eq_true_iff.mp hwf
    exact decodeReply_writeReply lut hd hs
  | _ => exact decode_encodeAt lut rfl hwf

/-- Settles O2: each operand form and each frame kind reads back what the encoder wrote (`decodeAt_encodeAt`). -/
theorem decodeOfEncodeIsIdentity : Obligations.DecodeOfEncodeIsIdentity := fun lut _ => decodeAt_encodeAt lut

/-- Settles O3: a descriptor is the encoding of what it reads (`isEncoding_of_decode`), and a frame's checks fix each of its
bytes (`encodeAt_of_decodeRequest`, `encodeAt_of_decodeReply`). -/
theorem encodeOfDecodeIsIdentity : Obligations.EncodeOfDecodeIsIdentity := by
  intro lut p bs i h
  cases p with
  | command =>
    obtain ⟨hwf, hport, hbs⟩ := isEncoding_of_decode lut h
    exact ⟨hwf, hport, (hbs.trans (List.append_nil _)).symm⟩
  | request => exact encodeAt_of_decodeRequest h
  | reply => exact encodeAt_of_decodeReply h

/-! ### The opcode map -/

/-- Settles O1: the model decodes each of the nine strings. -/
theorem specWordsDecode : Obligations.SpecWordsDecode := ⟨rfl, rfl, rfl, rfl, rfl, rfl, rfl, rfl, rfl⟩

/-- R93: the block of a descriptor is nine offsets, `K` and the entries. -/
theorem encDesc_eq (d : Desc) :
    encDesc d = ([d.offTfmt, d.offTarget, d.offFrost, d.offSensel, d.offRunmode, d.offHeat, d.pairBuiltin, d.pairRemote,
      d.pairFloor, BitVec.ofNat 16 d.labels.length].flatMap fun v => le16 v.toNat) ++
      d.labels.flatMap (fun e => le16 e.1.toNat ++ le16 e.2.toNat) := by
  rw [← encLabels_flatMap]
  simp only [encDesc, encHalf, List.flatMap_cons, List.flatMap_nil, le16_ofNat, List.append_assoc, List.append_nil]

/-- Settles O4: the encoder writes an opcode and its operands, `DESC` as `encDesc_eq` says. -/
theorem descriptorsFollowTheOpcodeMap : Obligations.DescriptorsFollowTheOpcodeMap := by
  intro b c h fn d str block hblock
  rw [← encDesc_eq] at hblock
  subst hblock
  refine ⟨rfl, rfl, ?_, ?_, ?_, ?_, ?_, ?_, ?_, ?_, ?_, ?_, ?_, rfl, rfl⟩
  all_goals simp [encode, encodeAt, encStr, encHalf]
  cases fn <;> rfl

end Sys2Proof
end

section
/-! The Link Arbiter along a step (spec/10_state.md R31, spec/20_memory.md R66, spec/43_link_arbiter.md R208 to R217). The
idea: of the slots, the link, the history and the post order a step changes nothing but by a post, a grant, a complete step
or a reset (`step_link`); what it does to the issuers and to the clients that wait is a lemma per operation. -/

namespace Sys2Proof.Machine

/-! ### What a step does to slots, link, history and post order -/

/-- Everything a step but a reset can do to the slots, the link, the history and the post order. -/
inductive LinkEffect (s t : State) : Prop where
  | kept (hlock : t.lock = s.lock) (howner : t.owner = s.owner) (hreq : t.req = s.req) (hhist : t.hist = s.hist)
      (horder : t.order = s.order)
  /-- a post (R208) -/
  | posted (a : BusAddr) (frame : Bytes) (hidle : s.req[a] = .idle) (hreq : t.req = s.req.set a (.pending frame))
      (hlock : t.lock = s.lock) (howner : t.owner = s.owner) (hhist : t.hist = s.hist)
      (horder : t.order = s.order ++ [a])
  /-- a grant (R210), the write of which succeeds or fails (R214) -/
  | granted (a : BusAddr) (frame : Bytes) (hgrant : s.grantable a = true) (hpending : s.req[a] = .pending frame)
      (howner : t.owner = a) (hhist : t.hist = s.hist ++ [.wrote a frame]) (horder : t.order = s.order.erase a)
      (hreq : (t.lock = true ∧ t.req = s.req.set a (.active frame)) ∨ (t.lock = false ∧ t.req = s.req.set a .idle))
  /-- the complete step (R212) -/
  | completed (r : Bytes) (hheld : s.lock = true) (hlock : t.lock = false) (hreq : t.req = s.req.set s.owner .idle)
      (hhist : t.hist = s.hist ++ [.read s.owner r]) (horder : t.order = s.order)

theorem Effect.linkEffect {s t : State} (h : Effect s t) : LinkEffect s t := by
  cases h with
  | answered c r => exact .kept rfl rfl rfl rfl rfl
  | registered a h => exact .kept rfl rfl rfl rfl rfl
  | placed a frame hr hq => exact .posted a frame hq rfl rfl rfl rfl rfl
  | arrived raw => exact .kept rfl rfl rfl rfl rfl

/-- A client's edit of its host state changes neither. -/
theorem LinkEffect.of_edit {k : Nat} {s t : State} {e : Env} {f : Client → Client}
    (h : LinkEffect (((s.setEnv e).onClient k f).setCur k) t) : LinkEffect s t := by
  cases h with
  | kept h1 h2 h3 h4 h5 => exact .kept h1 h2 h3 h4 h5
  | posted a frame h1 h2 h3 h4 h5 h6 => exact .posted a frame h1 h2 h3 h4 h5 h6
  | granted a frame h1 h2 h3 h4 h5 h6 => exact .granted a frame h1 h2 h3 h4 h5 h6
  | completed r h1 h2 h3 h4 h5 => exact .completed r h1 h2 h3 h4 h5

theorem HostShape.linkEffect {k : Nat} {s t : State} {e : Env} (h : HostShape k (s.setEnv e) t) : LinkEffect s t := by
  obtain ⟨f, -, rfl | he⟩ := h
  · exact .kept rfl rfl rfl rfl rfl
  · exact he.linkEffect.of_edit

theorem State.release_lock (s : State) (a : BusAddr) (r : Bytes) : (s.release a r).lock = s.lock := by
  obtain ⟨hlock, -⟩ := s.release_spec a r
  exact hlock

theorem State.release_hist (s : State) (a : BusAddr) (r : Bytes) : (s.release a r).hist = s.hist := by
  obtain ⟨-, -, -, hhist, -⟩ := s.release_spec a r
  exact hhist

theorem grant_linkEffect (s : State) (e : Env) (a : BusAddr) : LinkEffect s ((s.setEnv e).grant a) := by
  obtain ⟨-, h⟩ | ⟨frame, hg, hp, ⟨-, h⟩ | ⟨-, h⟩⟩ := (s.setEnv e).grant_cases a <;> rw [h]
  · exact .kept rfl rfl rfl rfl rfl
  · exact .granted a frame hg hp rfl rfl rfl (.inl ⟨rfl, rfl⟩)
  · obtain ⟨hlock, howner, hreq, hhist, -, -, horder, -⟩ := State.release_spec (State.freed _ a) a (errBytes .ioError)
    exact .granted a frame hg hp howner hhist horder (.inr ⟨hlock, hreq⟩)

theorem complete_linkEffect (s : State) (e : Env) : LinkEffect s (s.setEnv e).complete := by
  obtain ⟨-, h⟩ | ⟨hl, h⟩ := (s.setEnv e).complete_cases <;> rw [h]
  · exact .kept rfl rfl rfl rfl rfl
  · obtain ⟨hlock, -, hreq, hhist, -, -, horder, -⟩ := State.release_spec (State.freed _ (s.setEnv e).owner)
      (s.setEnv e).owner (State.exchangeResponse (s.setEnv e).rxRead.1)
    exact .completed _ hl hlock hreq hhist horder

/-- Everything a step can do to the slots, the link, the history and the post order. -/
theorem step_link {s t : State} (h : step s = .next t) :
    LinkEffect s t ∨ (s.env.upcoming.head? = some .reset ∧ ∃ e, t = (s.setEnv e).resetEvent) := by
  cases step_effect h with
  | idle e => exact .inl (.kept rfl rfl rfl rfl rfl)
  | client e k c t hc hs hh => exact .inl hh.linkEffect
  | grant e a => exact .inl (grant_linkEffect s e a)
  | complete e => exact .inl (complete_linkEffect s e)
  | reset e hr => exact .inr ⟨hr, e, rfl⟩

/-! ### The history -/

theorem resetEvent_req (s : State) (a : BusAddr) : s.resetEvent.req[a] = .idle := Vector.getElem_replicate a.isLt

/-- Settles O30: while the link is held nothing is granted, so `step_link` leaves the complete step and the acts that keep
the link and the history. -/
theorem noEventBetweenWriteAndRead : Obligations.NoEventBetweenWriteAndRead := by
  intro s t hheld h
  obtain (⟨hlock, howner, -, hhist, -⟩ | ⟨a, frame, -, -, hlock, howner, hhist, -⟩ | ⟨a, frame, hgrant, -⟩ |
    ⟨r, -, hlock, -, hhist, -⟩) | ⟨hreset, -⟩ := step_link h
  · exact .inl ⟨hhist, hlock.trans hheld, howner⟩
  · exact .inl ⟨hhist, hlock.trans hheld, howner⟩
  · obtain ⟨hfree, -⟩ := (s.grantable_iff a).mp hgrant
    rw [hheld] at hfree; cases hfree
  · exact .inr (.inl ⟨r, hhist, hlock⟩)
  · exact .inr (.inr hreset)

/-- Only a grant writes a frame. -/
theorem granted_of_wrote {s t : State} {a : BusAddr} {frame : Bytes} (h : step s = .next t)
    (hw : t.hist = s.hist ++ [.wrote a frame]) :
    s.grantable a = true ∧ s.req[a] = .pending frame ∧ t.order = s.order.erase a := by
  obtain (⟨-, -, -, hhist, -⟩ | ⟨_, _, -, -, -, -, hhist, -⟩ | ⟨b, f, hgrant, hpending, -, hhist, horder, -⟩ |
    ⟨r, -, -, -, hhist, -⟩) | ⟨-, e, rfl⟩ := step_link h
  · exact absurd (hhist.symm.trans hw) (by simp)
  · exact absurd (hhist.symm.trans hw) (by simp)
  · have heq := List.append_cancel_left (hhist.symm.trans hw)
    cases heq
    exact ⟨hgrant, hpending, horder⟩
  · have heq := List.append_cancel_left (hhist.symm.trans hw)
    cases heq
  · exact absurd hw.symm (List.append_ne_nil_of_right_ne_nil _ (List.cons_ne_nil _ _))

theorem getElem_set_busAddr {α : Type} (v : Vector α 32) (a b : BusAddr) (x : α) :
    (v.set a x)[b] = if a = b then x else v[b] := by
  rw [Fin.getElem_fin, Vector.getElem_set]
  simp [Fin.ext_iff]

/-- Only a post makes an idle slot pending. -/
theorem posted_of_pending {s t : State} {a : BusAddr} {frame : Bytes} (h : step s = .next t) (hidle : s.req[a] = .idle)
    (hp : t.req[a] = .pending frame) : t.order = s.order ++ [a] := by
  obtain (⟨-, -, hreq, -, -⟩ | ⟨b, f, -, hreq, -, -, -, horder⟩ | ⟨b, f, -, -, -, -, -, ⟨-, hreq⟩ | ⟨-, hreq⟩⟩ |
    ⟨r, -, -, hreq, -, -⟩) | ⟨-, e, rfl⟩ := step_link h
  · rw [hreq, hidle] at hp; cases hp
  · by_cases hab : b = a
    · exact hab ▸ horder
    · rw [hreq, getElem_set_busAddr, if_neg hab, hidle] at hp; cases hp
  · rw [hreq, getElem_set_busAddr, hidle] at hp; split at hp <;> cases hp
  · rw [hreq, getElem_set_busAddr, hidle] at hp; split at hp <;> cases hp
  · rw [hreq, getElem_set_busAddr, hidle] at hp; split at hp <;> cases hp
  · rw [resetEvent_req] at hp; cases hp

/-- Settles O31: by the acts that write a frame (`granted_of_wrote`), take an idle slot (`posted_of_pending`) and change the
post order (`step_link`). -/
theorem fifoGrantsTheLongestPending : Obligations.FifoGrantsTheLongestPending := by
  refine ⟨fun s t a frame hfifo h hw => ?_, fun s t a frame h => ⟨posted_of_pending h, fun hw => ?_⟩, fun s t h => ?_⟩
  · obtain ⟨hgrant, hpending, -⟩ := granted_of_wrote h hw
    obtain ⟨-, -, hhead⟩ := (s.grantable_iff a).mp hgrant
    exact ⟨hhead hfifo, hpending⟩
  · obtain ⟨-, -, horder⟩ := granted_of_wrote h hw
    exact horder
  · obtain (⟨-, -, -, -, horder⟩ | ⟨a, f, hidle, hreq, -, -, -, horder⟩ | ⟨a, f, -, -, -, hhist, horder, -⟩ |
      ⟨r, -, -, -, -, horder⟩) | ⟨hr, -⟩ := step_link h
    · exact .inl horder
    · exact .inr (.inl ⟨a, f, hidle, by rw [hreq, getElem_set_busAddr, if_pos rfl], horder⟩)
    · exact .inr (.inr (.inl ⟨a, f, hhist, horder⟩))
    · exact .inl horder
    · exact .inr (.inr (.inr hr))

/-! ### The history stays paired (R66) -/

theorem readsPaired_append_wrote (prev : Option BusAddr) (h : List Event) (a : BusAddr) (frame : Bytes) :
    readsPaired prev (h ++ [.wrote a frame]) = readsPaired prev h := by
  induction h generalizing prev with
  | nil => rfl
  | cons e h ih => cases e <;> simp [readsPaired, ih]

theorem readsPaired_append_read {prev : Option BusAddr} {h : List Event} {a : BusAddr} {frame : Bytes} (r : Bytes)
    (hp : readsPaired prev h = true) (hl : h.getLast? = some (.wrote a frame)) :
    readsPaired prev (h ++ [.read a r]) = true := by
  obtain ⟨h, rfl⟩ := List.getLast?_eq_some_iff.mp hl
  induction h generalizing prev with
  | nil => simp [readsPaired]
  | cons e h ih => cases e <;> simp_all [readsPaired]

theorem resetEvent_histInv (s : State) : s.resetEvent.HistInv := ⟨rfl, nofun⟩

/-- Settles O35: a grant puts the write in flight last, the complete step puts its read right behind it, and a post takes
another slot than the one in flight. -/
theorem stepKeepsReadsPaired : Obligations.StepKeepsReadsPaired := by
  rintro s t ⟨hpaired, hflight⟩ h
  obtain (⟨hlock, howner, hreq, hhist, -⟩ | ⟨a, f, hidle, hreq, hlock, howner, hhist, -⟩ |
    ⟨a, f, -, -, howner, hhist, -, hreq⟩ | ⟨r, hheld, hlock, -, hhist, -⟩) | ⟨-, e, rfl⟩ := step_link h
  · exact ⟨hhist ▸ hpaired, fun hl => by simp only [howner, hreq, hhist]; exact hflight (hlock ▸ hl)⟩
  · refine ⟨hhist ▸ hpaired, fun hl => ?_⟩
    obtain ⟨frame, hactive, hlast⟩ := hflight (hlock ▸ hl)
    have hne : a ≠ s.owner := fun heq => by rw [heq, hactive] at hidle; cases hidle
    exact ⟨frame, by simp only [howner, hreq, getElem_set_busAddr, if_neg hne, hactive], by rw [howner, hhist, hlast]⟩
  · refine ⟨by rw [hhist, readsPaired_append_wrote, hpaired], fun hl => ?_⟩
    obtain ⟨-, hreq⟩ | ⟨hfree, -⟩ := hreq
    · exact ⟨f, by simp only [howner, hreq, getElem_set_busAddr, if_pos], by rw [howner, hhist, List.getLast?_concat]⟩
    · rw [hl] at hfree; cases hfree
  · obtain ⟨frame, -, hlast⟩ := hflight hheld
    refine ⟨by rw [hhist]; exact readsPaired_append_read r hpaired hlast, fun hl => ?_⟩
    rw [hl] at hlock; cases hlock
  · exact resetEvent_histInv _

/-! ### The constants (R20, R32) -/

theorem Effect.sameConfig {s t : State} (h : Effect s t) : SameConfig s t := by
  cases h <;> exact ⟨rfl, rfl⟩

theorem HostShape.sameConfig {k : Nat} {s t : State} (h : HostShape k s t) : SameConfig s t := by
  obtain ⟨f, -, rfl | he⟩ := h
  · exact ⟨rfl, rfl⟩
  · exact he.sameConfig

theorem release_sameConfig (s : State) (a : BusAddr) (r : Bytes) : SameConfig s (s.release a r) := by
  obtain ⟨-, -, -, -, -, -, -, -, hconfig, -⟩ := s.release_spec a r
  exact hconfig

theorem grant_sameConfig (s : State) (a : BusAddr) : SameConfig s (s.grant a) := by
  obtain ⟨-, h⟩ | ⟨frame, -, -, ⟨-, h⟩ | ⟨-, h⟩⟩ := s.grant_cases a <;> rw [h]
  · exact ⟨rfl, rfl⟩
  · exact ⟨rfl, rfl⟩
  · exact release_sameConfig (State.freed _ a) a _

theorem complete_sameConfig (s : State) : SameConfig s s.complete := by
  obtain ⟨-, h⟩ | ⟨-, h⟩ := s.complete_cases <;> rw [h]
  · exact ⟨rfl, rfl⟩
  · exact release_sameConfig (State.freed _ s.owner) s.owner _

/-- Settles O37: none of a step's acts writes a constant. -/
theorem stepKeepsConfiguration : Obligations.StepKeepsConfiguration := by
  intro s t h
  cases step_effect h with
  | idle e => exact ⟨rfl, rfl⟩
  | client e k c t hc hs hh => exact hh.sameConfig
  | grant e a => exact grant_sameConfig (s.setEnv e) a
  | complete e => exact complete_sameConfig (s.setEnv e)
  | reset e hr => exact ⟨rfl, rfl⟩

end Sys2Proof.Machine
end

section
/-! The arbiter's invariant (spec/10_state.md R31, log entry 13), kept by every step. The idea: a grant that fails is a grant
that succeeds followed by the end of the exchange, so that three lemmas carry it: a post, a held link, the end of an
exchange; every other act leaves the slots, the issuers and the clients' statuses alone. -/

namespace Sys2Proof.Machine

/-! ### Who is blocked on what -/

/-- The status of client `k`, if there is one. -/
def State.statusOf (s : State) (k : Nat) : Option ClientStatus := (s.clients[k]?).map Client.status

theorem State.statusOf_eq_some {s : State} {k : Nat} {st : ClientStatus} :
    s.statusOf k = some st ↔ ∃ c, s.clients[k]? = some c ∧ c.status = st := by
  simp [State.statusOf]

theorem State.statusOf_onClient_of_keeps (s : State) (k j : Nat) {f : Client → Client}
    (hf : ∀ c, (f c).status = c.status) : (s.onClient k f).statusOf j = s.statusOf j := by
  simp only [State.statusOf, State.onClient_clients, List.getElem?_modify]
  cases s.clients[j]? <;> simp [apply_ite Client.status, hf]

theorem State.statusOf_onClient_self {s : State} {k : Nat} {f : Client → Client} {st st' : ClientStatus}
    (hf : ∀ c, (f c).status = st') (hk : s.statusOf k = some st) : (s.onClient k f).statusOf k = some st' := by
  obtain ⟨c, hc, -⟩ := State.statusOf_eq_some.mp hk
  exact State.statusOf_eq_some.mpr ⟨f c, by simp [hc], hf c⟩

theorem State.statusOf_onClient_ne (s : State) {k j : Nat} (f : Client → Client) (h : k ≠ j) :
    (s.onClient k f).statusOf j = s.statusOf j := by
  simp [State.statusOf, h]

/-- The slots, the registrations, the link, the bookkeeping and the statuses are all that the invariant speaks of. -/
theorem State.Inv.congr {s t : State} (h : s.Inv) (hreq : t.req = s.req) (hregv : t.regv = s.regv)
    (hlock : t.lock = s.lock) (howner : t.owner = s.owner) (horder : t.order = s.order) (hissuer : t.issuer = s.issuer)
    (hstatus : ∀ k, t.statusOf k = s.statusOf k) : t.Inv := by
  obtain ⟨⟨h1, h2, h3, h4⟩, h5, h6, h7, h8⟩ := h
  simp only [← State.statusOf_eq_some] at h8
  refine ⟨⟨?_, ?_, ?_, ?_⟩, ?_, ?_, ?_, ?_⟩ <;>
    simp only [hreq, hregv, hlock, howner, horder, hissuer, ← State.statusOf_eq_some, hstatus] <;> assumption

theorem State.QueueInv.issuer_eq_some_iff {s : State} (h : s.QueueInv) (a : BusAddr) (k : Nat) :
    s.issuer[a] = some k ↔ s.statusOf k = some (.blocked a) := by
  rw [h.blockedIff, State.statusOf_eq_some]

/-! ### The invariant of the slots, from who is active -/

theorem State.LinkInv.of_none_active {s : State} (hactive : ∀ a : BusAddr, State.isActive s.req[a] = false)
    (hlock : s.lock = false) (hreg : ∀ a : BusAddr, s.req[a] ≠ .idle → s.regv[a] = true) : s.LinkInv := by
  have hno (a : BusAddr) : ¬State.isActive s.req[a] = true := Bool.eq_false_iff.mp (hactive a)
  refine ⟨fun a _ ha => absurd ha (hno a), ⟨fun hl => ?_, fun ⟨a, ha⟩ => absurd ha (hno a)⟩,
    fun a ha => absurd ha (hno a), hreg⟩
  rw [hlock] at hl
  cases hl

theorem State.LinkInv.of_owner_active {s : State} (hactive : ∀ a : BusAddr, State.isActive s.req[a] = true ↔ s.owner = a)
    (hlock : s.lock = true) (hreg : ∀ a : BusAddr, s.req[a] ≠ .idle → s.regv[a] = true) : s.LinkInv :=
  ⟨fun a b ha hb => ((hactive a).mp ha).symm.trans ((hactive b).mp hb),
    ⟨fun _ => ⟨s.owner, (hactive s.owner).mpr rfl⟩, fun _ => hlock⟩, fun a => (hactive a).mp, hreg⟩

theorem State.LinkInv.none_active {s : State} (h : s.LinkInv) (hfree : s.lock = false) (a : BusAddr) :
    State.isActive s.req[a] = false := by
  refine Bool.eq_false_iff.mpr fun ha => ?_
  rw [h.lockIff.mpr ⟨a, ha⟩] at hfree
  cases hfree

/-! ### The post -/

section
variable (s : State) (a b : BusAddr) (frame : Bytes)

theorem placed_req : (s.placed a frame).req[b] = if a = b then .pending frame else s.req[b] :=
  getElem_set_busAddr s.req a b _

theorem placed_issuer : (s.placed a frame).issuer[b] = if a = b then some s.cur else s.issuer[b] :=
  getElem_set_busAddr s.issuer a b _

theorem placed_statusOf_ne {k : Nat} (hk : s.cur ≠ k) : (s.placed a frame).statusOf k = s.statusOf k :=
  State.statusOf_onClient_ne (((s.setSlot a (.pending frame)).setOrder (s.order ++ [a])).setIssuer a (some s.cur)) _ hk

end

theorem placed_statusOf_self {s : State} {a : BusAddr} {frame : Bytes} (hcur : s.statusOf s.cur = some .ready) :
    (s.placed a frame).statusOf s.cur = some (.blocked a) :=
  State.statusOf_onClient_self (s := ((s.setSlot a (.pending frame)).setOrder (s.order ++ [a])).setIssuer a (some s.cur))
    (fun _ => rfl) hcur

theorem linkInv_placed {s : State} {a : BusAddr} (frame : Bytes) (h : s.LinkInv) (hr : s.regv[a] = true)
    (hq : s.req[a] = .idle) : (s.placed a frame).LinkInv := by
  have hactive (b : BusAddr) : State.isActive (s.placed a frame).req[b] = State.isActive s.req[b] := by
    rw [placed_req]
    split
    case isTrue hab => rw [← hab, hq]; rfl
    case isFalse => rfl
  obtain ⟨hone, hlock, howner, hreg⟩ := h
  refine ⟨?_, ?_, ?_, fun b hb => ?_⟩
  · simpa only [hactive] using hone
  · simp only [hactive]; exact hlock
  · simp only [hactive]; exact howner
  · rw [placed_req] at hb
    split at hb
    case isTrue hab => exact hab ▸ hr
    case isFalse => exact hreg b hb

theorem queueInv_placed {s : State} {a : BusAddr} (frame : Bytes) (h : s.QueueInv) (hq : s.req[a] = .idle)
    (hcur : s.statusOf s.cur = some .ready) : (s.placed a frame).QueueInv := by
  have hnew : a ∉ s.order := by rw [h.pendingIff, hq]; exact Bool.false_ne_true
  have hnone : s.issuer[a] = none := (h.issuerIff a).mpr hq
  have horder : (s.placed a frame).order = s.order ++ [a] := rfl
  refine ⟨List.Nodup.append h.nodup (List.nodup_singleton a) (by simpa using hnew), fun b => ?_, fun b => ?_,
    fun b k => ?_⟩
  · rw [placed_req, horder, List.mem_append, h.pendingIff]
    split
    case isTrue hab => simp [hab, State.isPending]
    case isFalse hab => simp [Ne.symm hab]
  · rw [placed_req, placed_issuer]
    split
    case isTrue => simp
    case isFalse => exact h.issuerIff b
  · rw [← State.statusOf_eq_some, placed_issuer]
    by_cases hk : s.cur = k
    · subst hk
      rw [placed_statusOf_self hcur]
      split
      case isTrue hab => simp [hab]
      case isFalse hab => rw [h.issuer_eq_some_iff, hcur]; simp [hab]
    · rw [placed_statusOf_ne s a frame hk, ← h.issuer_eq_some_iff]
      split
      case isTrue hab => subst hab; simp [hk, hnone]
      case isFalse => rfl

theorem inv_placed {s : State} {a : BusAddr} (frame : Bytes) (h : s.Inv) (hr : s.regv[a] = true) (hq : s.req[a] = .idle)
    (hcur : s.statusOf s.cur = some .ready) : (s.placed a frame).Inv :=
  ⟨linkInv_placed frame h.1 hr hq, queueInv_placed frame h.2 hq hcur⟩

/-! ### The link held -/

/-- The state after a grant whose write succeeded (R210); `e` is what the write leaves of the environment. -/
def State.held (s : State) (a : BusAddr) (frame : Bytes) (e : Env) : State :=
  (((((s.setLock true).setOwner a).setOrder (s.order.erase a)).pushHist (.wrote a frame)).setEnv e).setSlot a
    (.active frame)

theorem held_req (s : State) (a b : BusAddr) (frame : Bytes) (e : Env) :
    (s.held a frame e).req[b] = if a = b then .active frame else s.req[b] :=
  getElem_set_busAddr s.req a b _

theorem linkInv_held {s : State} {a : BusAddr} {frame : Bytes} (e : Env) (h : s.LinkInv) (hfree : s.lock = false)
    (hp : s.req[a] = .pending frame) : (s.held a frame e).LinkInv := by
  refine .of_owner_active (fun b => ?_) rfl fun b hb => ?_
  · show _ ↔ a = b
    rw [held_req]
    split
    case isTrue hab => simp [hab, State.isActive]
    case isFalse hab => rw [h.none_active hfree]; simp [hab]
  · rw [held_req] at hb
    split at hb
    case isTrue hab => exact hab ▸ h.registered a (by rw [hp]; exact nofun)
    case isFalse => exact h.registered b hb

theorem queueInv_held {s : State} {a : BusAddr} {frame : Bytes} (e : Env) (h : s.QueueInv)
    (hp : s.req[a] = .pending frame) : (s.held a frame e).QueueInv := by
  have horder : (s.held a frame e).order = s.order.erase a := rfl
  have hissuer : (s.held a frame e).issuer = s.issuer := rfl
  refine ⟨h.nodup.erase a, fun b => ?_, fun b => ?_, h.blockedIff⟩
  · rw [held_req, horder, h.nodup.mem_erase_iff, h.pendingIff]
    split
    case isTrue hab => simp [hab, State.isPending]
    case isFalse hab => simp [Ne.symm hab]
  · rw [held_req, hissuer, h.issuerIff]
    split
    case isTrue hab => simp [← hab, hp]
    case isFalse => rfl

theorem inv_held {s : State} {a : BusAddr} {frame : Bytes} (e : Env) (h : s.Inv) (hfree : s.lock = false)
    (hp : s.req[a] = .pending frame) : (s.held a frame e).Inv :=
  ⟨linkInv_held e h.1 hfree hp, queueInv_held e h.2 hp⟩

/-! ### The end of an exchange -/

/-- The state after the exchange of address `a`, which client `k` waits for, ended with the response `r` (R210, R212). -/
def State.ended (s : State) (a : BusAddr) (k : Nat) (r : Bytes) : State :=
  ((s.freed a).setIssuer a none).onClient k fun c => { c with status := .ready, mail := c.mail ++ [r] }

theorem freed_release_eq_ended {s : State} {a : BusAddr} {k : Nat} (r : Bytes) (hk : s.issuer[a] = some k) :
    (s.freed a).release a r = s.ended a k r := by
  obtain ⟨hnone, -⟩ | ⟨j, hj, hrel⟩ := (s.freed a).release_cases a r
  · cases hnone.symm.trans hk
  · cases hj.symm.trans hk
    exact hrel

section
variable (s : State) (a b : BusAddr) (k : Nat) (r : Bytes)

theorem ended_req : (s.ended a k r).req[b] = if a = b then .idle else s.req[b] := getElem_set_busAddr s.req a b _

theorem ended_issuer : (s.ended a k r).issuer[b] = if a = b then none else s.issuer[b] :=
  getElem_set_busAddr s.issuer a b _

theorem ended_statusOf_ne {j : Nat} (hj : k ≠ j) : (s.ended a k r).statusOf j = s.statusOf j :=
  State.statusOf_onClient_ne ((s.freed a).setIssuer a none) _ hj

end

theorem ended_statusOf_self {s : State} (a : BusAddr) {k : Nat} {st : ClientStatus} (r : Bytes)
    (hk : s.statusOf k = some st) : (s.ended a k r).statusOf k = some .ready :=
  State.statusOf_onClient_self (s := (s.freed a).setIssuer a none) (fun _ => rfl) hk

theorem linkInv_ended {s : State} (k : Nat) (r : Bytes) (h : s.LinkInv) : (s.ended s.owner k r).LinkInv := by
  refine .of_none_active (fun b => ?_) rfl fun b hb => ?_
  · rw [ended_req]
    split
    case isTrue => rfl
    case isFalse hab => exact Bool.eq_false_iff.mpr fun hb => hab (h.ownerActive b hb)
  · rw [ended_req] at hb
    split at hb
    case isTrue => exact absurd rfl hb
    case isFalse => exact h.registered b hb

theorem queueInv_ended {s : State} {a : BusAddr} {k : Nat} (r : Bytes) (h : s.QueueInv)
    (hactive : State.isActive s.req[a] = true) (hk : s.issuer[a] = some k) : (s.ended a k r).QueueInv := by
  have horder : (s.ended a k r).order = s.order := rfl
  have hblocked := (h.issuer_eq_some_iff a k).mp hk
  refine ⟨h.nodup, fun b => ?_, fun b => ?_, fun b j => ?_⟩
  · rw [ended_req, horder, h.pendingIff]
    split
    case isTrue hab =>
      subst hab
      cases hs : s.req[a] <;> simp_all [State.isPending, State.isActive]
    case isFalse => rfl
  · rw [ended_req, ended_issuer]
    split
    case isTrue => simp
    case isFalse => exact h.issuerIff b
  · rw [← State.statusOf_eq_some, ended_issuer]
    by_cases hj : k = j
    · subst hj
      rw [ended_statusOf_self a r hblocked]
      split
      case isTrue => simp
      case isFalse hab => rw [h.issuer_eq_some_iff, hblocked]; simp [hab]
    · rw [ended_statusOf_ne s a k r hj, ← h.issuer_eq_some_iff]
      split
      case isTrue hab => subst hab; rw [hk]; simp [hj]
      case isFalse => rfl

/-- The end of the exchange in flight, which some client waits for. -/
theorem inv_released {s : State} (r : Bytes) (h : s.Inv) (hheld : s.lock = true) :
    ((s.freed s.owner).release s.owner r).Inv := by
  obtain ⟨hlink, hqueue⟩ := h
  have hactive : State.isActive s.req[s.owner] = true := by
    obtain ⟨a, ha⟩ := hlink.lockIff.mp hheld
    simpa only [hlink.ownerActive a ha] using ha
  have hbusy : s.req[s.owner] ≠ .idle := fun hq => by rw [hq] at hactive; cases hactive
  obtain ⟨k, hk⟩ := Option.ne_none_iff_exists'.mp (mt (hqueue.issuerIff s.owner).mp hbusy)
  rw [freed_release_eq_ended r hk]
  exact ⟨linkInv_ended k r hlink, queueInv_ended r hqueue hactive hk⟩

/-! ### The step -/

theorem setEnv_inv {s : State} (h : s.Inv) (e : Env) : (s.setEnv e).Inv :=
  h.congr rfl rfl rfl rfl rfl rfl fun _ => rfl

theorem mailTo_inv {s : State} (h : s.Inv) (k : Nat) (r : Bytes) : (s.mailTo k r).Inv :=
  h.congr rfl rfl rfl rfl rfl rfl fun j => s.statusOf_onClient_of_keeps k j fun _ => rfl

theorem setReg_inv {s : State} (h : s.Inv) (a : BusAddr) : (s.setReg a).Inv := by
  obtain ⟨⟨h1, h2, h3, hreg⟩, h5, h6, h7, h8⟩ := h
  refine ⟨⟨h1, h2, h3, fun b hb => ?_⟩, h5, h6, h7, h8⟩
  rw [State.setReg_regv, getElem_set_busAddr]
  split
  · rfl
  · exact hreg b hb

theorem grant_inv {s : State} (h : s.Inv) (a : BusAddr) : (s.grant a).Inv := by
  obtain ⟨-, hg⟩ | ⟨frame, hgrant, hp, ⟨-, hg⟩ | ⟨-, hg⟩⟩ := s.grant_cases a <;> rw [hg]
  · exact h
  · obtain ⟨hfree, -⟩ := (s.grantable_iff a).mp hgrant
    exact inv_held _ h hfree hp
  · obtain ⟨hfree, -⟩ := (s.grantable_iff a).mp hgrant
    have hheld := inv_released (errBytes .ioError) (inv_held s.txWrite.2.env h hfree hp) rfl
    have hslot (g : State) : (g.setSlot a (.active frame)).freed a = g.freed a := by
      simp [State.freed, State.setSlot]
    exact hslot _ ▸ hheld

theorem complete_inv {s : State} (h : s.Inv) : s.complete.Inv := by
  obtain ⟨-, hc⟩ | ⟨hheld, hc⟩ := s.complete_cases <;> rw [hc]
  · exact h
  · have hread : ((s.setEnv s.rxRead.2.env).pushHist (.read s.owner s.rxRead.1)).Inv :=
      h.congr rfl rfl rfl rfl rfl rfl fun _ => rfl
    exact inv_released _ hread hheld

theorem effect_inv {s t : State} (h : s.Inv) (hcur : s.statusOf s.cur = some .ready) (he : Effect s t) : t.Inv := by
  cases he with
  | answered c r => exact mailTo_inv (s := s.setCe c) (h.congr rfl rfl rfl rfl rfl rfl fun _ => rfl) s.cur r
  | registered a hr => exact mailTo_inv (setReg_inv h a) s.cur _
  | placed a frame hr hq => exact inv_placed frame h hr hq hcur
  | arrived raw => exact setEnv_inv h _

theorem hostShape_inv {k : Nat} {s t : State} (h : s.Inv) (hk : s.statusOf k = some .ready) (hh : HostShape k s t) :
    t.Inv := by
  obtain ⟨f, hf, ht⟩ := hh
  have hkeeps (j : Nat) := s.statusOf_onClient_of_keeps k j fun c => (hf c).1
  have hedit : ((s.onClient k f).setCur k).Inv := h.congr rfl rfl rfl rfl rfl rfl hkeeps
  obtain rfl | he := ht
  · exact hedit.congr rfl rfl rfl rfl rfl rfl fun _ => rfl
  · exact effect_inv hedit ((hkeeps k).trans hk) he

theorem dropRequest_status_ne_blocked (c : Client) (a : BusAddr) : (State.dropRequest c).status ≠ .blocked a := by
  unfold State.dropRequest
  cases h : c.status <;> simp [h]

/-- A reset, whatever the state before it, leads to a state that meets the invariant (R31, R290). -/
theorem resetEvent_inv (s : State) : s.resetEvent.Inv := by
  have hidle := resetEvent_req s
  have hissuer (a : BusAddr) : s.resetEvent.issuer[a] = none := Vector.getElem_replicate a.isLt
  refine ⟨.of_none_active (fun a => by rw [hidle]; rfl) rfl fun a ha => absurd (hidle a) ha, List.nodup_nil, fun a => ?_,
    fun a => ?_, fun a k => ?_⟩
  · rw [hidle]; exact ⟨nofun, nofun⟩
  · rw [hissuer, hidle]; simp
  · rw [hissuer]
    refine ⟨nofun, fun ⟨c, hc, hs⟩ => ?_⟩
    obtain ⟨d, -, rfl⟩ := List.mem_map.mp (List.mem_of_getElem? hc)
    exact absurd hs (dropRequest_status_ne_blocked d a)

theorem step_inv {s t : State} (h : s.Inv) (hs : step s = .next t) : t.Inv := by
  cases step_effect hs with
  | idle e => exact setEnv_inv h e
  | client e k c t hc hready hh => exact hostShape_inv (setEnv_inv h e) (State.statusOf_eq_some.mpr ⟨c, hc, hready⟩) hh
  | grant e a => exact grant_inv (setEnv_inv h e) a
  | complete e => exact complete_inv (setEnv_inv h e)
  | reset e hr => exact resetEvent_inv _

/-- Settles O34: every act of a step keeps the invariant (`step_inv`). -/
theorem stepKeepsArbiterInvariant : Obligations.StepKeepsArbiterInvariant := fun _ _ => step_inv

/-- Settles O36: the reset state is what a reset leads to, so that `resetEvent_inv` and `resetEvent_histInv` say it. -/
theorem resetMeetsTheInvariants : Obligations.ResetMeetsTheInvariants :=
  ⟨resetEvent_inv State.reset, resetEvent_histInv State.reset⟩

/-- Settles O38: by the values that a reset leaves. -/
theorem resetStateHoldsTheSpecValues : Obligations.ResetStateHoldsTheSpecValues :=
  ⟨fun a => ⟨resetEvent_regv State.reset a, resetEvent_req State.reset a⟩, rfl, rfl, rfl⟩

/-! ### Dropped requests (R291) -/

/-- The end of an exchange touches a client that is blocked on it and no other. -/
theorem release_lost {s t : State} {a : BusAddr} {r : Bytes} {k : Nat} {c : Client} (hinv : s.Inv)
    (hissuer : t.issuer = s.issuer) (hclients : t.clients = s.clients) (hc : s.clients[k]? = some c)
    (hlost : c.status = .lost) : (t.release a r).clients[k]? = some c := by
  rw [← hclients] at hc
  obtain ⟨-, h⟩ | ⟨j, hj, h⟩ := t.release_cases a r <;> rw [h]
  · exact hc
  · have hne : j ≠ k := by
      rintro rfl
      rw [hissuer] at hj
      obtain ⟨d, hd, hblocked⟩ := (hinv.2.blockedIff a j).mp hj
      rw [← hclients, hc] at hd; cases hd
      rw [hlost] at hblocked; cases hblocked
    simpa [hne] using hc

theorem hostShape_other {j k : Nat} {s t : State} (hne : j ≠ k) (h : HostShape j s t) :
    t.clients[k]? = s.clients[k]? := by
  obtain ⟨f, -, rfl | he⟩ := h
  · simp [hne]
  · cases he <;> simp [hne, State.placed]

/-- Settles O40: a client's turn changes that client alone, which is ready, and the end of an exchange a client that is
blocked (`QueueInv`); a reset leaves a lost client lost. -/
theorem droppedRequestsAreNeverAnswered : Obligations.DroppedRequestsAreNeverAnswered := by
  intro s t k c hinv hc hlost h
  cases step_effect h with
  | idle e => exact hc
  | client e j d t hd hready hh =>
    refine (hostShape_other ?_ hh).trans hc
    rintro rfl
    rw [hc] at hd; cases hd
    rw [hlost] at hready; cases hready
  | grant e a =>
    obtain ⟨-, hg⟩ | ⟨frame, -, -, ⟨-, hg⟩ | ⟨-, hg⟩⟩ := (s.setEnv e).grant_cases a <;> rw [hg]
    · exact hc
    · exact hc
    · exact release_lost hinv rfl rfl hc hlost
  | complete e =>
    obtain ⟨-, hg⟩ | ⟨-, hg⟩ := (s.setEnv e).complete_cases <;> rw [hg]
    · exact hc
    · exact release_lost hinv rfl rfl hc hlost
  | reset e hr =>
    show (s.clients.map State.dropRequest)[k]? = some c
    rw [List.getElem?_map, hc]
    simp [State.dropRequest, hlost]

/-! ### The fifo's bound (R211) -/

/-- The post order is no longer than there are addresses. -/
theorem State.QueueInv.idxOf_le {s : State} (h : s.QueueInv) {a : BusAddr} (ha : a ∈ s.order) :
    s.order.idxOf a ≤ 31 := by
  have hlen := h.nodup.length_le_card
  have hidx := List.idxOf_lt_length_of_mem ha
  simp only [Fintype.card_fin] at hlen
  omega

/-- Settles O58: posts come behind the requests that wait, and a grant takes the one that heads them (`step_link`). -/
theorem fifoWaitIsBounded : Obligations.FifoWaitIsBounded := by
  intro s t a hinv hfifo ha h hreset
  refine ⟨hinv.2.idxOf_le ha, ?_⟩
  obtain (⟨-, -, -, hhist, horder⟩ | ⟨b, f, -, -, -, -, hhist, horder⟩ | ⟨b, f, hgrant, -, -, hhist, horder, -⟩ |
    ⟨r, -, -, -, hhist, horder⟩) | ⟨hr, -⟩ := step_link h
  · rw [horder]
    exact .inr ⟨ha, le_rfl, fun b frame hw => absurd (hhist.symm.trans hw) (by simp)⟩
  · rw [horder, List.idxOf_append_of_mem ha]
    exact .inr ⟨List.mem_append_left _ ha, le_rfl,
      fun b frame hw => absurd (hhist.symm.trans hw) (by simp)⟩
  · by_cases hab : b = a
    · exact .inl ⟨f, hab ▸ hhist⟩
    · obtain ⟨-, -, hhead⟩ := (s.grantable_iff b).mp hgrant
      obtain ⟨rest, hrest⟩ := List.head?_eq_some_iff.mp (hhead hfifo)
      rw [horder, hrest, List.erase_cons_head]
      rw [hrest, List.mem_cons] at ha
      have hidx : (b :: rest).idxOf a = rest.idxOf a + 1 := List.idxOf_cons_ne _ hab
      exact .inr ⟨ha.resolve_left (Ne.symm hab), by omega, fun _ _ _ => hidx.symm⟩
  · rw [horder]
    refine .inr ⟨ha, le_rfl, fun b frame hw => ?_⟩
    cases List.append_cancel_left (hhist.symm.trans hw)
  · exact absurd hr hreset

end Sys2Proof.Machine
end

section
/-! The checksum is the bit-serial CRC (spec/40_checksum_engine.md R128), and it is incremental (R129). The idea: over the
accumulators as one 16-bit word the bit step is linear, so four of them shift the word and XOR the multiple of the
generator that its top nibble selects: that is what `crc_nibble` reads from the tables of R122. -/

namespace Sys2Proof

/-! ### Four bit steps -/

theorem crcBitStep_xor (r q : Half) : crcBitStep (r ^^^ q) = crcBitStep r ^^^ crcBitStep q := by
  have hcancel (x y z : Half) : (x ^^^ z) ^^^ (y ^^^ z) = x ^^^ y := by
    rw [show (x ^^^ z) ^^^ (y ^^^ z) = (x ^^^ y) ^^^ (z ^^^ z) by ac_rfl, BitVec.xor_self, BitVec.xor_zero]
  unfold crcBitStep
  rw [BitVec.msb_xor, BitVec.shiftLeft_xor_distrib]
  cases r.msb <;> cases q.msb <;> simp only [Bool.xor_self, Bool.xor_true, Bool.xor_false, Bool.not_false, if_true,
    Bool.false_eq_true, if_false, hcancel]
  · ac_rfl
  · ac_rfl

theorem crcBitStep_iterate_xor (n : Nat) (r q : Half) :
    crcBitStep^[n] (r ^^^ q) = crcBitStep^[n] r ^^^ crcBitStep^[n] q := by
  induction n generalizing r q with
  | zero => rfl
  | succ n ih => simp only [Function.iterate_succ_apply, crcBitStep_xor, ih]

/-- A word whose top nibble is clear is shifted. -/
theorem crcBitStep_iterate_low (w : Half) : crcBitStep^[4] (w &&& 0x0FFF#16) = w <<< 4 := by
  have hstep (v : Half) (h : v.msb = false) : crcBitStep v = v <<< 1 := by rw [crcBitStep, h]; rfl
  have hmsb (j : Nat) (hj : j < 4) : ((w &&& 0x0FFF#16) <<< j).msb = false := by
    interval_cases j <;> simp [BitVec.msb_eq_getLsbD_last]
  have hshift (j : Nat) (hj : j ≤ 4) : crcBitStep^[j] (w &&& 0x0FFF#16) = (w &&& 0x0FFF#16) <<< j := by
    induction j with
    | zero => simp
    | succ j ih => rw [Function.iterate_succ_apply', ih (by omega), hstep _ (hmsb j hj), BitVec.shiftLeft_add]
  rw [hshift 4 le_rfl]
  refine BitVec.eq_of_getLsbD_eq fun i hi => ?_
  interval_cases i <;> simp

/-- R122: what four bit steps make of a nibble at the top is its entry in the tables. -/
theorem crcBitStep_iterate_nibble (t : Nib) :
    crcBitStep^[4] (t.setWidth 16 <<< 12) = half Config.ccittLut.low[t.toNat] Config.ccittLut.high[t.toNat] := by
  decide +revert

/-! ### The accumulators as one word -/

theorem getLsbD_half (l h : Byte) (i : Nat) :
    (half l h).getLsbD i = if i < 8 then l.getLsbD i else h.getLsbD (i - 8) := by
  have hword : half l h = h ++ l := BitVec.eq_of_toNat_eq (by
    rw [half_toNat, BitVec.toNat_append, u16, Nat.shiftLeft_eq, Nat.mul_comm h.toNat,
      ← Nat.two_pow_add_eq_or_of_lt l.isLt, Nat.add_comm])
  rw [hword]
  exact BitVec.getLsbD_append

/-- The shift of both accumulators by 4, the top nibble of `LO` carried into `HI`, is the shift of the word (R121). -/
theorem half_shiftLeft_xor (l h x y : Byte) :
    half ((l <<< 4) ^^^ x) (((h <<< 4) ||| (l >>> 4)) ^^^ y) = (half l h <<< 4) ^^^ half x y := by
  refine BitVec.eq_of_getLsbD_eq fun i hi => ?_
  rw [BitVec.getLsbD_xor, BitVec.getLsbD_shiftLeft, getLsbD_half, getLsbD_half, getLsbD_half]
  interval_cases i <;> simp

/-- A nibble XORed into the word at the top meets the top nibble of `HI`. -/
theorem half_xor_nibble (l h : Byte) (n : Nib) :
    half l h ^^^ (n.setWidth 16 <<< 12) =
      (half l h &&& 0x0FFF#16) ^^^ (((h >>> 4).setWidth 4 ^^^ n).setWidth 16 <<< 12) := by
  refine BitVec.eq_of_getLsbD_eq fun i hi => ?_
  rw [BitVec.getLsbD_xor, BitVec.getLsbD_xor, BitVec.getLsbD_and, getLsbD_half]
  interval_cases i <;> simp

/-- `crc_nibble` with the tables of R122 is four bit steps over the word with the nibble XORed in at the top. -/
theorem crcNibble_word (c : Ce) (n : Nib) :
    half (crcNibble Config.ccittLut c n).lo (crcNibble Config.ccittLut c n).hi =
      crcBitStep^[4] (half c.lo c.hi ^^^ (n.setWidth 16 <<< 12)) := by
  rw [half_xor_nibble, crcBitStep_iterate_xor, crcBitStep_iterate_low, crcBitStep_iterate_nibble]
  exact half_shiftLeft_xor ..

/-- R123, R128: a byte is two nibbles, the high one first; the low one reaches the top four bit steps later. -/
theorem crcByte_word (c : Ce) (b : Byte) :
    half (crcByte Config.ccittLut c b).lo (crcByte Config.ccittLut c b).hi = crcBitByte (half c.lo c.hi) b := by
  have hbyte : b.setWidth 16 <<< 8 = ((b >>> 4).setWidth 4).setWidth 16 <<< 12 ^^^ (b.setWidth 4).setWidth 16 <<< 8 := by
    refine BitVec.eq_of_getLsbD_eq fun i hi => ?_
    interval_cases i <;> simp
  have hlow (n : Nib) : crcBitStep^[4] (n.setWidth 16 <<< 8) = n.setWidth 16 <<< 12 := by decide +revert
  rw [crcByte, crcNibble_word, crcNibble_word, crcBitByte, hbyte, Function.iterate_add_apply crcBitStep 4 4,
    ← BitVec.xor_assoc, crcBitStep_iterate_xor 4 (_ ^^^ _), hlow]

theorem crcLoop_word (c : Ce) (data : Bytes) :
    half (crcLoop Config.ccittLut c data).lo (crcLoop Config.ccittLut c data).hi =
      data.foldl crcBitByte (half c.lo c.hi) := by
  induction data generalizing c with
  | nil => rfl
  | cons b data ih => rw [List.foldl_cons, ← crcByte_word]; exact ih _

/-- Settles O9: after every byte the two accumulators are the bit-serial word (`crcLoop_word`). -/
theorem checksumIsBitSerialCcitt : Obligations.ChecksumIsBitSerialCcitt := by
  intro data
  have hword := crcLoop_word { hi := Config.crcSeed, lo := Config.crcSeed, t := 0 } data
  have hseed : half Config.crcSeed Config.crcSeed = 0xFFFF := by decide
  rw [hseed] at hword
  simp only [crc16Bitwise, ← hword, half_toNat, lo8_u16, hi8_u16]
  rfl

/-- Settles O10: the loop goes on over a string appended (`crcLoop_append`), from any registers (`crcRun_acc`); R125's two
examples are one string in the two orders. -/
theorem checksumIsIncremental : Obligations.ChecksumIsIncremental := by
  refine ⟨fun lut c u v => ?_, [0x12], [0x34], by decide⟩
  obtain ⟨hlo, hhi⟩ := crcRun_acc lut c (u ++ v)
  rw [crcRun, ← crcLoop_append]
  exact Prod.ext hlo hhi

end Sys2Proof
end

section
/-! How a command ends (spec/20_memory.md R60, R65, spec/60_exceptions.md R250 to R256). The idea: a command of CE, FC or RM
is an answer that the tables and parameters determine (`exec_pure`), so that every command ends in one response, but
for the post of LA.EXCHANGE; and the status byte of a response tells an error kind from `OK`. -/

namespace Sys2Proof.Machine

/-! ### Responses -/

theorem responseBytes_ne_nil (r : Except ErrKind Result) : responseBytes r ≠ [] := by
  cases r <;> exact List.cons_ne_nil _ _

theorem answers_setCe_answer (s : State) (c : Ce) (r : Except ErrKind Result) :
    Answers s ((s.setCe c).answer r) (responseBytes r) := by
  rw [State.answer_eq]
  exact answers_setCe_mailTo s c _

/-- From every state with the constants `lut` and `p` the command `i` completes with the answer `r`, and touches the working
registers at most. -/
def AnswersAlways (lut : Lut) (p : Params) (i : Instr) (r : Except ErrKind Result) : Prop :=
  ∀ s : State, s.lut = lut → s.params = p → ∃ c : Ce, exec i s = .next ((s.setCe c).answer r)

/-- R65: the commands of CE, FC and RM. -/
theorem exec_pure {i : Instr} (h : isPure i = true) (lut : Lut) (p : Params) : ∃ r, AnswersAlways lut p i r := by
  cases i with
  | crcCompute data =>
    refine ⟨.ok (.crc (crc16 lut data).1 (crc16 lut data).2), fun s hl _ => ⟨crcRun s.lut s.ce data, ?_⟩⟩
    rw [← hl]; exact execCrcCompute_eq data s
  | encRead dest source start =>
    refine ⟨.ok (.bytes (readRequest lut dest source start)), fun s hl _ => ?_⟩
    rw [← hl]
    exact ⟨_, congrArg Host.Outcome.next (sealFrame_eq s (requestHeader dest source .read 11 start.toNat 0xFFFF))⟩
  | encWrite dest source start payload =>
    refine ⟨if payload.length > p.maxFrame.val - 11 then .error .payloadTooLong
      else .ok (.bytes (writeRequest lut dest source start payload)), fun s hl hp => ?_⟩
    rw [← hl, ← hp, exec_encWrite]
    split
    · exact ⟨s.ce, rfl⟩
    · exact ⟨_, congrArg _ (sealFrame_eq s _)⟩
  | decVerify expDest expSource expFunction raw =>
    refine ⟨if raw.length < 3 then .error .tooShort
      else verifyFrame (crcCheck lut raw) expDest expSource expFunction raw, fun s hl hp => ?_⟩
    rw [show exec (.decVerify expDest expSource expFunction raw) s = _ from
      execDecVerify_eq expDest expSource expFunction raw s, ← hl]
    split
    · exact ⟨s.ce, rfl⟩
    · exact ⟨_, rfl⟩
  | rmDecode desc dcb => exact ⟨.ok _, fun s _ _ => ⟨s.ce, rfl⟩⟩
  | rmRaw | rmTfmt | rmTarget | rmFrost | rmSensel | rmCurtemp | rmRunmode | rmHeat =>
    exact ⟨_, fun s _ _ => ⟨s.ce, rfl⟩⟩
  | laRegister | laExchange | rqRead | rqWrite | rpRead | rpWrite => cases h

/-- Settles O24: the answer of `exec_pure` is the same in both states. -/
theorem pureCommandsDependOnOperandsOnly : Obligations.PureCommandsDependOnOperandsOnly := by
  rintro i s u h ⟨hlut, hparams⟩
  obtain ⟨r, hr⟩ := exec_pure h s.lut s.params
  obtain ⟨c, hs⟩ := hr s rfl rfl
  obtain ⟨d, hu⟩ := hr u hlut hparams
  exact ⟨responseBytes r, _, _, hs, answers_setCe_answer s c r, hu, answers_setCe_answer u d r⟩

/-- The state after a command that ends at once with one response that is not empty. -/
def EndsAtOnce (s t : State) : Prop := ∃ r, r ≠ [] ∧ t.clients = mailed s r

theorem answer_endsAtOnce (s : State) (r : Except ErrKind Result) : EndsAtOnce s (s.answer r) := by
  rw [State.answer_eq]
  exact ⟨_, responseBytes_ne_nil r, rfl⟩

theorem busByte_of_busAddr? {b : Byte} {a : BusAddr} (h : busAddr? b = some a) : b = busByte a :=
  BitVec.eq_of_toNat_eq (by rw [busByte_toNat, busAddr?_eq_some.mp h])

/-- R205: LA.REGISTER ends at once. -/
theorem laRegister_endsAtOnce (address : Byte) (s : State) :
    ∃ t, exec (.laRegister address) s = .next t ∧ EndsAtOnce s t := by
  cases h : busAddr? address with
  | none => exact ⟨_, exec_laRegister_outside (busAddr?_eq_none.mp h) s, answer_endsAtOnce s _⟩
  | some a =>
    refine ⟨_, busByte_of_busAddr? h ▸ exec_laRegister_busByte a s, ?_⟩
    split
    · exact answer_endsAtOnce s _
    · exact answer_endsAtOnce (s.setReg a) _

/-- Settles O46: a command of CE, FC or RM answers (`exec_pure`), as does LA.REGISTER; LA.EXCHANGE refuses or posts
(`post_cases`). -/
theorem commandsEndWithOneResponse : Obligations.CommandsEndWithOneResponse := by
  intro i s hp
  cases hpure : isPure i with
  | true =>
    obtain ⟨r, hr⟩ := exec_pure hpure s.lut s.params
    obtain ⟨c, hs⟩ := hr s rfl rfl
    exact ⟨_, hs, .inl (answer_endsAtOnce (s.setCe c) r)⟩
  | false =>
    cases i with
    | laRegister address =>
      obtain ⟨t, ht, hend⟩ := laRegister_endsAtOnce address s
      exact ⟨t, ht, .inl hend⟩
    | laExchange address frame =>
      refine ⟨s.post address frame, rfl, ?_⟩
      obtain ⟨-, h⟩ | ⟨a, ha, ⟨-, h⟩ | ⟨-, -, h⟩ | ⟨hr, hq, h⟩⟩ := s.post_cases address frame <;> rw [h]
      · exact .inl (answer_endsAtOnce s (.error .addrOutOfRange))
      · exact .inl (answer_endsAtOnce s (.error .notRegistered))
      · exact .inl (answer_endsAtOnce s (.error .busy))
      · exact .inr ⟨a, frame, by rw [busByte_of_busAddr? ha], Vector.getElem_set_self a.isLt, rfl⟩
    | rqRead | rqWrite | rpRead | rpWrite => cases hp
    | _ => cases hpure

/-! ### Error kinds -/

theorem ErrKind.mem_all (k : ErrKind) : k ∈ ErrKind.all := by cases k <;> decide

/-- R250's table holds each code once. -/
theorem ErrKind.code_injective : Function.Injective ErrKind.code := fun k k' h =>
  List.inj_on_of_nodup_map (l := ErrKind.all) (by decide) k.mem_all k'.mem_all h

/-- Settles O44: no kind has the code of `OK`, and no two have the same (`code_injective`). -/
theorem statusCodesAreDistinct : Obligations.StatusCodesAreDistinct :=
  ⟨ErrKind.code_ne_okCode, fun _ _ h => ErrKind.code_injective h⟩

/-- R253: the host reads a transient kind from its code. -/
theorem transientCodes_contains_code (k : ErrKind) : transientCodes.contains k.code = true ↔ k.cls = .transient := by
  simp [transientCodes, List.mem_map_of_injective ErrKind.code_injective, ErrKind.mem_all]

/-- Settles O47: R253's lists are the classes of R250's table, kind by kind. -/
theorem retryClassesOfTheKinds : Obligations.RetryClassesOfTheKinds := by
  refine ⟨fun k => ?_, fun k => ?_, fun k => ?_, fun k => ?_, transientCodes_contains_code⟩ <;> cases k <;> decide

/-- Where an instruction leaves its client the code of an error kind, that response is all it did: `OK` is another code, and
the other effects leave the responses alone. -/
theorem Effect.answers_of_error {s t : State} {c : Client} {k : ErrKind} (h : Effect s t)
    (hc : s.clients[s.cur]? = some c)
    (hmail : t.clients[s.cur]? = some { c with mail := c.mail ++ [[k.code]] }) : Answers s t [k.code] := by
  have hmails := congrArg (Option.map Client.mail) hmail
  cases h with
  | answered ce r =>
    have hr : r = [k.code] := by simpa [hc] using hmails
    exact hr ▸ answers_setCe_mailTo s ce r
  | registered a h =>
    have hr : okBytes .nothing = [k.code] := by simpa [hc] using hmails
    exact absurd (List.cons.inj hr).1.symm k.code_ne_okCode
  | placed a frame hr hq => simp [State.placed, hc] at hmails
  | arrived raw => simp [hc] at hmails

/-- Settles O45: of everything an instruction can do (`exec_effect`) only a response can leave an error code. -/
theorem errorsChangeNothing : Obligations.ErrorsChangeNothing := by
  intro i s t c k hc ht hmail
  obtain ⟨u, hu, he⟩ := exec_effect i s
  cases hu.symm.trans ht
  exact he.answers_of_error hc hmail

/-! ### Frames -/

/-- R158: of a string with the right trailer the destination is checked first. -/
theorem verdict_illegalDestination {lut : Lut} {expDest expSource : Byte} {expFunction : Func} {raw : Bytes} {r : Result}
    (hlen : 3 ≤ raw.length) (hsum : crcCheck lut raw = true) (h129 : raw.getD 0 0 ≠ 129) (h160 : raw.getD 0 0 ≠ 160) :
    verdict (verifyChecks lut expDest expSource expFunction raw) r = .error .illegalDestination := by
  simp only [verifyChecks, verdict_cons, hsum, Nat.not_lt.mpr hlen, h129, h160, ne_eq, not_false_eq_true, and_self,
    decide_false, decide_true, Bool.not_true, Bool.false_eq_true, if_false, if_true]

theorem decVerify_illegalDestination (expDest expSource : Byte) (expFunction : Func) {dest : Byte} {rest : Bytes}
    (s : State) (hrest : rest ≠ []) (h129 : dest ≠ 129) (h160 : dest ≠ 160) :
    ∃ t, exec (.decVerify expDest expSource expFunction (crcAppend s.lut (dest :: rest))) s = .next t ∧
      Answers s t [0x04] := by
  have hlen : 3 ≤ (crcAppend s.lut (dest :: rest)).length := by
    have := List.length_pos_iff.mpr hrest
    rw [crcAppend_length, List.length_cons]; omega
  have hans := exec_decVerify_answers expDest expSource expFunction (crcAppend s.lut (dest :: rest)) s
  rwa [verdict_illegalDestination hlen (crcCheck_crcAppend ..) h129 h160] at hans

/-- Settles O18: byte 0 of a request is its destination, which is no master code. -/
theorem requestsFailAtTheDestination : Obligations.RequestsFailAtTheDestination :=
  fun _ _ expDest expSource _ _ expFunction s h129 h160 =>
    ⟨decVerify_illegalDestination expDest expSource expFunction s (List.cons_ne_nil _ _) h129 h160,
      decVerify_illegalDestination expDest expSource expFunction s (List.cons_ne_nil _ _) h129 h160⟩

/-- The response that carries a sealed frame of `n` bytes. -/
theorem sealFrame_answers_length (s : State) {body : Bytes} {n : Nat} (hn : body.length + 2 = n) :
    Answers s (sealFrame s body) (0x00 :: le16 n ++ crcAppend s.lut body) := by
  rw [← hn, ← okBytes_crcAppend]
  exact sealFrame_answers s body

/-- Settles O41: the encoders seal the header and payload that the frames of R83 are made of. -/
theorem requestFramesAreEncoderOutput : Obligations.RequestFramesAreEncoderOutput := by
  refine fun dest source start payload s => ⟨⟨_, rfl, sealFrame_answers_length s rfl⟩, fun hfits =>
    ⟨_, exec_encWrite .., ?_⟩⟩
  rw [if_neg (Nat.not_lt.mpr hfits)]
  exact sealFrame_answers_length s (by rw [List.length_append, requestHeader_length]; omega)

/-- R208: a registered address whose slot is idle. -/
theorem State.post_busByte_of_idle {s : State} {a : BusAddr} (frame : Bytes) (hr : s.regv[a] = true)
    (hq : s.req[a] = .idle) : s.post (busByte a) frame = s.placed a frame := by
  rw [State.post, busAddr?_busByte]
  simp only [hr, hq, if_true]

/-- Settles O42: a request frame is posted as LA.EXCHANGE posts its bytes, by the branches of R208. -/
theorem requestFramesArePosted : Obligations.RequestFramesArePosted := by
  refine ⟨fun _ _ _ _ _ => ⟨rfl, rfl⟩, fun i a s hi hr hq => ?_⟩
  obtain ⟨source, start, rfl | ⟨payload, rfl⟩⟩ := hi
  · exact congrArg Host.Outcome.next (State.post_busByte_of_idle _ hr hq)
  · exact congrArg Host.Outcome.next (State.post_busByte_of_idle _ hr hq)

/-- Settles O43: a reply frame arrives, as the bytes it is. -/
theorem replyFramesReachTheTransport : Obligations.ReplyFramesReachTheTransport := by
  intro i s hp
  cases i with
  | rpRead | rpWrite => rfl
  | _ => cases hp

/-- Settles O29: `rxRead` cuts the settled answer at `MAX_FRAME`, and what it cuts off is the `residue`. -/
theorem readReturnsAtMostMaxFrame : Obligations.ReadReturnsAtMostMaxFrame := by
  refine ⟨fun s => s.rxRead_spec.1, fun s r rest hrx hfits => ?_, fun s r rest hrx hlong => ?_⟩
  · rw [State.rxRead, hrx]
    simp only [List.take_of_length_le hfits, State.residue, if_pos hfits]
    rfl
  · rw [State.rxRead, hrx]
    simp only [State.residue, if_neg (Nat.not_le.mpr hlong)]
    rfl

end Sys2Proof.Machine
end

section
/-! What one turn does (spec/43_link_arbiter.md R201, R210 to R218, spec/70_reset_and_hazards.md R290 to R296). The idea: a
settled turn runs in the state whose count of the arbiter's waiting is that of the turn (`step_settled`), and what the turn
does there is the equation of its act. -/

namespace Sys2Proof.Machine

/-! ### Settled turns -/

/-- A turn that may be taken before an overdue arbiter is taken when it is the settled one. -/
theorem settled_of_mayPass {s : State} {u : Turn} {turns : List Turn} (h : s.env.upcoming = u :: turns)
    (hp : mayPass s u = true) : Settled s u turns := ⟨h, fun _ => hp⟩

theorem mayPass_of_arbiterMoves {s : State} {u : Turn} (h : arbiterMoves s u = true) : mayPass s u = true := by
  cases u with
  | grant a => exact h
  | complete => exact h
  | _ => cases h

theorem step_arbiter {s : State} {u : Turn} {turns : List Turn} (h : s.env.upcoming = u :: turns)
    (hm : arbiterMoves s u = true) : step s = takeTurn u (afterArbiter s turns) := by
  rw [step_settled (settled_of_mayPass h (mayPass_of_arbiterMoves hm)), before_eq_afterArbiter hm]

theorem step_other {s : State} {u : Turn} {turns : List Turn} (h : Settled s u turns) (hm : arbiterMoves s u = false) :
    step s = takeTurn u (afterTurn s turns) := by
  rw [step_settled h, before_eq_afterTurn hm]

/-! ### The grant step -/

/-- The end of address a's exchange (R210, R212): slot and link are free, the client that waits is served. -/
theorem freed_release_spec (s : State) (a : BusAddr) (r : Bytes) :
    ((s.freed a).release a r).lock = false ∧ ((s.freed a).release a r).req = s.req.set a .idle ∧
    ((s.freed a).release a r).hist = s.hist ∧ ((s.freed a).release a r).regv = s.regv ∧
    ((s.freed a).release a r).ce = s.ce ∧ SameConfig s ((s.freed a).release a r) ∧
    ((s.freed a).release a r).env = s.env ∧
    ∀ k, s.issuer[a] = some k → ((s.freed a).release a r).clients =
      s.clients.modify k fun c => { c with status := .ready, mail := c.mail ++ [r] } := by
  obtain ⟨hlock, -, hreq, hhist, hregv, hce, -, henv, hconfig, hclients⟩ := (s.freed a).release_spec a r
  exact ⟨hlock, hreq, hhist, hregv, hce, hconfig, henv, hclients⟩

/-- Settles O27: the two outcomes of `grant_cases`, by what the write answered. -/
theorem grantWritesTheFrame : Obligations.GrantWritesTheFrame := by
  intro s a frame turns hturns hfree hp hfifo
  have hgrant : s.grantable a = true := (s.grantable_iff_enabled a).mpr ⟨hfree, ⟨frame, hp⟩, hfifo⟩
  have hstep : step s = .next ((afterArbiter s turns).grant a) := step_arbiter hturns hgrant
  obtain ⟨hno, -⟩ | ⟨f, -, hf, hcases⟩ := (afterArbiter s turns).grant_cases a
  · cases hgrant.symm.trans hno
  obtain rfl : frame = f := Slot.pending.inj (hp.symm.trans hf)
  obtain ⟨htx, hg⟩ | ⟨htx, hg⟩ := hcases
  · refine ⟨fun _ => ⟨_, hstep, ?_⟩, fun h => ?_⟩
    · rw [hg]; exact ⟨rfl, rfl, rfl, rfl, rfl, rfl, ⟨rfl, rfl⟩, rfl, rfl⟩
    · cases htx.symm.trans h
  · refine ⟨fun h => ?_, fun _ => ⟨_, hstep, ?_⟩⟩
    · cases htx.symm.trans h
    · rw [hg]; exact freed_release_spec _ a _

/-! ### The complete step -/

theorem exchangeResponse_eq (r : Bytes) :
    State.exchangeResponse r = if r = [] then [0x01] else 0x00 :: le16 r.length ++ r := by
  cases r <;> rfl

/-- Settles O28: the one act of `complete_cases` with the link held. -/
theorem completeAnswersTheReply : Obligations.CompleteAnswersTheReply := by
  rintro s turns r hturns hheld rfl
  have hstep : step s = .next (afterArbiter s turns).complete := step_arbiter hturns hheld
  obtain ⟨hno, -⟩ | ⟨-, hc⟩ := (afterArbiter s turns).complete_cases
  · cases hheld.symm.trans hno
  obtain ⟨hlen, -⟩ := (afterArbiter s turns).rxRead_spec
  refine ⟨_, hstep, hlen, ?_⟩
  rw [hc, ← exchangeResponse_eq]
  exact freed_release_spec _ s.owner _

/-! ### Turns that are not enabled -/

theorem arbiterMoves_imp_enabled {s : State} {u : Turn} (h : arbiterMoves s u = true) : Enabled s u := by
  cases u with
  | grant a => exact (s.grantable_iff_enabled a).mp h
  | complete => exact h
  | _ => cases h

theorem clientTurn_of_not_enabled {s : State} {k : Nat} (h : ¬Enabled s (.client k)) : clientTurn k s = .next s := by
  unfold clientTurn
  split
  case h_1 => rfl
  case h_2 c hc =>
    split
    case h_1 => rfl
    case h_2 => rfl
    case h_3 hs =>
      split
      case h_1 r hr => exact absurd ⟨c, hc, hs, .inl (by simp [hr])⟩ h
      case h_2 => rfl
      case h_3 q rest hr hu => exact absurd ⟨c, hc, hs, .inr (by simp [hu])⟩ h

/-- An agent's turn that is not enabled does nothing. -/
theorem takeTurn_of_not_enabled {s : State} {u : Turn} (hu : ofAgent u = true) (h : ¬Enabled s u) :
    takeTurn u s = .next s := by
  cases u with
  | client k => exact clientTurn_of_not_enabled h
  | grant a =>
    have hg : s.grantable a = false := Bool.eq_false_iff.mpr (mt (s.grantable_iff_enabled a).mp h)
    rw [takeTurn, State.grant, hg]; rfl
  | complete =>
    have hl : s.lock = false := Bool.eq_false_iff.mpr h
    rw [takeTurn, State.complete, hl]; rfl
  | reset | arrive | drain | hostTransport => cases hu

/-- Settles O32: the turn is used up (`step_other`) and does nothing (`takeTurn_of_not_enabled`). -/
theorem disabledTurnsDoNothing : Obligations.DisabledTurnsDoNothing := by
  intro s u turns hset hu h
  rw [step_other hset (Bool.eq_false_iff.mpr (mt arbiterMoves_imp_enabled h))]
  refine takeTurn_of_not_enabled hu fun he => h ?_
  cases u <;> exact he

/-! ### Reset -/

theorem dropRequest_eq (c : Client) : State.dropRequest c = { c with status := (State.dropRequest c).status } := by
  unfold State.dropRequest
  split <;> rfl

theorem dropRequest_status (c : Client) : (State.dropRequest c).status =
    match c.status with | .ready => .ready | .blocked _ => .lost | .lost => .lost := by
  unfold State.dropRequest
  split <;> simp [*]

/-- Settles O39: a reset is taken even before an overdue arbiter, and its equation says the rest. -/
theorem resetDropsOutstandingExchanges : Obligations.ResetDropsOutstandingExchanges := by
  intro s turns hturns
  refine ⟨(afterTurn s turns).resetEvent, step_other (settled_of_mayPass hturns rfl) rfl,
    fun a => ⟨resetEvent_regv _ a, resetEvent_req _ a⟩, rfl, rfl, ⟨rfl, rfl⟩, rfl, List.length_map .., fun k c hc => ?_⟩
  refine ⟨State.dropRequest c, ?_, dropRequest_eq c, dropRequest_status c⟩
  show (s.clients.map State.dropRequest)[k]? = some (State.dropRequest c)
  rw [List.getElem?_map, hc]; rfl

/-! ### The host and the transport -/

theorem quiet_iff (s : State) : s.quiet = true ↔ ∀ a : BusAddr, s.req[a] = .idle := by
  rw [State.quiet, List.all_eq_true]
  constructor
  · exact fun h a => beq_iff_eq.mp (h _ (Vector.mem_toList_iff.mpr (Vector.getElem_mem a.isLt)))
  · intro h v hv
    obtain ⟨i, hi, rfl⟩ := Vector.getElem_of_mem (Vector.mem_toList_iff.mp hv)
    exact beq_iff_eq.mpr (h ⟨i, hi⟩)

/-- Settles O56: by the turns `hostTransport` and `drain`, the latter by whether every slot is idle. -/
theorem transportIsUsedByExchangeOnly : Obligations.TransportIsUsedByExchangeOnly := by
  refine ⟨fun s turns h => ?_, fun s turns a h ha => ?_, fun s turns h hidle => ?_⟩
  · rw [step_other (settled_of_mayPass h rfl) rfl]; rfl
  · rw [step_other (settled_of_mayPass h rfl) rfl, takeTurn, drainTurn, if_neg]
    exact fun hq => ha ((quiet_iff s).mp hq a)
  · rw [step_other (settled_of_mayPass h rfl) rfl, takeTurn, drainTurn, if_pos]
    · rfl
    · exact (quiet_iff s).mpr hidle

/-! ### Open turns -/

theorem openTurn_ne_none {s : State} {u : Turn} (h : Enabled s u) : openTurn s ≠ none := by
  intro hnone
  rw [openTurn_eq_none] at hnone
  unfold openTurns at hnone
  split at hnone
  case isTrue ho => simp [overdue, arbiterReady, hnone] at ho
  case isFalse => exact List.not_mem_nil (hnone ▸ (mem_enabledTurns s u).mpr h)

/-- Settles O57: what an open turn is (`mem_openTurns`), that there is one (`openTurn_ne_none`), and that the state with that
turn settled takes it from there. -/
theorem openTurnsAreEnabled : Obligations.OpenTurnsAreEnabled := by
  refine ⟨fun s u h => ?_, fun s u => openTurn_ne_none, fun s u hnone h => ?_, fun s hup hno => ?_⟩
  · obtain ⟨henabled, hmoves⟩ := mem_openTurns (openTurn_mem h)
    refine ⟨henabled, fun ho k hk => ?_⟩
    have hmove := hmoves ho
    rw [hk] at hmove
    cases hmove
  · obtain ⟨-, hmoves⟩ := mem_openTurns (openTurn_mem h)
    have hset : Settled { s with env := { s.env with turns := u :: s.env.upcoming, seq := s.env.seq + 1 } } u
        s.env.upcoming :=
      ⟨rfl, fun ho => mayPass_of_arbiterMoves (hmoves ho)⟩
    rw [step_settled hset]
    simp only [step, runTurn, settledTurn_eq_none.mpr hnone, h]
    rfl
  · have hsettled : settledTurn s = none := settledTurn_eq_none.mpr fun v turns ⟨hv, _⟩ => by
      rw [hv] at hup; cases hup
    have hopen : openTurn s = none := by
      cases ho : openTurn s with
      | none => rfl
      | some u =>
        obtain ⟨henabled, -⟩ := mem_openTurns (openTurn_mem ho)
        exact absurd henabled (hno u)
    simp only [step, runTurn, hsettled, hopen]

/-! ### A step runs what is decoded -/

theorem issueAt_of_ok {p : Port} {k : Nat} {bs : Bytes} {s : State} {i : Instr} (h : decodeAt s.lut p bs = .ok i) :
    issueAt p k bs s = exec i (s.setCur k) := by
  rw [issueAt, h]

theorem issueAt_of_error {p : Port} {k : Nat} {bs : Bytes} {s : State} {e : Reject}
    (h : decodeAt s.lut p bs = .error e) : issueAt p k bs s = .next ((s.setCur k).answer (.error .illegalCommand)) := by
  rw [issueAt, h]; rfl

/-- Settles O6: a client's next item, a descriptor, is issued at the command port. -/
theorem stepRunsDecodedCommand : Obligations.StepRunsDecodedCommand := fun _ _ _ _ _ _ _ h hi =>
  (step_issues h).trans (issueAt_of_ok (p := .command) hi)

/-- Settles O7: a request frame is issued at the request port, and bytes that arrive are met at the reply port. -/
theorem stepRunsDecodedFrame : Obligations.StepRunsDecodedFrame := by
  refine ⟨fun s k c raw prog turns i h hi => ?_, fun s k c raw prog turns e h he => ?_, fun s raw turns i h hi => ?_,
    fun s raw turns e h he => ?_⟩
  · exact (step_issues h).trans (issueAt_of_ok (p := .request) hi)
  · exact exists_onlyAnswers ((step_issues h).trans (issueAt_of_error (p := .request) he)) rfl
  · have hi : decodeAt (afterTurn s turns).lut .reply raw = .ok i := hi
    rw [step_other h rfl, takeTurn, arriveTurn, hi]
  · have he : decodeAt (afterTurn s turns).lut .reply raw = .error e := he
    rw [step_other h rfl, takeTurn, arriveTurn, he]
    rfl

end Sys2Proof.Machine
end

section
/-! The client sequences (spec/44_client_sequences.md R231 to R240). The idea: a host call is in one of a few shapes, a full
read, a setter with its plan, a getter with its one command, a `construct`, and each shape is one equation for the step that
begins it; the step of a call in progress is the equation of its stage. -/

namespace Sys2Proof.Machine

/-! ### Issuing the command of a line -/

/-- A well-formed command of a host call runs: its descriptor decodes to it. -/
theorem issueCommand_eq_exec {k : Nat} {i : Instr} {s : State} (hp : i.port = .command) (hwf : i.wf = true) :
    issueCommand k i s = exec i (s.setCur k) := issueCommand_eq hp (decodeAt_encodeAt s.lut hwf)

/-- The command of a line runs where the turn is used up, the client is edited and its call is at its next stage. -/
theorem issueCommand_atStage_eq_exec {s : State} {k : Nat} {turns : List Turn} {i : Instr} {r : Running}
    (edit : Client → Client) (hp : i.port = .command) (hwf : i.wf = true) :
    issueCommand k i (((afterTurn s turns).onClient k edit).atStage k r) =
      exec i (issuing s k turns fun c => { edit c with running := some r }) := by
  rw [issueCommand_eq_exec hp hwf, issuing_eq, State.atStage, State.onClient_onClient]
  rfl

/-- A call that goes on edits nothing else first. -/
theorem issueCommand_next_stage_eq_exec {s : State} {k : Nat} {turns : List Turn} {i : Instr} {r : Running}
    (hp : i.port = .command) (hwf : i.wf = true) :
    issueCommand k i ((afterTurn s turns).atStage k r) =
      exec i (issuing s k turns fun c => { c with running := some r }) := by
  rw [issueCommand_eq_exec hp hwf, issuing_eq, State.atStage]

/-- The call ends, and its client's turn with it. -/
theorem onlyHost_endCall (s : State) (k : Nat) (turns : List Turn) (edit : Client → Client) (o : Bytes) :
    OnlyHost s (((afterTurn s turns).onClient k edit).endCall k o) k turns
      fun c => { edit c with running := none, done := (edit c).done ++ [o] } :=
  State.onClient_onClient (afterTurn s turns) k _ _

/-! ### Full reads -/

theorem beginCall_read {k : Nat} {c : Client} {id : Identity} {call : HostCall} {budget : Nat} {s : State}
    (hid : c.ident = some id) (hcall : call = .readAll ∨ call = .refresh) :
    beginCall k c call budget s = beginRead k id call budget s := by
  obtain rfl | rfl := hcall <;> simp only [beginCall, hid, beginOwned]

/-- Settles O50: the call begins as a full read (`beginCall_read`). -/
theorem readAllBeginsWithEncRead : Obligations.ReadAllBeginsWithEncRead := by
  intro s k c id call retries prog turns h hid hcall
  rw [step_issues h, takeRequest, beginCall_read hid hcall]
  exact issueCommand_atStage_eq_exec _ rfl rfl

/-! ### Setters -/

theorem beginCall_setter {k : Nat} {c : Client} {id : Identity} {call : HostCall} {budget : Nat} {s : State} {p : Params}
    {plan : Except ErrKind (Half × Byte)} (hid : c.ident = some id) (hplan : setterPlan p call = some plan)
    (hp : s.params = p) : beginCall k c call budget s = beginWrite k id call budget plan s := by
  subst hp
  cases call with
  | setTargetTemperature | setRunMode | setFrostProtectTemperature => simp only [beginCall, hid, beginOwned, hplan]
  | _ => cases hplan

/-- R235 to R237: the guards, and the status code of each. -/
theorem setterPlan_of_out_of_range {p : Params} {call : HostCall} {v code : Byte}
    (h : (call = .setTargetTemperature v ∧ (v.toNat < 5 ∨ 35 < v.toNat) ∧ code = 0x0C) ∨
      (call = .setRunMode v ∧ v ≠ 0 ∧ v ≠ 1 ∧ code = 0x0E) ∨
      (call = .setFrostProtectTemperature v ∧ (v < p.frostMin ∨ p.frostMax < v) ∧ code = 0x0C)) :
    ∃ e : ErrKind, setterPlan p call = some (.error e) ∧ code = e.code := by
  obtain ⟨rfl, hv, rfl⟩ | ⟨rfl, h0, h1, rfl⟩ | ⟨rfl, hv, rfl⟩ := h
  · exact ⟨.outOfRange, congrArg some (if_pos hv), rfl⟩
  · exact ⟨.invalidMode, congrArg some (if_pos ⟨h0, h1⟩), rfl⟩
  · exact ⟨.outOfRange, congrArg some (if_pos hv), rfl⟩

/-- R235 to R237: the register and the value of each setter whose guard passes. -/
theorem setterPlan_of_in_range {p : Params} {call : HostCall} {v : Byte} {start : Half}
    (h : (call = .setTargetTemperature v ∧ 5 ≤ v.toNat ∧ v.toNat ≤ 35 ∧ start = p.waddrTarget) ∨
      (call = .setRunMode v ∧ (v = 0 ∨ v = 1) ∧ start = p.waddrRunmode) ∨
      (call = .setFrostProtectTemperature v ∧ p.frostMin ≤ v ∧ v ≤ p.frostMax ∧ start = p.waddrFrost)) :
    setterPlan p call = some (.ok (start, v)) := by
  obtain ⟨rfl, hmin, hmax, rfl⟩ | ⟨rfl, hv, rfl⟩ | ⟨rfl, hmin, hmax, rfl⟩ := h
  · exact congrArg some (if_neg (not_or.mpr ⟨Nat.not_lt.mpr hmin, Nat.not_lt.mpr hmax⟩))
  · exact congrArg some (if_neg fun ⟨h0, h1⟩ => hv.elim h0 h1)
  · exact congrArg some (if_neg (not_or.mpr ⟨BitVec.not_lt.mpr hmin, BitVec.not_lt.mpr hmax⟩))

/-- Settles O48: the plan is an error (`setterPlan_of_out_of_range`), which ends the call. -/
theorem settersRejectValuesOutOfRange : Obligations.SettersRejectValuesOutOfRange := by
  intro s k c id call retries prog turns v code h hid hv
  obtain ⟨e, hplan, rfl⟩ := setterPlan_of_out_of_range hv
  refine ⟨_, ?_, onlyHost_endCall s k turns (fun c => { c with prog := prog }) [e.code]⟩
  rw [step_issues h, takeRequest, beginCall_setter hid hplan] <;> rfl

/-- Settles O49: the plan is one byte for its register (`setterPlan_of_in_range`), which ENC.WRITE encodes. -/
theorem settersEncodeOneByteWrites : Obligations.SettersEncodeOneByteWrites := by
  intro s k c id call retries prog turns v start h hid hv
  rw [step_issues h, takeRequest, beginCall_setter hid (setterPlan_of_in_range hv)]
  · exact issueCommand_atStage_eq_exec _ rfl rfl
  · rfl

/-! ### Getters -/

/-- The getters of R233, each with its one command on the descriptor and the snapshot. -/
def IsGetter (call : HostCall) (i : Desc → Bytes → Instr) : Prop :=
  (∀ p, setterPlan p call = none) ∧ (∀ d snap, getterCommand d snap call = some (i d snap)) ∧
  ∀ d snap, (i d snap).port = .command ∧ (d.wf = true → strOk snap = true → (i d snap).wf = true)

theorem beginCall_getter {k : Nat} {c : Client} {id : Identity} {call : HostCall} {budget : Nat} {s : State}
    {i : Desc → Bytes → Instr} (hid : c.ident = some id) (h : IsGetter call i) :
    beginCall k c call budget s = beginGet k id c.snap call s := by
  obtain ⟨hplan, hget, -⟩ := h
  cases call with
  | construct | readAll | refresh => cases hget id.desc []
  | _ => simp only [beginCall, hid, beginOwned, hplan]

theorem isGetter_of_mem {call : HostCall} {i : Desc → Bytes → Instr}
    (h : (call = .getTemperatureFormat ∧ i = .rmTfmt) ∨ (call = .getTargetTemperature ∧ i = .rmTarget) ∨
      (call = .getFrostTemperature ∧ i = .rmFrost) ∨ (call = .getSensorSelection ∧ i = .rmSensel) ∨
      (call = .getCurrentTemperature ∧ i = .rmCurtemp) ∨ (call = .getRunMode ∧ i = .rmRunmode) ∨
      (call = .getHeatState ∧ i = .rmHeat) ∨ ∃ o, call = .getRaw o ∧ i = fun _ dcb => .rmRaw o dcb) : IsGetter call i := by
  obtain ⟨rfl, rfl⟩ | ⟨rfl, rfl⟩ | ⟨rfl, rfl⟩ | ⟨rfl, rfl⟩ | ⟨rfl, rfl⟩ | ⟨rfl, rfl⟩ | ⟨rfl, rfl⟩ | ⟨o, rfl, rfl⟩ := h
  case inr.inr.inr.inr.inr.inr.inr => exact ⟨fun _ => rfl, fun _ _ => rfl, fun _ _ => ⟨rfl, fun _ hs => hs⟩⟩
  all_goals exact ⟨fun _ => rfl, fun _ _ => rfl, fun _ _ => ⟨rfl, fun hd hs => Bool.and_eq_true_iff.mpr ⟨hd, hs⟩⟩⟩

/-- Settles O53: each getter is one RM command (`isGetter_of_mem`) on the snapshot, where there is one. -/
theorem gettersReadTheCachedSnapshot : Obligations.GettersReadTheCachedSnapshot := by
  intro s k c id call retries prog turns i h hid hcall
  have hgetter := isGetter_of_mem hcall
  have hstep := (step_issues h).trans (beginCall_getter hid hgetter)
  obtain ⟨-, hget, hi⟩ := hgetter
  refine ⟨fun hsnap => ?_, fun p hsnap hlen hwf => ?_⟩
  · rw [hstep, hsnap]; rfl
  · obtain ⟨hport, hiwf⟩ := hi id.desc p
    rw [hstep, hsnap]
    simp only [beginGet, hget]
    exact issueCommand_atStage_eq_exec _ hport (hiwf hwf (decide_eq_true hlen))

/-! ### Calls in progress -/

theorem continueCall_ok {k : Nat} {c : Client} {r : Running} {s : State} {body : Bytes}
    (h : c.mail.getLast? = some (0x00 :: body)) : continueCall k c r s = onOk k c r (0x00 :: body) body s := by
  simp only [continueCall, h]
  rfl

theorem continueCall_error {k : Nat} {c : Client} {r : Running} {s : State} {kind : ErrKind}
    (h : c.mail.getLast? = some [kind.code]) : continueCall k c r s = onError k c r [kind.code] kind.code s := by
  simp only [continueCall, h, if_neg kind.code_ne_okCode]

/-- Settles O51: the stages in their order, each with its one line. -/
theorem hostCallsIssueTheirNextCommand : Obligations.HostCallsIssueTheirNextCommand := by
  refine ⟨fun s k c id call budget turns body h hid hmail hr => ?_,
    fun s k c id call fn budget turns p h hid hlen hmail => ⟨fun hr => ?_, fun hr => ?_, fun hr hwf => ?_, fun hr => ?_⟩⟩
  all_goals have hstep := (step_goes h hr).trans (continueCall_ok hmail)
  · simp only [onOk, hid] at hstep
    exact ⟨_, hstep, rfl⟩
  · simp only [onOk, hid] at hstep
    rw [hstep]
    exact issueCommand_next_stage_eq_exec rfl (decide_eq_true hlen)
  · simp only [onOk, hid] at hstep
    rw [hstep]
    exact issueCommand_next_stage_eq_exec rfl (decide_eq_true hlen)
  · simp only [onOk, hid] at hstep
    rw [hstep]
    exact issueCommand_atStage_eq_exec _ rfl (Bool.and_eq_true_iff.mpr ⟨hwf, decide_eq_true hlen⟩)
  · simp only [onOk, hid] at hstep
    exact ⟨_, hstep, rfl⟩

/-- Settles O54: LA.REGISTER whatever the client was, its identity after `OK`, and the refusal of every other call. -/
theorem constructRegistersTheAddress : Obligations.ConstructRegistersTheAddress := by
  refine ⟨fun s k c addr desc retries prog turns h => ?_, fun s k c call addr desc budget turns h hr hmail => ?_,
    fun s k c call retries prog turns h hid hcall => ?_⟩
  · rw [step_issues h]
    exact issueCommand_atStage_eq_exec (i := .laRegister addr) _ rfl rfl
  · have hstep := (step_goes h hr).trans (continueCall_ok hmail)
    simp only [onOk] at hstep
    exact ⟨_, hstep, onlyHost_endCall ..⟩
  · rw [step_issues h]
    cases call with
    | construct addr desc => exact absurd rfl (hcall addr desc)
    | _ => simp only [takeRequest, beginCall, hid]

/-- Settles O55: a failed call ends or begins again (`onError`), by whether its kind is transient and a retry is left. -/
theorem onlyTransientErrorsAreRetried : Obligations.OnlyTransientErrorsAreRetried := by
  intro s k c r kind turns h hr hmail
  have hstep := (step_goes h hr).trans (continueCall_error hmail)
  refine ⟨fun hstop => ⟨_, hstep.trans (if_neg ?_), rfl⟩, fun id hid htransient hbudget => ?_⟩
  · rw [Bool.and_eq_true_iff, transientCodes_contains_code, decide_eq_true_iff]
    exact fun ⟨ht, hb⟩ => hstop.elim (fun hne => hne ht) (fun h0 => hb.ne' h0)
  · have hretry : step s = beginCall k c r.call (r.budget - 1) (afterTurn s turns) := hstep.trans <| if_pos <|
      Bool.and_eq_true_iff.mpr ⟨(transientCodes_contains_code kind).mpr htransient, decide_eq_true hbudget⟩
    refine ⟨fun hcall => ?_, fun v start hv => ?_⟩
    · rw [hretry, beginCall_read hid hcall]
      exact issueCommand_next_stage_eq_exec rfl rfl
    · rw [hretry, beginCall_setter hid (setterPlan_of_in_range hv)]
      · exact issueCommand_next_stage_eq_exec rfl rfl
      · rfl

end Sys2Proof.Machine
end

section
/-! Who may replace a snapshot (spec/44_client_sequences.md R231, R232, spec/70_reset_and_hazards.md R299). The idea: every
operation keeps every client's snapshot but the two edits of a call in progress, `storeSnap` and `constructed`, so a case
analysis over the turns and over the stages of a call finds these two alone. -/

namespace Sys2Proof.Machine

/-! ### Operations that keep the snapshots -/

/-- Every client has the snapshot it had. -/
def SameSnaps (s t : State) : Prop := ∀ j : Nat, (t.clients[j]?).map Client.snap = (s.clients[j]?).map Client.snap

theorem SameSnaps.refl (s : State) : SameSnaps s s := fun _ => rfl

theorem SameSnaps.trans {s t u : State} (h : SameSnaps s t) (h' : SameSnaps t u) : SameSnaps s u :=
  fun j => (h' j).trans (h j)

theorem SameSnaps.snap_eq {s t : State} {j : Nat} {c c' : Client} (h : SameSnaps s t) (hc : s.clients[j]? = some c)
    (hc' : t.clients[j]? = some c') : c'.snap = c.snap := by
  simpa [hc, hc'] using h j

theorem onClient_sameSnaps (s : State) (k : Nat) {f : Client → Client} (hf : ∀ c, (f c).snap = c.snap) :
    SameSnaps s (s.onClient k f) := by
  intro j
  rw [State.onClient_clients, List.getElem?_modify]
  cases s.clients[j]? <;> simp [apply_ite Client.snap, hf]

theorem atStage_sameSnaps (s : State) (k : Nat) (r : Running) : SameSnaps s (s.atStage k r) :=
  onClient_sameSnaps s k fun _ => rfl

theorem endCall_sameSnaps (s : State) (k : Nat) (o : Bytes) : SameSnaps s (s.endCall k o) :=
  onClient_sameSnaps s k fun _ => rfl

theorem Effect.sameSnaps {s t : State} (h : Effect s t) : SameSnaps s t := by
  cases h with
  | answered c r => exact onClient_sameSnaps (s.setCe c) s.cur fun _ => rfl
  | registered a h => exact onClient_sameSnaps (s.setReg a) s.cur fun _ => rfl
  | placed a frame hr hq => exact onClient_sameSnaps _ s.cur fun _ => rfl
  | arrived raw => exact .refl s

theorem issueAt_sameSnaps {p : Port} {k : Nat} {bs : Bytes} {s t : State} (h : issueAt p k bs s = .next t) :
    SameSnaps s t := by
  have hcur : SameSnaps s (s.setCur k) := .refl s
  cases hd : decodeAt s.lut p bs with
  | ok i =>
    obtain ⟨u, hu, he⟩ := exec_effect i (s.setCur k)
    cases (issueAt_of_ok hd ▸ hu).symm.trans h
    exact hcur.trans he.sameSnaps
  | error e =>
    cases (issueAt_of_error hd).symm.trans h
    exact hcur.trans (effect_answer _ _).sameSnaps

theorem issueCommand_atStage_sameSnaps {k : Nat} {i : Instr} {s t : State} {r : Running}
    (h : issueCommand k i (s.atStage k r) = .next t) : SameSnaps s t :=
  (atStage_sameSnaps s k r).trans (issueAt_sameSnaps h)

/-! ### Host calls -/

theorem beginOwned_sameSnaps {k : Nat} {c : Client} {id : Identity} {call : HostCall} {budget : Nat} {s t : State}
    (h : beginOwned k c id call budget s = .next t) : SameSnaps s t := by
  have hwrite (plan : Except ErrKind (Half × Byte)) (h : beginWrite k id call budget plan s = .next t) :
      SameSnaps s t := by
    cases plan with
    | error e => cases h; exact endCall_sameSnaps s k _
    | ok w => exact issueCommand_atStage_sameSnaps h
  have hget (h : beginGet k id c.snap call s = .next t) : SameSnaps s t := by
    unfold beginGet at h
    split at h
    · cases h
    · split at h
      · exact issueCommand_atStage_sameSnaps h
      · cases h; exact .refl s
  unfold beginOwned at h
  split at h
  · exact issueCommand_atStage_sameSnaps h
  · exact issueCommand_atStage_sameSnaps h
  · split at h
    · exact hwrite _ h
    · exact hget h

theorem beginCall_sameSnaps {k : Nat} {c : Client} {call : HostCall} {budget : Nat} {s t : State}
    (h : beginCall k c call budget s = .next t) : SameSnaps s t := by
  unfold beginCall at h
  split at h
  · exact issueCommand_atStage_sameSnaps h
  · exact beginOwned_sameSnaps h
  · cases h

theorem takeRequest_sameSnaps {k : Nat} {c : Client} {q : Request} {s t : State} (h : takeRequest k c q s = .next t) :
    SameSnaps s t := by
  cases q with
  | command bs => exact issueAt_sameSnaps h
  | frame raw => exact issueAt_sameSnaps h
  | call call retries => exact beginCall_sameSnaps h

/-- What the turn of client `k`, which is `c`, does to the snapshots: nothing, or it stores the payload that DEC.VERIFY has
just answered to a read, or it makes the client anew. -/
inductive SnapTurn (k : Nat) (c : Client) (s t : State) : Prop where
  | same (h : SameSnaps s t)
  | stored (r : Running) (body : Bytes) (hr : c.running = some r) (hstage : r.stage = .verified .read)
      (hmail : c.mail.getLast? = some (0x00 :: body)) (h : SameSnaps (s.storeSnap k (body.drop 2)) t)
  | made (r : Running) (addr : Byte) (desc : Desc) (body : Bytes) (hr : c.running = some r)
      (hstage : r.stage = .registered addr desc) (hmail : c.mail.getLast? = some (0x00 :: body))
      (h : t = (s.constructed k ⟨addr, desc⟩).endCall k (0x00 :: body))

theorem continueCall_snapTurn {k : Nat} {c : Client} {r : Running} {s t : State} (hr : c.running = some r)
    (h : continueCall k c r s = .next t) : SnapTurn k c s t := by
  unfold continueCall at h
  split at h
  · cases h; exact .same (.refl s)
  · cases h; exact .same (.refl s)
  · rename_i code body hmail
    split at h
    · rename_i hok
      subst hok
      unfold onOk at h
      split at h
      case h_1 addr desc hstage => cases h; exact .made r addr desc body hr hstage hmail rfl
      case h_2 => exact .same (issueCommand_atStage_sameSnaps h)
      case h_3 => exact .same (issueCommand_atStage_sameSnaps h)
      case h_4 hstage _ => exact .stored r body hr hstage hmail (issueCommand_atStage_sameSnaps h)
      case h_5 => cases h; exact .same (endCall_sameSnaps s k _)
      case h_6 => cases h; exact .same (endCall_sameSnaps s k _)
      case h_7 => cases h
    · unfold onError at h
      split at h
      · exact .same (beginCall_sameSnaps h)
      · cases h; exact .same (endCall_sameSnaps s k _)

theorem clientTurn_snapTurn {k : Nat} {s t : State} (h : clientTurn k s = .next t) :
    SameSnaps s t ∨ ∃ c, s.clients[k]? = some c ∧ SnapTurn k c s t := by
  unfold clientTurn at h
  split at h
  · cases h; exact .inl (.refl s)
  · rename_i c hc
    split at h
    · cases h; exact .inl (.refl s)
    · cases h; exact .inl (.refl s)
    · split at h
      case h_1 r hr => exact .inr ⟨c, hc, continueCall_snapTurn hr h⟩
      case h_2 => cases h; exact .inl (.refl s)
      case h_3 q rest _ _ =>
        have hprog := onClient_sameSnaps s k (f := fun c => { c with prog := rest }) fun _ => rfl
        exact .inl (hprog.trans (takeRequest_sameSnaps h))

/-! ### The other turns -/

theorem release_sameSnaps (s : State) (a : BusAddr) (r : Bytes) : SameSnaps s (s.release a r) := by
  obtain ⟨-, h⟩ | ⟨k, -, h⟩ := s.release_cases a r <;> rw [h]
  · exact .refl s
  · exact onClient_sameSnaps (s.setIssuer a none) k fun _ => rfl

theorem grant_sameSnaps (s : State) (a : BusAddr) : SameSnaps s (s.grant a) := by
  obtain ⟨-, h⟩ | ⟨f, -, -, ⟨-, h⟩ | ⟨-, h⟩⟩ := s.grant_cases a <;> rw [h]
  · exact .refl s
  · exact .refl s
  · exact release_sameSnaps (State.freed _ a) a _

theorem complete_sameSnaps (s : State) : SameSnaps s s.complete := by
  obtain ⟨-, h⟩ | ⟨-, h⟩ := s.complete_cases <;> rw [h]
  · exact .refl s
  · exact release_sameSnaps (State.freed _ s.owner) s.owner _

theorem dropRequest_snap (c : Client) : (State.dropRequest c).snap = c.snap := by rw [dropRequest_eq]

theorem resetEvent_sameSnaps (s : State) : SameSnaps s s.resetEvent := by
  intro j
  show ((s.clients.map State.dropRequest)[j]?).map Client.snap = _
  rw [List.getElem?_map, Option.map_map]
  exact congrArg (Option.map · _) (funext dropRequest_snap)

theorem takeTurn_snapTurn {u : Turn} {s t : State} (h : takeTurn u s = .next t) :
    SameSnaps s t ∨ ∃ k c, s.clients[k]? = some c ∧ SnapTurn k c s t := by
  cases u with
  | client k => exact (clientTurn_snapTurn h).imp_right fun ⟨c, hc⟩ => ⟨k, c, hc⟩
  | grant a => cases h; exact .inl (grant_sameSnaps s a)
  | complete => cases h; exact .inl (complete_sameSnaps s)
  | reset => cases h; exact .inl (resetEvent_sameSnaps s)
  | arrive raw =>
    simp only [takeTurn, arriveTurn] at h
    split at h
    · rename_i i _
      obtain ⟨v, hv, he⟩ := exec_effect i s
      cases hv.symm.trans h
      exact .inl he.sameSnaps
    · cases h; exact .inl (.refl s)
  | drain =>
    simp only [takeTurn, drainTurn] at h
    split at h
    · cases h; exact .inl (.refl s)
    · cases h
  | hostTransport => cases h

/-- Settles O52: by what a client's turn does to the snapshots (`SnapTurn`), and only a client's turn does it. -/
theorem snapshotReplacedOnlyByAVerifiedRead : Obligations.SnapshotReplacedOnlyByAVerifiedRead := by
  intro s t k c c' hc h hc' hne
  obtain ⟨rfl, -⟩ | ⟨u, e, ht, -⟩ := step_cases h
  · exact absurd ((SameSnaps.refl t).snap_eq hc hc') hne
  obtain hsame | ⟨j, d, hd, hturn⟩ := takeTurn_snapTurn ht
  · exact absurd (hsame.snap_eq hc hc') hne
  have hc : (s.before u e).clients[k]? = some c := hc
  have hother (f : Client → Client) (hj : j ≠ k) : ((s.before u e).onClient j f).clients[k]? = some c := by
    simp [hj, hc]
  have hself (f : Client → Client) : ((s.before u e).onClient k f).clients[k]? = some (f c) := by
    simp [hc]
  cases hturn with
  | same hsame => exact absurd (hsame.snap_eq hc hc') hne
  | stored r body hr hstage hmail hsame =>
    by_cases hj : j = k
    · subst hj
      cases hd.symm.trans hc
      exact .inl ⟨r, body, hr, hstage, hmail, hsame.snap_eq (hself _) hc'⟩
    · exact absurd (hsame.snap_eq (hother _ hj) hc') hne
  | made r addr desc body hr hstage hmail heq =>
    rw [State.constructed, State.endCall, State.onClient_onClient] at heq
    subst heq
    by_cases hj : j = k
    · subst hj
      cases hd.symm.trans hc
      cases (hself _).symm.trans hc'
      exact .inr ⟨r, addr, desc, body, hr, hstage, hmail, rfl, rfl⟩
    · cases (hother _ hj).symm.trans hc'
      exact absurd rfl hne

end Sys2Proof.Machine
end

section
/-! Exchanges end (spec/20_memory.md R70, spec/43_link_arbiter.md R211, R219, log entry 22). The idea: while the arbiter has
an enabled step and a slot is occupied, a step is a move of the arbiter, a reset, or one more step of waiting, and of these
the model counts at most `patience + 1` in a row. -/

namespace Sys2Proof.Machine

/-! ### The arbiter moves in time -/

/-- The step left the arbiter waiting, as one of the bounded number that may. -/
def Waited (s t : State) : Prop :=
  t.env.patience = s.env.patience ∧ t.env.idle = s.env.idle + 1 ∧ s.env.idle ≤ s.env.patience

/-- A turn that is none of the arbiter's enabled steps and no reset, with a slot occupied, is refused or may not pass an
overdue arbiter. -/
theorem mayPass_eq_false {s t : State} {u : Turn} {e : Env} (ht : takeTurn u (s.before u e) = .next t)
    (hm : arbiterMoves s u = false) (hu : u ≠ .reset) (hbusy : s.quiet = false) : mayPass s u = false := by
  cases u with
  | client k => rfl
  | grant a => exact hm
  | complete => exact hm
  | reset => exact absurd rfl hu
  | arrive raw => rfl
  | drain =>
    have hbusy : (s.before .drain e).quiet = false := hbusy
    rw [takeTurn, drainTurn, hbusy] at ht; cases ht
  | hostTransport => cases ht

theorem step_waits {s t : State} (h : step s = .next t) (hready : arbiterReady s = true) (hbusy : s.quiet = false) :
    (∃ u e, arbiterMoves s u = true ∧ takeTurn u (s.setEnv e) = .next t) ∨
    (s.env.upcoming.head? = some .reset ∧ ∃ e, t = (s.setEnv e).resetEvent) ∨ Waited s t := by
  obtain ⟨-, hno⟩ | ⟨u, e, ht, hpatience, hpass, hreset⟩ := step_cases h
  · obtain ⟨u, hu⟩ := (arbiterReady_iff s).mp hready
    exact absurd (arbiterMoves_imp_enabled hu) (hno u)
  cases hm : arbiterMoves s u with
  | true => exact .inl ⟨u, _, hm, ht⟩
  | false =>
    by_cases hu : u = .reset
    · subst hu
      cases ht
      exact .inr (.inl ⟨hreset rfl, _, rfl⟩)
    · obtain ⟨hidle, hpat⟩ := takeTurn_idle ht
      have hafter : idleAfter s u = s.env.idle + 1 := by rw [idleAfter, hm, hready]; rfl
      refine .inr (.inr ⟨hpat.trans hpatience, hidle.trans hafter, Nat.not_lt.mp fun hlate => ?_⟩)
      have hoverdue : overdue s = true := Bool.and_eq_true_iff.mpr ⟨hready, decide_eq_true hlate⟩
      exact Bool.false_ne_true ((mayPass_eq_false ht hm hu hbusy).symm.trans (hpass hoverdue))

theorem quiet_eq_false {s : State} {a : BusAddr} (h : s.req[a] ≠ .idle) : s.quiet = false :=
  Bool.eq_false_iff.mpr fun hq => h ((quiet_iff s).mp hq a)

/-! ### While the link is held -/

theorem complete_lock (s : State) : s.complete.lock = false := by
  obtain ⟨hfree, h⟩ | ⟨-, h⟩ := s.complete_cases <;> rw [h]
  · exact hfree
  · exact State.release_lock _ _ _

theorem not_grantable_of_held {s : State} (hheld : s.lock = true) (a : BusAddr) : ¬s.grantable a = true := by
  intro hg
  obtain ⟨hfree, -⟩ := (s.grantable_iff a).mp hg
  rw [hheld] at hfree; cases hfree

/-- R70: with the link held a step frees it, or is one that waits. -/
theorem held_step {s t : State} (hinv : s.Inv) (hheld : s.lock = true) (h : step s = .next t) :
    t.lock = false ∨ (t.lock = true ∧ t.owner = s.owner ∧ t.hist = s.hist ∧ Waited s t) := by
  obtain ⟨a, ha⟩ := hinv.1.lockIff.mp hheld
  have hbusy : s.quiet = false := quiet_eq_false (a := a) fun hq => by rw [hq] at ha; cases ha
  obtain ⟨u, e, hm, ht⟩ | ⟨-, e, rfl⟩ | hwait := step_waits h ((arbiterReady_iff s).mpr ⟨.complete, hheld⟩) hbusy
  · cases u with
    | grant b => exact absurd hm (not_grantable_of_held hheld b)
    | complete => cases ht; exact .inl (complete_lock _)
    | _ => cases hm
  · exact .inl rfl
  · obtain (⟨hlock, howner, -, hhist, -⟩ | ⟨b, f, -, -, hlock, howner, hhist, -⟩ | ⟨b, f, hg, -⟩ | ⟨r, -, hlock, -⟩) |
      ⟨-, e, rfl⟩ := step_link h
    · exact .inr ⟨hlock.trans hheld, howner, hhist, hwait⟩
    · exact .inr ⟨hlock.trans hheld, howner, hhist, hwait⟩
    · exact absurd hg (not_grantable_of_held hheld b)
    · exact .inl hlock
    · exact .inl rfl

theorem run_succ_eq_next {n : Nat} {s t : State} :
    Sys2Proof.core.run (n + 1) s = .next t ↔ ∃ u, step s = .next u ∧ Sys2Proof.core.run n u = .next t := by
  have hstep : Sys2Proof.core.step s = step s := rfl
  simp only [Host.Core.run, hstep]
  cases step s <;> simp

/-- R70 along a run: by the steps that are left until the arbiter is overdue. -/
theorem run_frees {n : Nat} {s t : State} (hinv : s.Inv) (hn : s.env.patience + 1 < n + s.env.idle) (hpos : 0 < n)
    (h : Sys2Proof.core.run n s = .next t) :
    ∃ (m : Nat) (u : State), m ≤ n ∧ Sys2Proof.core.run m s = .next u ∧ u.lock = false := by
  induction n generalizing s with
  | zero => cases hpos
  | succ n ih =>
    cases hlock : s.lock with
    | false => exact ⟨0, s, Nat.zero_le _, rfl, hlock⟩
    | true =>
      obtain ⟨s', hs, hrun⟩ := run_succ_eq_next.mp h
      obtain hfree | ⟨-, -, -, hpat, hidle, hle⟩ := held_step hinv hlock hs
      · exact ⟨1, s', by omega, run_succ_eq_next.mpr ⟨s', hs, rfl⟩, hfree⟩
      · obtain ⟨m, u, hm, hrun', hu⟩ := ih (step_inv hinv hs) (by omega) (by omega) hrun
        exact ⟨m + 1, u, by omega, run_succ_eq_next.mpr ⟨s', hs, hrun'⟩, hu⟩

/-! ### While a request waits -/

theorem grant_hist {s : State} {a : BusAddr} (e : Env) (hg : s.grantable a = true) :
    ∃ f, ((s.setEnv e).grant a).hist = s.hist ++ [.wrote a f] := by
  obtain ⟨hno, -⟩ | ⟨f, -, -, ⟨-, h⟩ | ⟨-, h⟩⟩ := (s.setEnv e).grant_cases a
  · cases hg.symm.trans hno
  · exact ⟨f, by rw [h]; rfl⟩
  · exact ⟨f, by rw [h, State.release_hist]; rfl⟩

/-- The arbiter may grant some request, under `fifo` the one that heads the post order. -/
theorem arbiterReady_of_pending {s : State} {a : BusAddr} {frame : Bytes} (hinv : s.Inv) (hfree : s.lock = false)
    (hp : s.req[a] = .pending frame) : arbiterReady s = true := by
  obtain ⟨-, hqueue⟩ := hinv
  have ha : a ∈ s.order := (hqueue.pendingIff a).mpr ((State.isPending_iff _).mpr ⟨frame, hp⟩)
  obtain ⟨b, rest, horder⟩ := List.exists_cons_of_ne_nil (List.ne_nil_of_mem ha)
  have hb : State.isPending s.req[b] = true := (hqueue.pendingIff b).mp (by rw [horder]; exact List.mem_cons_self)
  have hhead : s.order.head? = some b := by rw [horder]; rfl
  exact (arbiterReady_iff s).mpr ⟨.grant b, (s.grantable_iff b).mpr ⟨hfree, hb, fun _ => hhead⟩⟩

/-- R211, R219: with the link free and a request waiting a step writes some frame, is a reset, or is one that waits. -/
theorem pending_step {s t : State} {a : BusAddr} {frame : Bytes} (hinv : s.Inv) (hfree : s.lock = false)
    (hp : s.req[a] = .pending frame) (h : step s = .next t) :
    (∃ (b : BusAddr) (f : Bytes), t.hist = s.hist ++ [.wrote b f]) ∨ s.env.upcoming.head? = some .reset ∨
    (t.lock = false ∧ t.hist = s.hist ∧ t.req[a] = .pending frame ∧ Waited s t) := by
  have hbusy : s.quiet = false := quiet_eq_false (a := a) (by rw [hp]; exact nofun)
  obtain ⟨u, e, hm, ht⟩ | ⟨hr, -⟩ | hwait := step_waits h (arbiterReady_of_pending hinv hfree hp) hbusy
  · cases u with
    | grant b =>
      cases ht
      obtain ⟨f, hf⟩ := grant_hist e hm
      exact .inl ⟨b, f, hf⟩
    | complete => rw [arbiterMoves, hfree] at hm; cases hm
    | _ => cases hm
  · exact .inr (.inl hr)
  · obtain (⟨hlock, -, hreq, hhist, -⟩ | ⟨b, f, hidle, hreq, hlock, -, hhist, -⟩ | ⟨b, f, -, -, -, hhist, -⟩ |
      ⟨r, hheld, -⟩) | ⟨hr, -⟩ := step_link h
    · exact .inr (.inr ⟨hlock.trans hfree, hhist, hreq ▸ hp, hwait⟩)
    · have hne : b ≠ a := by rintro rfl; rw [hp] at hidle; cases hidle
      exact .inr (.inr ⟨hlock.trans hfree, hhist, by rw [hreq, getElem_set_busAddr, if_neg hne, hp], hwait⟩)
    · exact .inl ⟨b, f, hhist⟩
    · rw [hfree] at hheld; cases hheld
    · exact .inr (.inl hr)

/-- Settles O60: `held_step` and `pending_step`, and the first of them along a run (`run_frees`). -/
theorem grantedExchangesEnd : Obligations.GrantedExchangesEnd :=
  ⟨fun _ _ => held_step, fun _ _ _ => run_frees, fun _ _ _ _ => pending_step⟩

end Sys2Proof.Machine
end

section
/-! A request that waits for ever (spec/43_link_arbiter.md R219, log entries 1 and 7). The idea: under `any` a settled
schedule grants address 1 alone, for which one client posts over and over, while the request for address 2 waits; the states
of that run are of four shapes, whatever the transport answers, and each round adds an event. -/

namespace Sys2Proof.Machine

/-! ### The run -/

/-- The descriptor of LA.EXCHANGE with the empty frame for address 1. -/
def postDescriptor : Bytes := encode (.laExchange 1 [])

/-- The client that posts over and over. -/
def poster (status : ClientStatus) (mail : List Bytes) : Client :=
  { freshClient with status := status, again := [.command postDescriptor], mail := mail }

/-- The client whose request for address 2 waits. -/
def starvedClient : Client := { freshClient with status := .blocked 1 }

/-- The schedule without end: a post, the grant of address 1, the complete step. -/
def schedule (turns : List Turn) (idle seq : Nat) : Env :=
  { turns := turns, cycle := [.client 1, .grant 0, .complete], patience := 1000, idle := idle, tx := [], rx := [],
    seq := seq }

/-- A state of the run: address 2's request is pending, and of address 1 the slot is `slot`, issued by `issuer`. -/
def starving (lock : Bool) (slot : Slot) (issuer : Option Nat) (order : List BusAddr) (c : Client) (hist : List Event)
    (env : Env) : State :=
  { State.reset with
    regv := (State.reset.regv.set 0 true).set 1 true
    lock := lock
    req := (State.reset.req.set 1 (.pending [])).set 0 slot
    hist := hist
    order := order
    issuer := (State.reset.issuer.set 1 (some 0)).set 0 issuer
    clients := [starvedClient, c]
    cur := 1
    env := env }

/-- Before the post. -/
abbrev starvingReady (idle seq : Nat) (mail : List Bytes) (hist : List Event) : State :=
  starving false .idle none [1] (poster .ready mail) hist (schedule [] idle seq)

/-- Before the grant of address 1. -/
abbrev starvingPosted (idle seq : Nat) (mail : List Bytes) (hist : List Event) : State :=
  starving false (.pending []) (some 1) [1, 0] (poster (.blocked 0) mail) hist (schedule [.grant 0, .complete] idle seq)

/-- Before the complete step, after a write that succeeded. -/
abbrev starvingHeld (seq : Nat) (mail : List Bytes) (hist : List Event) : State :=
  starving true (.active []) (some 1) [1] (poster (.blocked 0) mail) hist (schedule [.complete] 0 seq)

/-- Before the complete step, after a write that failed: it does nothing. -/
abbrev starvingFailed (seq : Nat) (mail : List Bytes) (hist : List Event) : State :=
  starving false .idle none [1] (poster .ready mail) hist (schedule [.complete] 0 seq)

/-- The states of the run; `n` steps lead there. -/
inductive Starving (n : Nat) : State → Prop where
  | ready {idle seq : Nat} {mail : List Bytes} {hist : List Event} (hidle : idle ≤ 1) (hn : n ≤ 3 * hist.length)
      (hh : ∀ f, .wrote 1 f ∉ hist) : Starving n (starvingReady idle seq mail hist)
  | posted {idle seq : Nat} {mail : List Bytes} {hist : List Event} (hn : n ≤ 3 * hist.length + 1)
      (hh : ∀ f, .wrote 1 f ∉ hist) : Starving n (starvingPosted idle seq mail hist)
  | held {seq : Nat} {mail : List Bytes} {hist : List Event} (hn : n + 1 ≤ 3 * hist.length)
      (hh : ∀ f, .wrote 1 f ∉ hist) : Starving n (starvingHeld seq mail hist)
  | failed {seq : Nat} {mail : List Bytes} {hist : List Event} (hn : n + 1 ≤ 3 * hist.length)
      (hh : ∀ f, .wrote 1 f ∉ hist) : Starving n (starvingFailed seq mail hist)

section
variable {lock : Bool} {slot : Slot} {issuer : Option Nat} {order : List BusAddr} {c : Client} {hist : List Event}
  {turns : List Turn} {idle seq : Nat}

theorem starving_grantable_one {env : Env} : (starving false slot issuer order c hist env).grantable 1 = true :=
  (State.grantable_iff _ _).mpr ⟨rfl, rfl, nofun⟩

theorem starving_arbiterReady {env : Env} : arbiterReady (starving false slot issuer order c hist env) = true :=
  (arbiterReady_iff _).mpr ⟨.grant 1, starving_grantable_one⟩

theorem starving_not_overdue (h : idle ≤ 2) :
    overdue (starving lock slot issuer order c hist (schedule turns idle seq)) = false := by
  have hlate : ¬1000 < idle := by omega
  exact Bool.and_eq_false_iff.mpr (.inr (decide_eq_false hlate))

theorem starving_settled {u : Turn} {rest : List Turn} (hidle : idle ≤ 2)
    (h : (schedule turns idle seq).upcoming = u :: rest) :
    Settled (starving lock slot issuer order c hist (schedule turns idle seq)) u rest :=
  ⟨h, fun ho => absurd ho (by rw [starving_not_overdue hidle]; exact Bool.false_ne_true)⟩

theorem starving_afterTurn (rest : List Turn) :
    afterTurn (starving false slot issuer order c hist (schedule turns idle seq)) rest =
      starving false slot issuer order c hist (schedule rest (idle + 1) seq) := by
  simp only [afterTurn, starving_arbiterReady, if_true]
  rfl

end

section
variable {idle seq : Nat} {mail : List Bytes} {hist : List Event}

/-- The post of the one client that posts over and over. -/
theorem step_starvingReady (hidle : idle ≤ 1) :
    step (starvingReady idle seq mail hist) = .next (starvingPosted (idle + 1) seq mail hist) := by
  have hissues : IssuesNext (starvingReady idle seq mail hist) 1 (poster .ready mail) (.command postDescriptor) []
      [.grant 0, .complete] := ⟨⟨starving_settled (by omega) rfl, rfl, rfl⟩, rfl, rfl⟩
  rw [stepRunsDecodedCommand _ _ _ _ _ _ (.laExchange (busByte 0) []) hissues rfl, fetched_eq, starving_afterTurn]
  exact congrArg Host.Outcome.next (State.post_busByte_of_idle [] rfl rfl)

/-- The grant of address 1, whose write may succeed or fail. -/
theorem step_starvingPosted :
    step (starvingPosted idle seq mail hist) = .next (starvingHeld (seq + 1) mail (hist ++ [.wrote 0 []])) ∨
    step (starvingPosted idle seq mail hist) =
      .next (starvingFailed (seq + 1) (mail ++ [errBytes .ioError]) (hist ++ [.wrote 0 []])) := by
  have hgrant : (starvingPosted idle seq mail hist).grantable 0 = true :=
    (State.grantable_iff _ _).mpr ⟨rfl, rfl, nofun⟩
  rw [step_arbiter (u := .grant 0) rfl hgrant]
  obtain ⟨hno, -⟩ | ⟨f, -, hf, hcases⟩ := (afterArbiter (starvingPosted idle seq mail hist) [.complete]).grant_cases 0
  · cases hgrant.symm.trans hno
  obtain rfl : [] = f := Slot.pending.inj hf
  obtain ⟨-, hg⟩ | ⟨-, hg⟩ := hcases
  · exact .inl (congrArg Host.Outcome.next hg)
  · exact .inr (congrArg Host.Outcome.next hg)

/-- The complete step, whatever it reads. -/
theorem step_starvingHeld : ∃ r, step (starvingHeld seq mail hist) =
    .next (starvingReady 0 (seq + 1) (mail ++ [State.exchangeResponse r]) (hist ++ [.read 0 r])) := by
  rw [step_arbiter (u := .complete) rfl rfl]
  exact ⟨_, rfl⟩

/-- The complete step with the link free. -/
theorem step_starvingFailed : step (starvingFailed seq mail hist) = .next (starvingReady 1 seq mail hist) := by
  have hset : Settled (starvingFailed seq mail hist) .complete [] := starving_settled (by omega) rfl
  rw [step_other hset rfl, starving_afterTurn]
  rfl

end

theorem Starving.exists_step {n : Nat} {s : State} (h : Starving n s) :
    ∃ t, step s = .next t ∧ Starving (n + 1) t := by
  cases h with
  | ready hidle hn hh => exact ⟨_, step_starvingReady hidle, .posted (by omega) hh⟩
  | posted hn hh =>
    obtain h | h := step_starvingPosted
    · exact ⟨_, h, .held (by simp; omega) fun f => by simpa using hh f⟩
    · exact ⟨_, h, .failed (by simp; omega) fun f => by simpa using hh f⟩
  | held hn hh =>
    obtain ⟨r, h⟩ := step_starvingHeld
    exact ⟨_, h, .ready (by omega) (by simp; omega) fun f => by simpa using hh f⟩
  | failed hn hh => exact ⟨_, step_starvingFailed, .ready (by omega) (by omega) hh⟩

theorem Starving.run {n m : Nat} {s : State} (h : Starving m s) :
    ∃ t, Sys2Proof.core.run n s = .next t ∧ Starving (m + n) t := by
  induction n generalizing m s with
  | zero => exact ⟨s, rfl, h⟩
  | succ n ih =>
    obtain ⟨u, hu, h⟩ := h.exists_step
    obtain ⟨t, ht, h⟩ := ih h
    exact ⟨t, run_succ_eq_next.mpr ⟨u, hu, ht⟩, by rwa [Nat.add_right_comm] at h⟩

theorem Starving.waits {n : Nat} {s : State} (h : Starving n s) :
    s.req[(1 : BusAddr)] = .pending [] ∧ (∀ f, .wrote 1 f ∉ s.hist) ∧ n ≤ 3 * s.hist.length + 3 := by
  cases h with
  | ready hidle hn hh => exact ⟨rfl, hh, by simp only [starving]; omega⟩
  | posted hn hh => exact ⟨rfl, hh, by simp only [starving]; omega⟩
  | held hn hh => exact ⟨rfl, hh, by simp only [starving]; omega⟩
  | failed hn hh => exact ⟨rfl, hh, by simp only [starving]; omega⟩

/-- The state the run begins in: address 2's request is pending, and the other client has received nothing yet. -/
def starvingStart : State := starvingReady 0 0 [] []

theorem starvingStart_inv : starvingStart.Inv := by
  refine ⟨⟨by decide, by decide, by decide, by decide⟩, by decide, by decide, by decide, fun a k => ?_⟩
  have hissuer (a : BusAddr) : starvingStart.issuer[a] = if a = 1 then some 0 else none := by decide +revert
  rw [hissuer, ← State.statusOf_eq_some]
  match k with
  | 0 =>
    have hstatus : starvingStart.statusOf 0 = some (.blocked 1) := rfl
    by_cases ha : a = 1
    · simp [ha, hstatus]
    · simp [ha, hstatus, Ne.symm ha]
  | 1 =>
    have hstatus : starvingStart.statusOf 1 = some .ready := rfl
    by_cases ha : a = 1 <;> simp [ha, hstatus]
  | k + 2 =>
    have hstatus : starvingStart.statusOf (k + 2) = none := rfl
    by_cases ha : a = 1 <;> simp [ha, hstatus]

/-- Settles O59: from `starvingStart` every step of the run leads to a state of the run (`Starving.exists_step`), and in each
of them the request is pending and the history long enough (`Starving.waits`). -/
theorem requestsCanWaitForEver : Obligations.RequestsCanWaitForEver := by
  refine ⟨starvingStart, 1, [], starvingStart_inv, rfl, rfl, fun n => ?_⟩
  have hstart : Starving 0 starvingStart := .ready (Nat.zero_le _) (Nat.zero_le _) fun _ => List.not_mem_nil
  obtain ⟨t, ht, h⟩ := hstart.run (n := n)
  rw [Nat.zero_add] at h
  exact ⟨t, ht, h.waits⟩

end Sys2Proof.Machine
end
